-- ==== Sys2Proof/Word.lean ====
section
/-! DEFINITION. The word of the command interface and the island of the audio path (spec 00_scope R8, R10;
42_av_multiplexer R191). Everything the block computes with words beyond this stands in Sys2Proof/Machine. -/

namespace Sys2Proof

/-- A command word, operand word, response word or register: `XLEN` = 32 bits (00_scope R8). -/
abbrev Word := BitVec 32

/-- A 16-bit register field (line index, line-stream tag, published-line count). -/
abbrev Half := BitVec 16

/-- An 8-bit counter (`enc_es`, `sil_idx`; 10_state R36, R37). -/
abbrev Octet := BitVec 8

/-- `ISL_WORDS` = 36 words, carried as opaque words once encoded (42_av_multiplexer R191). A word of `ISL_WORD_W` bits
stands in the low bits of a `Word`, as it goes out in a response (30_encoding R108). -/
abbrev Island := Vector Word 36

end Sys2Proof
end

