-- ==== Sys2Proof/Config.lean ====
section
/-! DEFINITION. What the implementation fixes (spec 00_scope R8, 10_state R34): the constants R8 marks fixed, the parameter
record `Params`, the values this hardware takes (`Params.moe`), the uninterpreted encoder and font, and the free values
(`draw`). Every command and the step itself are written over a `Params`, as R8 and R34 ask; `exec` and `step` are they
at `Params.moe`. -/

namespace Sys2Proof

/-- `SPI`: audio samples per island, fixed (00_scope R8). -/
def spi : Nat := 4

/-- `THRESH` = `SPI << 16`, fixed (00_scope R8). -/
def thresh : Word := 0x00040000#32

/-- `ISL_WORDS`, fixed (00_scope R8). -/
def islWords : Nat := 36

/-- The stand-in encoder `ENC_REF` of 42_av_multiplexer R193, for tests only and to show that `Encoder` is inhabited. -/
def encRef (w0 w1 w2 w3 : Word) (es : Nat) : Island :=
  Vector.ofFn fun i =>
    match i.val with
    | 0 => BitVec.ofNat 32 es
    | 1 => w0
    | 2 => w1
    | 3 => w2
    | 4 => w3
    | _ => 0#32

theorem encRef_word0 (w0 w1 w2 w3 : Word) (es : Nat) : (encRef w0 w1 w2 w3 es)[0] = BitVec.ofNat 32 es := by
  simp [encRef]

theorem encRef_samples (w0 w1 w2 w3 : Word) (es : Nat) :
    ((encRef w0 w1 w2 w3 es)[1], (encRef w0 w1 w2 w3 es)[2], (encRef w0 w1 w2 w3 es)[3],
      (encRef w0 w1 w2 w3 es)[4]) = (w0, w1, w2, w3) := by
  simp [encRef]

/-- The island encoder `ENC` with the reader-side functions 42_av_multiplexer R193 names, and exactly its properties, for
an encoder state below `ES_PERIOD` that its 8 bits hold (10_state R36): (E1) a function of its five arguments; (E2)
`flag`; (E3) `dec`; (E4) `counter`, the running frame counter modulo `FC_MOD` (that it can be read back from the island
is DEDUCED, log entry 9). The field defaults are `ENC_REF`; they only show that such an encoder exists. -/
structure Encoder (esPeriod fcMod : Nat) where
  enc : Word → Word → Word → Word → Nat → Island := encRef
  flag : Island → Bool := fun isl => isl[0].toNat % 2 == 1
  dec : Island → Word × Word × Word × Word := fun isl => (isl[1], isl[2], isl[3], isl[4])
  counter : Island → Nat := fun isl => (spi * isl[0].toNat) % fcMod
  flag_enc : ∀ w0 w1 w2 w3 es, es < esPeriod → es < 256 → flag (enc w0 w1 w2 w3 es) = (es % 2 == 1) := by
    intro w0 w1 w2 w3 es _ h
    have h' : es < 4294967296 := by omega
    simp [encRef_word0, Nat.mod_eq_of_lt h']
  dec_enc : ∀ w0 w1 w2 w3 es, es < esPeriod → es < 256 → dec (enc w0 w1 w2 w3 es) = (w0, w1, w2, w3) := by
    intro w0 w1 w2 w3 es _ _
    exact encRef_samples w0 w1 w2 w3 es
  counter_enc : ∀ w0 w1 w2 w3 es, es < esPeriod → es < 256 →
      counter (enc w0 w1 w2 w3 es) = (spi * es) % fcMod := by
    intro w0 w1 w2 w3 es _ h
    have h' : es < 4294967296 := by omega
    simp [encRef_word0, Nat.mod_eq_of_lt h']
deriving Inhabited

/-- The encoder of the block, with the periods this hardware takes: uninterpreted but for its properties
(42_av_multiplexer R193; 93 U8). FREE: no body. -/
opaque Config.encoder : Encoder 48 192

/-- `FONT(ch, gy)`: an uninterpreted total function; its low `GW` bits are the glyph row (00_scope R8; 93 U8). FREE. -/
opaque Config.font : Nat → Nat → Word

/-- `draw`: the n-th freshly chosen value, under no law (00_scope R11, 20_memory R84; 93 U10). FREE: no body. -/
opaque Config.draw : Nat → Word

/-- The implementation parameters, a field for each that 00_scope R8 does not mark fixed. A colour channel is (high bit,
low bit). -/
structure Params where
  /-- `NQ`, the ring-buffer instances that exist: q exists when q is below `NQ`. -/
  nq : Nat
  /-- `RB_N[q]`, slots of instance q; `RB_N[0]` is `DI_N`. Only q below `NQ` counts. -/
  rbN : Nat → Nat
  /-- `RB_W[q]`, element width of instance q in bits. Only q below `NQ` counts. -/
  rbW : Nat → Nat
  /-- `ISL_WORD_W`, width of an island word in bits. -/
  islWordW : Nat
  /-- `DI_HWM`, reset value of the high watermark. -/
  diHwm : Nat
  /-- `ES_PERIOD`, period of the island encoder state. -/
  esPeriod : Nat
  /-- `FC_MOD`, period of the audio frame counter inside the encoder. -/
  fcMod : Nat
  /-- `SIL_K`, entries of the silence table. -/
  silK : Nat
  /-- `ENC`, with `FLAG` and `DEC`. -/
  encoder : Encoder esPeriod fcMod
  /-- The words of an island `ENC` gives are `ISL_WORD_W` bits wide (42_av_multiplexer R191). -/
  encoder_width : ∀ w0 w1 w2 w3 es (k : Fin 36), (encoder.enc w0 w1 w2 w3 es)[k].toNat < 2 ^ islWordW := by
    exact fun _ _ _ _ _ _ => BitVec.isLt _
  /-- `W_OUT`, output pixels per line. -/
  wOut : Nat
  /-- `V_ACTIVE`, active lines per frame. -/
  vActive : Nat
  /-- `V_BLANK`, blanking lines per frame. -/
  vBlank : Nat
  /-- `W_SRC`. -/
  wSrc : Nat
  /-- `H_SRC`. -/
  hSrc : Nat
  /-- `PIXW`, pixel width in bits. -/
  pixw : Nat
  /-- `CH`, the colour channels as (high bit, low bit). -/
  ch : List (Nat × Nat)
  /-- `GW`, glyph width. -/
  gw : Nat
  /-- `GH`, glyph height. -/
  gh : Nat
  /-- `COLS`, text grid width in cells. -/
  cols : Nat
  /-- `ROWS`, text grid height in cells. -/
  rows : Nat
  /-- `FONT`. -/
  font : Nat → Nat → Word
  /-- `LS_SLOTS`, line-stream slots. -/
  lsSlots : Nat
  /-- `FB_BANKS`, framebuffer banks. -/
  fbBanks : Nat
  /-- `MARGIN_PIX`. -/
  marginPix : Word
  /-- `CLEAR_PIX`. -/
  clearPix : Word
  /-- `draw`, a parameter of the step relation (10_state R34). -/
  draw : Nat → Word

namespace Params

/-- How many channels of `CH` hold bit `i`. -/
def channelsAt (P : Params) (i : Nat) : Nat := (P.ch.filter fun c => decide (c.2 ≤ i) && decide (i ≤ c.1)).length

/-- `CH` is disjoint and covers the pixel: every channel lies inside it, and every bit of it in exactly one channel. -/
def channelsOk (P : Params) : Bool :=
  P.ch.all (fun c => decide (c.2 ≤ c.1) && decide (c.1 < P.pixw)) &&
  (List.range P.pixw).all fun i => decide (P.channelsAt i = 1)

/-- The constraints of one ring-buffer instance: its slots, and the width of its elements, one island in instance 0. -/
def ringOk (P : Params) (q : Nat) : Bool :=
  (P.rbN q).isPowerOfTwo && decide (2 ≤ P.rbN q) &&
  match q with
  | 0 => decide (P.rbW 0 = islWords * P.islWordW)
  | 1 => decide (P.rbW 1 ≤ 32)
  | 2 => decide (P.rbW 2 ≤ 32)
  | _ => true

/-- The constraint column of 00_scope R8, row by row. `FC_MOD` / `SPI` is a number of islands, so the division leaves
nothing. -/
def ok (P : Params) : Bool :=
  decide (1 ≤ P.nq) &&
  (List.range P.nq).all P.ringOk &&
  decide (1 ≤ P.diHwm) && decide (P.diHwm ≤ P.rbN 0 - 1) &&
  decide (P.esPeriod % 2 = 0) && decide (2 ≤ P.esPeriod) && decide (P.fcMod % spi = 0) &&
  decide (P.esPeriod = Nat.lcm 2 (P.fcMod / spi)) &&
  decide (P.silK = P.esPeriod) &&
  decide (1 ≤ P.wOut) && decide (1 ≤ P.vActive) && decide (1 ≤ P.vBlank) &&
  decide (1 ≤ P.wSrc) && decide (P.wSrc ≤ P.wOut) && decide (1 ≤ P.hSrc) && decide (P.hSrc ≤ P.vActive) &&
  decide (P.pixw ≤ 32) && P.channelsOk &&
  (decide (P.lsSlots = 1) || decide (P.lsSlots = 2)) && decide (1 ≤ P.fbBanks)

/-- What the widths that other rules fix leave room for: `ln` 16 bits (10_state R26), `enc_es` and `sil_idx` 8 bits (R36,
R37), words 32 bits, a glyph of at least one pixel, two pixels in the 32 bits of a cell's colours (20_memory R80; log
entries 10 and 16). -/
def fits (P : Params) : Bool :=
  (List.range P.nq).all (fun q => decide (P.rbN q ≤ 2 ^ 32)) &&
  decide (P.diHwm < 2 ^ 32) && decide (P.islWordW ≤ 32) && decide (P.esPeriod ≤ 256) &&
  decide (P.vActive ≤ 65536) && decide (P.vBlank ≤ 65536) && decide (1 ≤ P.gw) && decide (P.gw ≤ 32) &&
  decide (1 ≤ P.gh) && decide (P.pixw ≤ 16)

/-- The values this hardware takes (column "value" of 00_scope R8). -/
def moe : Params where
  nq := 3
  rbN q := if q = 0 then 256 else 1024
  rbW q := if q = 0 then 1152 else 32
  islWordW := 32
  diHwm := 200
  esPeriod := 48
  fcMod := 192
  silK := 48
  encoder := Config.encoder
  wOut := 640
  vActive := 480
  vBlank := 45
  wSrc := 256
  hSrc := 240
  pixw := 16
  ch := [(15, 11), (10, 5), (4, 0)]
  gw := 8
  gh := 8
  cols := 32
  rows := 30
  font := Config.font
  lsSlots := 2
  fbBanks := 2
  marginPix := 0#32
  clearPix := 0#32
  draw := Config.draw

end Params

end Sys2Proof
end

