-- ==== Sys2Proof/Syntax.lean ====
section
/-! DEFINITION. The commands of the block: one constructor per row of spec/opcode_table.json (30_encoding R110). The
fields of a command word are unsigned numbers used as they stand (R111), so they are `Nat`, bounded by
Sys2Proof/WellFormed.lean; operand words (R107) are 32-bit words. -/

namespace Sys2Proof

/-- A command of the block, named by its mnemonic (30_encoding R110). -/
inductive Instr where
  /-- 0x00 `NOP` (R240). -/
  | nop
  /-- 0x01 `START` (R241). -/
  | start
  /-- 0x02 `STOP` (R242). -/
  | stop
  /-- 0x03 `RDREG reg` (R243). -/
  | rdreg (reg : Nat)
  /-- 0x04 `WRREG reg, W0` (R244). -/
  | wrreg (reg : Nat) (w0 : Word)
  /-- 0x10 `PUSH q, W0` (R134). -/
  | push (q : Nat) (w0 : Word)
  /-- 0x11 `POP q` (R135). -/
  | pop (q : Nat)
  /-- 0x12 `FREE q` (R136). -/
  | free (q : Nat)
  /-- 0x13 `USED q` (R137). -/
  | used (q : Nat)
  /-- 0x20 `REND` (R170), issued by SEQ. -/
  | rend
  /-- 0x21 `PUBL idx` (R172). -/
  | publ (idx : Nat)
  /-- 0x22 `PUBF idx` (R173). -/
  | pubf (idx : Nat)
  /-- 0x23 `PUBT` (R174). -/
  | pubt
  /-- 0x24 `VSTAT` (R175). -/
  | vstat
  /-- 0x30 `TICK` (R195), issued by SEQ. -/
  | tick
  /-- 0x31 `PKT` (R196), issued by SEQ. -/
  | pkt
  /-- 0x32 `AENQ W0, W1, W2, W3` (R198). -/
  | aenq (w0 w1 w2 w3 : Word)
  /-- 0x40 `REQX` (R221). -/
  | reqx
  /-- 0x41 `RELX` (R222). -/
  | relx
  /-- 0x42 `XSTAT` (R223). -/
  | xstat
  /-- 0x43 `XCHK` (R226), issued by SEQ. -/
  | xchk
  /-- 0x50 `MRD space, addr` (R246). -/
  | mrd (space addr : Nat)
  /-- 0x51 `MWR space, addr, W0` (R247). -/
  | mwr (space addr : Nat) (w0 : Word)
deriving DecidableEq, Repr

end Sys2Proof
end

