-- ==== Sys2Proof/Machine/State.lean ====
section
/-! DEFINITION. The state of the block as plain data: every register, flag, queue and memory of spec 10_state and
20_memory, the words and responses on the ports (30_encoding R100, R108), SEQ's position inside a line service
(44_system_and_memory_ops R251), and the model's own inputs and free-value counter. -/

namespace Sys2Proof.Machine

/-- The three ports (00_scope R7): P the producer core, C1 and C2 the consumers of instances 1 and 2. -/
inductive Port where
  | p | c1 | c2
deriving DecidableEq, Repr

/-- Who may issue a command (30_encoding R110): a port, or the internal sequencer SEQ. -/
inductive Agent where
  | p | c1 | c2 | seq
deriving DecidableEq, Repr

/-- A port as the issuer of a command. -/
def Port.agent : Port → Agent
  | .p => .p
  | .c1 => .c1
  | .c2 => .c2

/-- The states of SEQ (10_state R23). -/
inductive Seq where
  | stopped | run | quiesce | parked
deriving DecidableEq, Repr

/-- The published source (10_state R43): text grid, framebuffer bank, line-stream slots. -/
inductive Source where
  | text | frame | line
deriving DecidableEq, Repr

/-- The status codes of a response (30_encoding R109). -/
inductive Status where
  | ok | full | empty | hwm | busy | proto | notDue | illegal | port | range | ro
deriving DecidableEq, Repr

/-- The end of a command (30_encoding R108): its status and its value words. -/
structure Response where
  status : Status
  values : List Word
deriving DecidableEq, Repr

/-- The seven memory spaces (10_state R48, 20_memory R75). -/
inductive Space where
  | txt | fb | ls | ovl | lb | sil | font
deriving DecidableEq, Repr

/-- An element-addressed memory (20_memory R70): the elements written since reset, by strictly rising address. An
unlisted element has no value; a read of one is a `draw` (20_memory R84). -/
abbrev Mem (α : Type) := List (Nat × α)

/-- A ring-buffer instance (10_state R21, R22): its two indices and the slots written since reset. -/
structure Ring (α : Type) where
  head : Nat
  tail : Nat
  buf : Mem α
deriving DecidableEq, Repr

/-- The deferred configuration (10_state R49, R50, R43): the registers marked RWD, the source and its bank. -/
structure Conf where
  /-- `MODE` (R55). -/
  mode : Word
  /-- `MARGIN_H` (R57). -/
  marginH : Word
  /-- `MARGIN_V` (R58). -/
  marginV : Word
  /-- `SPL` (R59). -/
  spl : Word
  /-- `SELROW` (R62). -/
  selrow : Word
  /-- `OVL_CTRL` (R63). -/
  ovlCtrl : Word
  /-- `OVL_POS` (R64). -/
  ovlPos : Word
  /-- `OVL_SIZE` (R65). -/
  ovlSize : Word
  /-- `src_pend` or `src_sel` (R43). -/
  src : Source
  /-- `bank_pend` or `fb_bank` (R43). -/
  bank : Nat
deriving DecidableEq, Repr

/-- A line-stream tag with its seen bit (10_state R41). -/
structure LsTag where
  tag : Half
  seen : Bool
deriving DecidableEq, Repr

/-- The stages of `REND` that write pixels, in their order, and its publication (41_scanline_renderer R152). -/
inductive RendStage where
  /-- Stage 2, the line clear. -/
  | clear
  /-- Stage 3, the margins. -/
  | margin
  /-- Stage 4, the overlay's row. -/
  | overlay
  /-- Stage 5, the source pixels. -/
  | source
  /-- Stage 7, the publication. -/
  | publish
deriving DecidableEq, Repr

/-- Where a `REND` taken access by access stands (44_system_and_memory_ops R251, 20_memory R89). -/
structure RendPos where
  stage : RendStage
  /-- The output pixel the stage has come to. -/
  x : Nat
  /-- The elements read for that pixel, not yet put. -/
  held : List Word
  /-- MODEL'S OWN: the first of the free values set aside for this `REND`. -/
  base : Nat
deriving DecidableEq, Repr

/-- SEQ's next micro-step inside a line service (44_system_and_memory_ops R251, R252). -/
inductive Svc where
  /-- No line service in progress. -/
  | idle
  /-- `S: TICK` is next. -/
  | tick
  /-- `S: PKT` is next. -/
  | pkt
  /-- The advance after a blanking line is next (R255). -/
  | blank
  /-- `S: REND` is next. -/
  | rend
  /-- A `REND` taken access by access is in progress. -/
  | rendering (pos : RendPos)
  /-- The advance after an active line that is not the last is next (R256). -/
  | advance
  /-- `frame_boundary`: `vsync <- 1 ; ln <- 0` is next (R252). -/
  | enter
  /-- `frame_boundary`: the count of `framecnt` is next. -/
  | count
  /-- `frame_boundary`: `latch()` is next. -/
  | latch
  /-- `frame_boundary`: the overlay check is next. -/
  | check
  /-- `frame_boundary`: `S: XCHK` is next. -/
  | xchk
  /-- `busy <- 0` is next. -/
  | finish
deriving DecidableEq, Repr

/-- A write that port P completed to a pixel or cell memory during the line service in progress, with the element's
value before it (20_memory R89). -/
structure RacedWrite where
  space : Space
  addr : Nat
  old : Option Word
deriving DecidableEq, Repr

/-- What may happen next at the block's boundary or inside SEQ (00_scope R7, 10_state R34). -/
inductive Event where
  /-- A port hands over one word (30_encoding R100). -/
  | word (port : Port) (w : Word)
  /-- TX raises `LINE_REQ` (44_system_and_memory_ops R254). -/
  | lineReq
  /-- TX drives `tx_idle` (10_state R30). -/
  | txIdle (level : Bool)
  /-- The host action `RESET` (70_reset_and_hazards R300). -/
  | reset
  /-- SEQ takes its next enabled step, a `REND` that is next as one step (44_system_and_memory_ops R257;
  41_scanline_renderer R170). -/
  | seq
  /-- SEQ takes its next enabled step, a `REND` that is next access by access (44_system_and_memory_ops R251). -/
  | seqByAccess
deriving DecidableEq, Repr

/-- The state of the block. -/
structure State where
  /-- Instance 0, the island queue (40_ring_buffer R139). -/
  q0 : Ring Island
  /-- Instance 1, read by C1. -/
  q1 : Ring Word
  /-- Instance 2, read by C2. -/
  q2 : Ring Word
  /-- Rate accumulator, unsigned 16.16 (10_state R33). -/
  acc : Word
  /-- Encoder state (10_state R36). -/
  encEs : Octet
  /-- Silence index (10_state R37). -/
  silIdx : Octet
  /-- High watermark of the island queue (10_state R61). -/
  hwm : Word
  /-- Island output register (10_state R39). -/
  diOut : Island
  /-- `di_valid` (10_state R39). -/
  diValid : Bool
  /-- Frame counter (10_state R28). -/
  framecnt : Word
  /-- `seq`, the counterpart of a program counter with `vsync` and `ln` (10_state R23). -/
  seq : Seq
  /-- Vertical-sync flag (10_state R25). -/
  vsync : Bool
  /-- Line register (10_state R26). -/
  ln : Half
  /-- Service flag (10_state R27). -/
  busy : Bool
  /-- Run request (10_state R29). -/
  runReq : Bool
  /-- Output to TX: transfers allowed (10_state R30). -/
  txRun : Bool
  /-- Input from TX: nothing in flight (10_state R30). -/
  txIdle : Bool
  /-- Exclusive request (10_state R31). -/
  xreq : Bool
  /-- Exclusive grant (10_state R31). -/
  xgnt : Bool
  /-- Fault register (10_state R32). -/
  fault : Word
  /-- Overlay-valid flag (10_state R44). -/
  ovlOk : Bool
  /-- Line-stream tag 0 (10_state R41). -/
  ls0 : LsTag
  /-- Line-stream tag 1 (10_state R41). -/
  ls1 : LsTag
  /-- Line slot the next `REND` fills (10_state R47). -/
  lbWr : Bool
  /-- Line slot last published (10_state R47). -/
  lbPub : Bool
  /-- Lines published, modulo 2^16 (10_state R47). -/
  lbSeq : Half
  /-- Pending copies of the deferred configuration (10_state R49). -/
  pend : Conf
  /-- Active copies of the deferred configuration (10_state R49). -/
  act : Conf
  /-- Space `TXT` (20_memory R80). -/
  txt : Mem Word
  /-- Space `FB` (20_memory R81). -/
  fb : Mem Word
  /-- Space `LS` (20_memory R82). -/
  ls : Mem Word
  /-- Space `OVL` (20_memory R82). -/
  ovl : Mem Word
  /-- Space `LB` (20_memory R83). -/
  lb : Mem Word
  /-- Words port P has handed over of a command not yet complete (30_encoding R100). -/
  rxP : List Word
  /-- The same on port C1. -/
  rxC1 : List Word
  /-- The same on port C2. -/
  rxC2 : List Word
  /-- Last response on port P since reset (30_encoding R108). -/
  respP : Option Response
  /-- Last response on port C1. -/
  respC1 : Option Response
  /-- Last response on port C2. -/
  respC2 : Option Response
  /-- Last response to SEQ. -/
  respS : Option Response
  /-- MODEL'S OWN: the agent whose command runs (30_encoding R110 "ports"). -/
  issuer : Agent
  /-- SEQ's position inside the line service (44_system_and_memory_ops R251). -/
  svc : Svc
  /-- MODEL'S OWN: writes concurrent with the line service in progress (20_memory R89). -/
  raced : List RacedWrite
  /-- MODEL'S OWN: how many free values have been drawn (00_scope R11 `draw`). -/
  draws : Nat
  /-- MODEL'S OWN: the events still to come, in the order they happen (10_state R34). -/
  inputs : List Event
deriving DecidableEq, Repr

/-- Nothing stops the block: "Nothing in this subsystem is fatal" (60_exceptions R299), so there is no fault. The
fault bit `OVERRUN` (60_exceptions R283) is state, `State.fault`. -/
inductive Fault where
deriving DecidableEq, Repr

/-- Reasons a step is refused. -/
inductive Refusal where
  /-- Raised by `exec` for a command that has no meaning yet: safe, the machine stops. No arm raises it. -/
  | notModelled (mnemonic : String)
deriving DecidableEq, Repr

/-- The deferred configuration after reset (10_state R35): 1:1, no darkening, no overlay, text source. -/
def Conf.reset : Conf where
  mode := 0#32
  marginH := 0#32
  marginV := 0#32
  spl := 0#32
  selrow := 0#32
  ovlCtrl := 0#32
  ovlPos := 0#32
  ovlSize := 0#32
  src := .text
  bank := 0

/-- An empty ring-buffer instance (10_state R21). -/
def Ring.reset {α : Type} : Ring α where
  head := 0
  tail := 0
  buf := []

/-- The block right after reset at the parameters given (10_state R35, 70_reset_and_hazards R301), with `tx_idle` driven 1.
The words of `di_out` are unspecified by the spec: zero is a DESIGN CHOICE (log entry 5). -/
def State.resetAt (P : Params) : State where
  q0 := .reset
  q1 := .reset
  q2 := .reset
  acc := 0#32
  encEs := 0#8
  silIdx := 0#8
  hwm := BitVec.ofNat 32 P.diHwm
  diOut := Vector.replicate 36 0#32
  diValid := false
  framecnt := 0#32
  seq := .stopped
  vsync := false
  ln := 0#16
  busy := false
  runReq := false
  txRun := false
  txIdle := true
  xreq := false
  xgnt := false
  fault := 0#32
  ovlOk := false
  ls0 := ⟨0#16, false⟩
  ls1 := ⟨0#16, false⟩
  lbWr := false
  lbPub := false
  lbSeq := 0#16
  pend := .reset
  act := .reset
  txt := []
  fb := []
  ls := []
  ovl := []
  lb := []
  rxP := []
  rxC1 := []
  rxC2 := []
  respP := none
  respC1 := none
  respC2 := none
  respS := none
  issuer := .seq
  svc := .idle
  raced := []
  draws := 0
  inputs := []

/-- The reset state of this hardware. -/
def State.reset : State := .resetAt .moe

end Sys2Proof.Machine
end

