-- ==== Sys2Proof/Machine/Ops.lean ====
section
/-! DEFINITION. The named operations over memories, ring buffers and responses, the free values, and the block's
counterparts of taking an exception and returning from one: the refusal of a command, the sticky fault, entry to a
line service and its end, and reset (60_exceptions R270, R280, R288, R289; 70_reset_and_hazards R300). -/

namespace Sys2Proof.Machine

/-- The field `w[hi:lo]` as an unsigned number (00_scope R10). -/
def field (hi lo : Nat) (w : Word) : Nat := w.toNat / 2 ^ lo % 2 ^ (hi - lo + 1)

/-- `trunc_N` of a word, kept in 32 bits (00_scope R10). -/
def trunc (n : Nat) (w : Word) : Word := BitVec.ofNat 32 (w.toNat % 2 ^ n)

/-- One flag at its place in a register (00_scope R10). -/
def flagBit (b : Bool) (i : Nat) : Word := if b then BitVec.ofNat 32 (2 ^ i) else 0#32

/-! ### Memories (20_memory R84) -/

/-- The value of an element, `none` where nothing has written it since reset (20_memory R84). -/
def memRead {α : Type} : Mem α → Nat → Option α
  | [], _ => none
  | (b, w) :: rest, a => if b = a then some w else memRead rest a

/-- Writes one element, keeping the addresses strictly rising (20_memory R84). -/
def memWrite {α : Type} : Mem α → Nat → α → Mem α
  | [], a, v => [(a, v)]
  | (b, w) :: rest, a, v =>
    if a < b then (a, v) :: (b, w) :: rest
    else if a = b then (a, v) :: rest
    else (b, w) :: memWrite rest a v

/-- Writes elements `base` to `base + n - 1`, leaving those for which `f` gives nothing (20_memory R84 with n > 1). -/
def memWriteRow (m : Mem Word) (base : Nat) (f : Nat → Option Word) : Nat → Mem Word
  | 0 => m
  | n + 1 =>
    match f n with
    | some v => memWrite (memWriteRow m base f n) (base + n) v
    | none => memWriteRow m base f n

/-- The canonical form of a memory: addresses strictly rising. (No entry can equal what an unlisted address reads as,
since an unlisted address has no value.) -/
def Memory.wf {α : Type} (m : Mem α) : Bool := decide (m.Pairwise fun x y => x.1 < y.1)

/-! ### Ring buffers (40_ring_buffer R130 to R132) -/

/-- `occupied = (head - tail) mod N` (40_ring_buffer R130); `head`, `tail` are below N. -/
def occupied {α : Type} (n : Nat) (r : Ring α) : Nat := (r.head + (n - r.tail)) % n

/-- `rb_push` (40_ring_buffer R131) as one step (R133): `none` when full, nothing written. -/
def rbPush {α : Type} (n : Nat) (r : Ring α) (item : α) : Option (Ring α) :=
  if (r.head + 1) % n = r.tail then none
  else some { head := (r.head + 1) % n, tail := r.tail, buf := memWrite r.buf r.head item }

/-- `rb_pop` (40_ring_buffer R132) as one step (R133): `none` when empty; else the slot's element (no value where the
slot was never written, which R22 says no rule meets) and the buffer after the index publish. -/
def rbPop {α : Type} (n : Nat) (r : Ring α) : Option (Option α × Ring α) :=
  if r.head = r.tail then none
  else some (memRead r.buf r.tail, { head := r.head, tail := (r.tail + 1) % n, buf := r.buf })

/-! ### Free values (00_scope R11 `draw`) -/

/-- The free value at a place of the sequence of draws, of the element's width. -/
def drawAt (P : Params) (width i : Nat) : Word := trunc width (P.draw i)

/-- An island every word of which is a fresh free value (93_implementation_defined U10). -/
def drawIsland (P : Params) (i : Nat) : Island := Vector.ofFn fun k => drawAt P P.islWordW (i + k.val)

/-! ### Responses (30_encoding R108, R109) -/

/-- The code of a status (30_encoding R109). -/
def statusCode : Status → Octet
  | .ok => 0x00#8
  | .full => 0x01#8
  | .empty => 0x02#8
  | .hwm => 0x03#8
  | .busy => 0x04#8
  | .proto => 0x05#8
  | .notDue => 0x06#8
  | .illegal => 0x10#8
  | .port => 0x11#8
  | .range => 0x12#8
  | .ro => 0x13#8

/-- The words of a response: the status word, its bits[31:8] 0, then the value words (30_encoding R108). -/
def responseWords (r : Response) : List Word := (statusCode r.status).setWidth 32 :: r.values

/-- The last response given to an agent. -/
def respOf (s : State) : Agent → Option Response
  | .p => s.respP
  | .c1 => s.respC1
  | .c2 => s.respC2
  | .seq => s.respS

/-- `respond(st, v...)`: ends the command with a response to the agent that issued it (00_scope R11). -/
def respond (st : Status) (vs : List Word) (s : State) : State :=
  match s.issuer with
  | .p => { s with respP := some ⟨st, vs⟩ }
  | .c1 => { s with respC1 := some ⟨st, vs⟩ }
  | .c2 => { s with respC2 := some ⟨st, vs⟩ }
  | .seq => { s with respS := some ⟨st, vs⟩ }

/-- A refusal (status 0x10 and above): a response with no value word, and nothing else (30_encoding R109;
60_exceptions R270, R272). -/
def refuse (st : Status) (s : State) : State := respond st [] s

/-- Runs a command only for an agent in its ports column; any other is refused with `PORT` (30_encoding R110, R112
step 3; 60_exceptions R281). -/
def onPorts (allowed : List Agent) (run : State → State) (s : State) : State :=
  if s.issuer ∈ allowed then run s else refuse .port s

/-! ### The sticky fault, the line service's entry and end, reset -/

/-- `raise OVERRUN`: sets bit 0 of `fault` and does nothing else (60_exceptions R280, R283). -/
def raiseOverrun (s : State) : State := { s with fault := s.fault ||| 1#32 }

/-- Entry to a line service, the counterpart of trap entry: `busy <- 1`, the fixed sequence begins, nothing is saved
(60_exceptions R288). -/
def enterService (s : State) : State := { s with busy := true, svc := .tick }

/-- The end of a line service: `busy <- 0`, nothing is restored (60_exceptions R289). No write is concurrent with a
line service any more. -/
def leaveService (s : State) : State := { s with busy := false, svc := .idle, raced := [] }

/-- `RESET`: every piece of state at its reset value (70_reset_and_hazards R300, R301). `tx_idle` is an input and has
no reset value of its own (10_state R30); the events to come and the count of draws are the environment's. -/
def applyReset (P : Params) (s : State) : State :=
  { State.resetAt P with txIdle := s.txIdle, draws := s.draws, inputs := s.inputs }

end Sys2Proof.Machine
end

