-- ==== Sys2Proof/Machine/Operands.lean ====
section
/-! DEFINITION. What the fields of a command word name (30_encoding R111, R112 steps 4 to 5): the register map
(10_state R50), the memory spaces with their sizes and widths (20_memory R75), the queues and who may look at them
(40_ring_buffer R134 to R137). -/

namespace Sys2Proof.Machine

/-- The registers of the map (10_state R50); `head q` and `tail q` are `HEAD`q and `TAIL`q. -/
inductive Reg where
  | status | fault | line | framecnt | mode | src | marginH | marginV | spl | acc | hwm | selrow | ovlCtrl | ovlPos
  | ovlSize | encstate | silidx | lbstat | lstag0 | lstag1 | head (q : Nat) | tail (q : Nat)
deriving DecidableEq, Repr

/-- The access kinds of 10_state R50. -/
inductive Access where
  | ro | rw | rwd
deriving DecidableEq, Repr

/-- The register a number names; `none` for a reserved number, `HEAD`q and `TAIL`q standing for q below `NQ` only
(10_state R50, R69). -/
def regOf (P : Params) (n : Nat) : Option Reg :=
  match n with
  | 0x00 => some .status
  | 0x01 => some .fault
  | 0x02 => some .line
  | 0x03 => some .framecnt
  | 0x04 => some .mode
  | 0x05 => some .src
  | 0x06 => some .marginH
  | 0x07 => some .marginV
  | 0x08 => some .spl
  | 0x09 => some .acc
  | 0x0A => some .hwm
  | 0x0B => some .selrow
  | 0x0C => some .ovlCtrl
  | 0x0D => some .ovlPos
  | 0x0E => some .ovlSize
  | 0x0F => some .encstate
  | 0x10 => some .silidx
  | 0x11 => some .lbstat
  | 0x12 => some .lstag0
  | 0x13 => some .lstag1
  | n =>
    if n < 0x20 ∨ 0x20 + 2 * P.nq ≤ n then none
    else if n % 2 = 0 then some (.head ((n - 0x20) / 2)) else some (.tail ((n - 0x20) / 2))

/-- The access column of 10_state R50. -/
def accessOf : Reg → Access
  | .mode => .rwd
  | .marginH => .rwd
  | .marginV => .rwd
  | .spl => .rwd
  | .hwm => .rw
  | .selrow => .rwd
  | .ovlCtrl => .rwd
  | .ovlPos => .rwd
  | .ovlSize => .rwd
  | .status => .ro
  | .fault => .ro
  | .line => .ro
  | .framecnt => .ro
  | .src => .ro
  | .acc => .ro
  | .encstate => .ro
  | .silidx => .ro
  | .lbstat => .ro
  | .lstag0 => .ro
  | .lstag1 => .ro
  | .head _ => .ro
  | .tail _ => .ro

/-- The bits a writable register defines; the others read 0 and ignore writes (10_state R50, R55, R62, R63). -/
def definedBits : Reg → Word
  | .mode => 0x00000003#32
  | .selrow => 0x8000FFFF#32
  | .ovlCtrl => 0x00000003#32
  | .marginH => 0xFFFFFFFF#32
  | .marginV => 0xFFFFFFFF#32
  | .spl => 0xFFFFFFFF#32
  | .hwm => 0xFFFFFFFF#32
  | .ovlPos => 0xFFFFFFFF#32
  | .ovlSize => 0xFFFFFFFF#32
  | .status => 0#32
  | .fault => 0#32
  | .line => 0#32
  | .framecnt => 0#32
  | .src => 0#32
  | .acc => 0#32
  | .encstate => 0#32
  | .silidx => 0#32
  | .lbstat => 0#32
  | .lstag0 => 0#32
  | .lstag1 => 0#32
  | .head _ => 0#32
  | .tail _ => 0#32

/-- The memory space a number names; 7 to 15 are reserved (20_memory R75). -/
def spaceOf (n : Nat) : Option Space :=
  match n with
  | 0 => some .txt
  | 1 => some .fb
  | 2 => some .ls
  | 3 => some .ovl
  | 4 => some .lb
  | 5 => some .sil
  | 6 => some .font
  | _ => none

/-- The size of a space in elements (20_memory R75). -/
def spaceSize (P : Params) : Space → Nat
  | .txt => 2 * P.cols * P.rows
  | .fb => P.fbBanks * P.wSrc * P.hSrc
  | .ls => P.lsSlots * P.wSrc
  | .ovl => P.wSrc * P.hSrc
  | .lb => 2 * P.wOut
  | .sil => P.silK * islWords
  | .font => 256 * P.gh

/-- The width of a space's element in bits (20_memory R75). -/
def spaceWidth (P : Params) : Space → Nat
  | .txt => 32
  | .fb => P.pixw
  | .ls => P.pixw
  | .ovl => P.pixw
  | .lb => P.pixw
  | .sil => 32
  | .font => P.gw

/-- Column "port P `MWR`" of 20_memory R75: `LB`, `SIL` and `FONT` are read-only. -/
def spaceWritable : Space → Bool
  | .txt => true
  | .fb => true
  | .ls => true
  | .ovl => true
  | .lb => false
  | .sil => false
  | .font => false

/-- The range check of `MRD` and `MWR`: the space exists and the address is below its size (44 R245). -/
def elementOf (P : Params) (space addr : Nat) : Option Space :=
  match spaceOf space with
  | some sp => if addr < spaceSize P sp then some sp else none
  | none => none

/-- The stored elements of a space; `SIL` and `FONT` are fixed contents and store nothing (20_memory R83). -/
def storeOf (s : State) : Space → Mem Word
  | .txt => s.txt
  | .fb => s.fb
  | .ls => s.ls
  | .ovl => s.ovl
  | .lb => s.lb
  | .sil => []
  | .font => []

/-- Puts a space's stored elements back. -/
def withStore (s : State) (sp : Space) (m : Mem Word) : State :=
  match sp with
  | .txt => { s with txt := m }
  | .fb => { s with fb := m }
  | .ls => { s with ls := m }
  | .ovl => { s with ovl := m }
  | .lb => { s with lb := m }
  | .sil => s
  | .font => s

/-- Entry i of the silence table: `SIL[i] = ENC(0, 0, 0, 0, i)` (42_av_multiplexer R194). -/
def silence (P : Params) (i : Nat) : Island := P.encoder.enc 0#32 0#32 0#32 0#32 i

/-- Row `gy` of glyph `ch`, `GW` bits (20_memory R83). -/
def fontRow (P : Params) (ch gy : Nat) : Word := trunc P.gw (P.font ch gy)

/-- `MemRead(space, addr, 1)` where the element has a value: a stored element, a word of the silence table at
`i * ISL_WORDS + w`, or a glyph row at `ch * GH + gy` (20_memory R83, R84). -/
def elementValue (P : Params) (s : State) (sp : Space) (addr : Nat) : Option Word :=
  match sp with
  | .sil => some ((silence P (addr / islWords)).toList.getD (addr % islWords) 0#32)
  | .font => some (fontRow P (addr / P.gh) (addr % P.gh))
  | .txt => memRead s.txt addr
  | .fb => memRead s.fb addr
  | .ls => memRead s.ls addr
  | .ovl => memRead s.ovl addr
  | .lb => memRead s.lb addr

/-- Which queues an agent may look at with `FREE` and `USED`: port P every one, C1 instance 1, C2 instance 2
(40_ring_buffer R136, R137). -/
def mayWatch (a : Agent) (q : Nat) : Bool :=
  match a with
  | .p => true
  | .c1 => decide (q = 1)
  | .c2 => decide (q = 2)
  | .seq => false

/-- Which queue an agent may pop with `POP`: C1 instance 1, C2 instance 2 (40_ring_buffer R135). -/
def ownsPop (a : Agent) (q : Nat) : Bool :=
  match a with
  | .p => false
  | .c1 => decide (q = 1)
  | .c2 => decide (q = 2)
  | .seq => false

/-- `head[q]` (10_state R21). An instance above 2, which only another `NQ` has, has no producer (40_ring_buffer R139), so
its index stays at the reset value 0 (DEDUCED, log entry 17). -/
def ringHead (s : State) (q : Nat) : Nat :=
  match q with
  | 0 => s.q0.head
  | 1 => s.q1.head
  | 2 => s.q2.head
  | _ => 0

/-- `tail[q]` (10_state R21); 0 above 2, where no consumer is (40_ring_buffer R139; DEDUCED, log entry 17). -/
def ringTail (s : State) (q : Nat) : Nat :=
  match q with
  | 0 => s.q0.tail
  | 1 => s.q1.tail
  | 2 => s.q2.tail
  | _ => 0

/-- `occupied` of instance q (40_ring_buffer R130); an instance above 2 stays empty (log entry 17). -/
def ringUsed (P : Params) (s : State) (q : Nat) : Nat :=
  match q with
  | 0 => occupied (P.rbN 0) s.q0
  | 1 => occupied (P.rbN 1) s.q1
  | 2 => occupied (P.rbN 2) s.q2
  | _ => 0

end Sys2Proof.Machine
end

