-- ==== Sys2Proof/Machine/Flags.lean ====
section
/-! DEFINITION. The flags and the read-only views made of them: the fields of the configuration registers (10_state
R55 to R65), the request state (43_cross_core R220), the overlay check (41_scanline_renderer R166), and the value of
every register of the map (10_state R51 to R69). -/

namespace Sys2Proof.Machine

/-- `MODE.ASPECT` (10_state R55). -/
def aspect (c : Conf) : Bool := decide (field 0 0 c.mode = 1)

/-- `MODE.SCAN` (10_state R55). -/
def scan (c : Conf) : Bool := decide (field 1 1 c.mode = 1)

/-- `SELROW.sel_row` (10_state R62). -/
def selRow (c : Conf) : Nat := field 15 0 c.selrow

/-- `SELROW.sel_en` (10_state R62). -/
def selEn (c : Conf) : Bool := decide (field 31 31 c.selrow = 1)

/-- `OVL_CTRL.ovl_active` (10_state R63). -/
def ovlActive (c : Conf) : Bool := decide (field 0 0 c.ovlCtrl = 1)

/-- `OVL_CTRL.ovl_moving` (10_state R63). -/
def ovlMoving (c : Conf) : Bool := decide (field 1 1 c.ovlCtrl = 1)

/-- `OVL_POS.ovl_x` (10_state R64). -/
def ovlX (c : Conf) : Nat := field 15 0 c.ovlPos

/-- `OVL_POS.ovl_y` (10_state R64). -/
def ovlY (c : Conf) : Nat := field 31 16 c.ovlPos

/-- `OVL_SIZE.ovl_w` (10_state R65). -/
def ovlW (c : Conf) : Nat := field 15 0 c.ovlSize

/-- `OVL_SIZE.ovl_h` (10_state R65). -/
def ovlH (c : Conf) : Nat := field 31 16 c.ovlSize

/-- The overlay size check (41_scanline_renderer R166), from the active copies. -/
def overlayCheck (P : Params) (c : Conf) : Bool :=
  ovlActive c && decide (ovlW c ≤ P.wSrc) && decide (ovlH c ≤ P.hSrc)

/-- The number of a state of SEQ (10_state R23). -/
def seqCode : Seq → Nat
  | .stopped => 0
  | .run => 1
  | .quiesce => 2
  | .parked => 3

/-- The number of a source (10_state R43). -/
def sourceCode : Source → Nat
  | .text => 0
  | .frame => 1
  | .line => 2

/-- The request state as `XSTAT` reports it: `Idle`, `Requested`, `Granted`, `Releasing` (43_cross_core R220). -/
def requestCode (xreq xgnt : Bool) : Nat :=
  match xreq, xgnt with
  | false, false => 0
  | true, false => 1
  | true, true => 2
  | false, true => 3

/-- `STATUS` (10_state R51). -/
def statusWord (s : State) : Word :=
  BitVec.ofNat 32 (seqCode s.seq) ||| flagBit s.vsync 2 ||| flagBit s.busy 3 ||| flagBit s.xreq 4 |||
  flagBit s.xgnt 5 ||| flagBit s.runReq 6 ||| flagBit s.txRun 7 ||| flagBit s.txIdle 8 ||| flagBit s.ovlOk 9 |||
  flagBit s.diValid 10

/-- `LINE` (10_state R53). -/
def lineWord (s : State) : Word := s.ln.setWidth 32 ||| flagBit s.vsync 16

/-- `SRC` (10_state R56). One bit holds a bank number while `FB_BANKS` is at most 2. For more banks R43 gives the number
more bits and R56 still one, and the spec does not say what bits 4 and 5 then show: its lowest bit is a DESIGN CHOICE
(log entry 15). -/
def srcWord (s : State) : Word :=
  BitVec.ofNat 32 (sourceCode s.act.src + 4 * sourceCode s.pend.src) ||| flagBit (decide (s.act.bank % 2 = 1)) 4 |||
  flagBit (decide (s.pend.bank % 2 = 1)) 5

/-- `LBSTAT` (10_state R67). -/
def lbstatWord (s : State) : Word :=
  flagBit s.lbWr 0 ||| flagBit s.lbPub 1 ||| BitVec.ofNat 32 (s.lbSeq.toNat * 65536)

/-- `LSTAG0` and `LSTAG1` (10_state R68). -/
def lstagWord (t : LsTag) : Word := t.tag.setWidth 32 ||| flagBit t.seen 31

/-- The value of a register at one instant; a deferred register reads its pending copy (10_state R49 to R69). -/
def regValue (P : Params) (s : State) : Reg → Word
  | .status => statusWord s
  | .fault => s.fault &&& 1#32
  | .line => lineWord s
  | .framecnt => s.framecnt
  | .mode => s.pend.mode
  | .src => srcWord s
  | .marginH => s.pend.marginH
  | .marginV => s.pend.marginV
  | .spl => s.pend.spl
  | .acc => s.acc
  | .hwm => s.hwm
  | .selrow => s.pend.selrow
  | .ovlCtrl => s.pend.ovlCtrl
  | .ovlPos => s.pend.ovlPos
  | .ovlSize => s.pend.ovlSize
  | .encstate => s.encEs.setWidth 32
  | .silidx => s.silIdx.setWidth 32
  | .lbstat => lbstatWord s
  | .lstag0 => lstagWord s.ls0
  | .lstag1 => if P.lsSlots = 1 then 0#32 else lstagWord s.ls1
  | .head q => BitVec.ofNat 32 (ringHead s q)
  | .tail q => BitVec.ofNat 32 (ringTail s q)

/-- Writes the defined bits of a writable register, its pending copy where it is deferred; a read-only register is
left as it is (10_state R49, R50; 44 R244). -/
def regWrite (s : State) (r : Reg) (w : Word) : State :=
  match r with
  | .mode => { s with pend := { s.pend with mode := w &&& definedBits .mode } }
  | .marginH => { s with pend := { s.pend with marginH := w &&& definedBits .marginH } }
  | .marginV => { s with pend := { s.pend with marginV := w &&& definedBits .marginV } }
  | .spl => { s with pend := { s.pend with spl := w &&& definedBits .spl } }
  | .hwm => { s with hwm := w &&& definedBits .hwm }
  | .selrow => { s with pend := { s.pend with selrow := w &&& definedBits .selrow } }
  | .ovlCtrl => { s with pend := { s.pend with ovlCtrl := w &&& definedBits .ovlCtrl } }
  | .ovlPos => { s with pend := { s.pend with ovlPos := w &&& definedBits .ovlPos } }
  | .ovlSize => { s with pend := { s.pend with ovlSize := w &&& definedBits .ovlSize } }
  | .status => s
  | .fault => s
  | .line => s
  | .framecnt => s
  | .src => s
  | .acc => s
  | .encstate => s
  | .silidx => s
  | .lbstat => s
  | .lstag0 => s
  | .lstag1 => s
  | .head _ => s
  | .tail _ => s

end Sys2Proof.Machine
end

