-- ==== Sys2Proof/Machine/Position.lean ====
section
/-! DEFINITION. SEQ's position and the configuration latch: what a session start, the advance after a line and a frame
boundary write (44_system_and_memory_ops R251 to R256, R253). -/

namespace Sys2Proof.Machine

/-- Whether a latch changes `MODE`, `MARGIN_H`, `MARGIN_V` or `src_sel`, the mode change of 20_memory R83. -/
def modeChanges (s : State) : Bool :=
  decide (s.pend.mode ≠ s.act.mode) || decide (s.pend.marginH ≠ s.act.marginH) ||
  decide (s.pend.marginV ≠ s.act.marginV) || decide (s.pend.src ≠ s.act.src)

/-- `latch()`: every pending copy to its active copy in one step (10_state R49, 44 R252). After a latch that changed
the mode both line slots are unspecified until rendered (20_memory R83): no element of `LB` has a value. -/
def latch (s : State) : State :=
  { s with act := s.pend, lb := if modeChanges s then [] else s.lb }

/-- The overlay check from the active copies (41_scanline_renderer R166). -/
def latchOverlay (P : Params) (s : State) : State := { s with ovlOk := overlayCheck P s.act }

/-- `session_start()` (44 R253). Both line slots are unspecified until rendered (20_memory R83). -/
def sessionStart (P : Params) (s : State) : State :=
  { latchOverlay P (latch s) with
    lb := [], vsync := true, ln := 0#16, diValid := false, txRun := true, seq := .run }

/-- The advance after a blanking line (44 R251, R255). -/
def afterBlank (P : Params) (s : State) : State :=
  if s.ln.toNat + 1 = P.vBlank then { s with vsync := false, ln := 0#16 } else { s with ln := s.ln + 1#16 }

/-- The advance after an active line that is not the last (44 R251, R256). -/
def afterActive (s : State) : State := { s with ln := s.ln + 1#16 }

/-- `frame_boundary`: enter blanking (44 R252). -/
def enterBlanking (s : State) : State := { s with vsync := true, ln := 0#16 }

/-- `frame_boundary`: `framecnt <- (framecnt + 1) mod 2^32` (44 R252). -/
def countFrame (s : State) : State := { s with framecnt := s.framecnt + 1#32 }

end Sys2Proof.Machine
end

