-- ==== Sys2Proof/Machine/CrossCore.lean ====
section
/-! DEFINITION. The commands of unit 4: REQX, RELX, XSTAT, XCHK (43_cross_core R221, R222, R223, R226). -/

namespace Sys2Proof.Machine

/-- `REQX` (R221). -/
def runReqx (s : State) : State :=
  onPorts [.p] (fun s =>
    if s.xreq = false ∧ s.xgnt = false then respond .ok [] { s with xreq := true } else respond .busy [] s) s

/-- `RELX` (R222). -/
def runRelx (s : State) : State :=
  onPorts [.p] (fun s =>
    if s.xreq = true ∧ s.xgnt = true then respond .ok [] { s with xreq := false } else respond .proto [] s) s

/-- `XSTAT` (R223). -/
def runXstat (s : State) : State :=
  onPorts [.p] (fun s => respond .ok [BitVec.ofNat 32 (requestCode s.xreq s.xgnt)] s) s

/-- SEQ resumes a session that was running: `tx_run <- 1 ; seq <- RUN` (R226). -/
def resumeRun (s : State) : State := { s with txRun := true, seq := .run }

/-- SEQ ends a session: `vsync <- 0 ; seq <- STOPPED` (R226). -/
def stopSession (s : State) : State := { s with vsync := false, seq := .stopped }

/-- SEQ grants: `xgnt <- 1 ; seq <- PARKED` (R226). -/
def grantExclusive (s : State) : State := { s with xgnt := true, seq := .parked }

/-- One evaluation of the coordinator, without its response (R226). -/
def evaluate (P : Params) (s : State) : State :=
  match s.seq with
  | .run => if s.xreq = true ∨ s.runReq = false then { s with txRun := false, seq := .quiesce } else s
  | .quiesce =>
    if s.txIdle then
      if s.xreq then grantExclusive s
      else if s.runReq = false then stopSession s
      else resumeRun s
    else s
  | .parked =>
    if s.xreq then s
    else
      let t := { s with xgnt := false }
      if t.runReq then
        if t.vsync = false then sessionStart P t else resumeRun t
      else stopSession t
  | .stopped =>
    if s.xreq then
      if s.txIdle then grantExclusive s else s
    else if s.runReq then sessionStart P s
    else s

/-- `XCHK` (R226). -/
def runXchk (P : Params) (s : State) : State := onPorts [.seq] (fun s => respond .ok [] (evaluate P s)) s

/-- `REQX` at this hardware's parameters. -/
def execReqx (s : State) : Host.Outcome State Fault Refusal := .next (runReqx s)

/-- `RELX` at this hardware's parameters. -/
def execRelx (s : State) : Host.Outcome State Fault Refusal := .next (runRelx s)

/-- `XSTAT` at this hardware's parameters. -/
def execXstat (s : State) : Host.Outcome State Fault Refusal := .next (runXstat s)

/-- `XCHK` at this hardware's parameters. -/
def execXchk (s : State) : Host.Outcome State Fault Refusal := .next (runXchk .moe s)

end Sys2Proof.Machine
end

