-- ==== Sys2Proof/Machine/MemoryOps.lean ====
section
/-! DEFINITION. The commands of unit 5: MRD and MWR (44_system_and_memory_ops R245 to R247). -/

namespace Sys2Proof.Machine

/-- `MRD space, addr` (R246). An element never written since reset reads as a free value (20_memory R84). -/
def runMrd (P : Params) (space addr : Nat) (s : State) : State :=
  onPorts [.p] (fun s =>
    match elementOf P space addr with
    | none => refuse .range s
    | some sp =>
      match elementValue P s sp addr with
      | some v => respond .ok [v] s
      | none => respond .ok [drawAt P (spaceWidth P sp) s.draws] { s with draws := s.draws + 1 }) s

/-- Remembers the element's value before a write that is concurrent with a line service (20_memory R89). -/
def noteRace (s : State) (sp : Space) (addr : Nat) : State :=
  if s.busy then { s with raced := ⟨sp, addr, memRead (storeOf s sp) addr⟩ :: s.raced } else s

/-- `MemWrite(space, addr, 1, v)`: the low bits of `v` that fit the element (20_memory R84). -/
def writeElement (P : Params) (sp : Space) (addr : Nat) (v : Word) (s : State) : State :=
  withStore (noteRace s sp addr) sp (memWrite (storeOf s sp) addr (trunc (spaceWidth P sp) v))

/-- `MWR space, addr, W0` (R247). -/
def runMwr (P : Params) (space addr : Nat) (w0 : Word) (s : State) : State :=
  onPorts [.p] (fun s =>
    match elementOf P space addr with
    | none => refuse .range s
    | some sp =>
      if spaceWritable sp then respond .ok [] (writeElement P sp addr w0 s) else refuse .ro s) s

/-- `MRD` at this hardware's parameters. -/
def execMrd (space addr : Nat) (s : State) : Host.Outcome State Fault Refusal := .next (runMrd .moe space addr s)

/-- `MWR` at this hardware's parameters. -/
def execMwr (space addr : Nat) (w0 : Word) (s : State) : Host.Outcome State Fault Refusal :=
  .next (runMwr .moe space addr w0 s)

end Sys2Proof.Machine
end

