-- ==== Sys2Proof/Machine/Mux.lean ====
section
/-! DEFINITION. The commands of unit 3: TICK, PKT, AENQ (42_av_multiplexer R195, R196, R198). -/

namespace Sys2Proof.Machine

/-- A counter that counts to `period` and starts again at 0, by compare and reset (44 R259 e). -/
def countMod (period : Nat) (c : Octet) : Octet := BitVec.ofNat 8 ((c.toNat + 1) % period)

/-- `TICK` (R195): `acc <- (acc + spl) mod 2^32`, with the active `spl`. -/
def runTick (s : State) : State :=
  onPorts [.seq] (fun s => respond .ok [] { s with acc := s.acc + s.act.spl }) s

/-- The island `PKT` puts out when one is due: the queue's next, or the next silence island on underrun, with what
fetching it writes (R196; 60_exceptions R296). A slot never written reads as free values (93 U10). -/
def fetchIsland (P : Params) (s : State) : State :=
  match rbPop (P.rbN 0) s.q0 with
  | some (some isl, r) => { s with q0 := r, diOut := isl }
  | some (none, r) => { s with q0 := r, diOut := drawIsland P s.draws, draws := s.draws + islWords }
  | none => { s with diOut := silence P s.silIdx.toNat, silIdx := countMod P.silK s.silIdx }

/-- `PKT` (R196). -/
def runPkt (P : Params) (s : State) : State :=
  onPorts [.seq] (fun s =>
    if thresh ≤ s.acc then
      let t := fetchIsland P { s with acc := s.acc - thresh, diValid := true }
      respond .ok t.diOut.toList t
    else respond .notDue [] { s with diValid := false }) s

/-- `AENQ W0, W1, W2, W3` (R198): the watermark is tested before full (60_exceptions R286). -/
def runAenq (P : Params) (w0 w1 w2 w3 : Word) (s : State) : State :=
  onPorts [.p] (fun s =>
    if s.hwm.toNat ≤ occupied (P.rbN 0) s.q0 then respond .hwm [] s
    else
      match rbPush (P.rbN 0) s.q0 (P.encoder.enc w0 w1 w2 w3 s.encEs.toNat) with
      | none => respond .full [] s
      | some r => respond .ok [] { s with q0 := r, encEs := countMod P.esPeriod s.encEs }) s

/-- `TICK` at this hardware's parameters. -/
def execTick (s : State) : Host.Outcome State Fault Refusal := .next (runTick s)

/-- `PKT` at this hardware's parameters. -/
def execPkt (s : State) : Host.Outcome State Fault Refusal := .next (runPkt .moe s)

/-- `AENQ` at this hardware's parameters. -/
def execAenq (w0 w1 w2 w3 : Word) (s : State) : Host.Outcome State Fault Refusal := .next (runAenq .moe w0 w1 w2 w3 s)

end Sys2Proof.Machine
end

