-- ==== Sys2Proof/Machine/Renderer.lean ====
section
/-! DEFINITION. The commands of unit 2: REND, PUBL, PUBF, PUBT, VSTAT, with the geometry, the source line, the overlay
and the darkening of the Scanline Renderer (41_scanline_renderer R150 to R175). -/

namespace Sys2Proof.Machine

/-! ### Geometry (R153 to R158) -/

/-- Margins and drawn size of one direction of the output. -/
structure Extent where
  /-- Left or top margin. -/
  lead : Nat
  /-- Right or bottom margin. -/
  trail : Nat
  /-- `wact` or `hact`; 0 when the margins leave nothing. -/
  drawn : Nat
deriving DecidableEq, Repr

/-- The extent with given margins: `drawn` is 0 when they reach the output size (R153, R154, R158). -/
def extentOf (out lead trail : Nat) : Extent where
  lead := lead
  trail := trail
  drawn := if out ≤ lead + trail then 0 else out - (lead + trail)

/-- The extent of a direction in 1:1 mode: duplication `out div src`, the rest split into margins, the smaller half
first (R153, R154). -/
def extentOneToOne (out src : Nat) : Extent :=
  let used := out / src * src
  let lead := (out - used) / 2
  extentOf out lead (out - used - lead)

/-- The horizontal extent of a line (R153). -/
def horizontal (P : Params) (c : Conf) : Extent :=
  if aspect c then extentOf P.wOut (field 15 0 c.marginH) (field 31 16 c.marginH) else extentOneToOne P.wOut P.wSrc

/-- The vertical extent of a frame (R154). -/
def vertical (P : Params) (c : Conf) : Extent :=
  if aspect c then extentOf P.vActive (field 15 0 c.marginV) (field 31 16 c.marginV)
  else extentOneToOne P.vActive P.hSrc

/-- Whether output position `i` is a margin position (R153, R154, R158). -/
def inMargin (e : Extent) (out i : Nat) : Bool :=
  decide (e.drawn = 0) || decide (i < e.lead) || decide (out - e.trail ≤ i)

/-- The map from an output position outside the margins to a source position (R155, R156). -/
def sourceIndex (e : Extent) (src i : Nat) : Nat := (i - e.lead) * src / e.drawn

/-! ### Reading a source element (20_memory R84, R89) -/

/-- The values an element held before the writes concurrent with the line service in progress (20_memory R89). -/
def racedValues (s : State) (sp : Space) (addr : Nat) : List (Option Word) :=
  (s.raced.filter fun w => decide (w.space = sp) && decide (w.addr = addr)).map (·.old)

/-- Which of the candidate values a read meets: the present one where no write is concurrent, else any of them, by the
free value at `i` (20_memory R89). -/
def racedChoice (P : Params) (now : Option Word) (olds : List (Option Word)) (i : Nat) : Option Word :=
  match olds with
  | [] => now
  | _ :: _ => (now :: olds).getD ((P.draw i).toNat % (olds.length + 1)) now

/-- `MemRead(space, addr, 1)` as `REND` does it: the value before or after any concurrent write (20_memory R89), a
free value where the element has none (20_memory R84). It uses the draws `i` and `i + 1`. -/
def rendRead (P : Params) (s : State) (sp : Space) (addr i : Nat) : Word :=
  match racedChoice P (elementValue P s sp addr) (racedValues s sp addr) i with
  | some v => v
  | none => drawAt P (spaceWidth P sp) (i + 1)

/-! ### What is drawn at a pixel (R152, R159 to R164) -/

/-- The glyph pixel of a cell with its colours, exchanged on the selected row (R161, R162). For `PIXW` above 16 the
background field reaches past the 32-bit cell word, and the spec does not say what the missing bits are: 0 is a DESIGN
CHOICE (log entry 16). -/
def glyphPixel (P : Params) (c : Conf) (row gx gy ch : Nat) (w : Word) : Word :=
  let fg := BitVec.ofNat 32 (w.toNat % 2 ^ P.pixw)
  let bg := BitVec.ofNat 32 (w.toNat / 65536 % 2 ^ P.pixw)
  let lit := (fontRow P ch gy).getLsbD (P.gw - 1 - gx)
  if (selEn c && decide (row = selRow c)) != lit then fg else bg

/-- How `REND` comes to the pixel it puts at one place. -/
inductive PixelPlan where
  /-- No pixel is put. -/
  | skip
  /-- A fixed pixel is put. -/
  | fill (p : Word)
  /-- The element read is put. -/
  | copy (space : Space) (addr : Nat)
  /-- The glyph pixel (gx, gy) of a cell of text row `row` is put, from the cell's two words (20_memory R80). -/
  | glyph (cell row gx gy : Nat)
deriving DecidableEq, Repr

/-- The elements a plan reads, in order. -/
def planReads : PixelPlan → List (Space × Nat)
  | .skip => []
  | .fill _ => []
  | .copy sp addr => [(sp, addr)]
  | .glyph cell _ _ _ => [(.txt, 2 * cell), (.txt, 2 * cell + 1)]

/-- The pixel a plan puts, from the elements read. -/
def planPixel (P : Params) (c : Conf) : PixelPlan → List Word → Option Word
  | .fill p, _ => some p
  | .copy _ _, v :: _ => some v
  | .glyph _ row gx gy, ch :: w :: _ => some (glyphPixel P c row gx gy (ch.toNat % 256) w)
  | _, _ => none

/-- Source pixel (xs, ys) of the published source (R159 to R161). -/
def sourcePlan (P : Params) (c : Conf) (ys xs : Nat) : PixelPlan :=
  match c.src with
  | .frame => .copy .fb (c.bank * P.wSrc * P.hSrc + ys * P.wSrc + xs)
  | .line => .copy .ls (ys % P.lsSlots * P.wSrc + xs)
  | .text =>
    if P.cols ≤ xs / P.gw ∨ P.rows ≤ ys / P.gh then .skip
    else .glyph (ys / P.gh * P.cols + xs / P.gw) (ys / P.gh) (xs % P.gw) (ys % P.gh)

/-- Whether the overlay is honoured on this line: text source and `ovl_ok` (R163, R167). -/
def overlayOn (s : State) : Bool := decide (s.act.src = .text) && s.ovlOk

/-- Whether the overlay covers source pixel (xs, ys) (R163). -/
def overlayCovers (c : Conf) (ys xs : Nat) : Bool :=
  decide (ovlX c ≤ xs) && decide (xs < ovlX c + ovlW c) && decide (ovlY c ≤ ys) && decide (ys < ovlY c + ovlH c)

/-- The stage of 3 to 5 that writes output pixel x of output line y, with its plan: margins, else the overlay where it
covers, else the source (R152, R163, R164). -/
def drawnPlan (P : Params) (s : State) (y x : Nat) : RendStage × PixelPlan :=
  let h := horizontal P s.act
  let v := vertical P s.act
  let ys := sourceIndex v P.hSrc y
  let xs := sourceIndex h P.wSrc x
  if inMargin v P.vActive y || inMargin h P.wOut x then (.margin, .fill P.marginPix)
  else if overlayOn s && overlayCovers s.act ys xs then
    (.overlay, .copy .ovl ((ys - ovlY s.act) * ovlW s.act + (xs - ovlX s.act)))
  else (.source, sourcePlan P s.act ys xs)

/-- The draws one read may use. -/
def drawsPerRead : Nat := 2

/-- The elements of a list read one after the other, with the draws from `i` on. -/
def readAll (P : Params) (s : State) : List (Space × Nat) → Nat → List Word
  | [], _ => []
  | (sp, addr) :: rest, i => rendRead P s sp addr i :: readAll P s rest (i + drawsPerRead)

/-- What stages 3 to 5 put at output pixel x of output line y, every element read at once (R152). -/
def drawnPixel (P : Params) (s : State) (y x i : Nat) : Option Word :=
  let plan := (drawnPlan P s y x).2
  planPixel P s.act plan (readAll P s (planReads plan) i)

/-- Whether the line clear applies (R165). -/
def clearsLine (s : State) : Bool := overlayOn s && ovlMoving s.act

/-- What stages 2 to 5 leave to be written at pixel x: the last of the clear (R165), margin, overlay and source that
writes it; `none` where no stage does (R152, R170). -/
def linePixel (P : Params) (s : State) (y x i : Nat) : Option Word :=
  match drawnPixel P s y x i with
  | some p => some p
  | none => if clearsLine s then some P.clearPix else none

/-! ### Darkening (R168, R169) -/

/-- `dark(p)`: each colour channel shifted right by one bit (R168). -/
def dark (P : Params) (p : Word) : Word :=
  P.ch.foldl (fun acc c => acc ||| BitVec.ofNat 32 (field c.1 c.2 p / 2 * 2 ^ c.2)) 0#32

/-- `fx(p)` on output line y (R169). -/
def fx (P : Params) (c : Conf) (y : Nat) (p : Word) : Word :=
  if scan c && decide (y % 2 = 1) then dark P p else p

/-! ### The commands -/

/-- The index of a line slot. -/
def slotIndex (b : Bool) : Nat := if b then 1 else 0

/-- The draws one output pixel may use: two reads. -/
def drawsPerPixel : Nat := 4

/-- A pixel as `put` writes it on the line in progress: through `fx`, cut to the pixel width (R169, R170; 20_memory
R84). -/
def putValue (P : Params) (s : State) (p : Word) : Word := trunc P.pixw (fx P s.act s.ln.toNat p)

/-- The pixel `REND` leaves at x of its line; output pixel x has the draws from `draws + 4 * x` on. -/
def rendPixel (P : Params) (s : State) (x : Nat) : Option Word :=
  (linePixel P s s.ln.toNat x (s.draws + drawsPerPixel * x)).map (putValue P s)

/-- The publication, one step: the slot filled becomes the published one, the other the free one (R171). -/
def publishSlot (s : State) : State := { s with lbPub := s.lbWr, lbSeq := s.lbSeq + 1#16, lbWr := !s.lbWr }

/-- `REND` without its response: stages 1 to 6, then publish the slot (R170, R171). -/
def renderLine (P : Params) (s : State) : State :=
  publishSlot { s with
    lb := memWriteRow s.lb (slotIndex s.lbWr * P.wOut) (rendPixel P s) P.wOut
    draws := s.draws + drawsPerPixel * P.wOut }

/-- `REND` (R170), as one atomic step. -/
def runRend (P : Params) (s : State) : State := onPorts [.seq] (fun s => respond .ok [] (renderLine P s)) s

/-! ### `REND` access by access (44 R251, 20_memory R89) -/

/-- What a stage does at output pixel x: the clear fills every pixel of a line it applies to, stages 3 to 5 what
`drawnPlan` gives them (R152). -/
def stagePlan (P : Params) (s : State) (stage : RendStage) (x : Nat) : PixelPlan :=
  if stage = .clear then (if clearsLine s then .fill P.clearPix else .skip)
  else if (drawnPlan P s s.ln.toNat x).1 = stage then (drawnPlan P s s.ln.toNat x).2
  else .skip

/-- The element read next at a place of `REND`, `none` when every element its plan reads is held. -/
def nextRead (P : Params) (s : State) (r : RendPos) : Option (Space × Nat) :=
  (planReads (stagePlan P s r.stage r.x))[r.held.length]?

/-- `put` at a place of `REND`: the pixel its plan gives goes to the slot being filled; nothing where it gives none. -/
def putPixel (P : Params) (s : State) (r : RendPos) : State :=
  match planPixel P s.act (stagePlan P s r.stage r.x) r.held with
  | some p => { s with lb := memWrite s.lb (slotIndex s.lbWr * P.wOut + r.x) (putValue P s p) }
  | none => s

/-- The stage after a stage (R152). -/
def RendStage.after : RendStage → RendStage
  | .clear => .margin
  | .margin => .overlay
  | .overlay => .source
  | .source => .publish
  | .publish => .publish

/-- The place after a pixel: the next pixel of the stage, or the next stage's first. -/
def RendPos.after (P : Params) (r : RendPos) : RendPos :=
  if r.x + 1 < P.wOut then { r with x := r.x + 1, held := [] } else { r with stage := r.stage.after, x := 0, held := [] }

/-- The beginning of a `REND` access by access: its free values are set aside. -/
def beginRend (P : Params) (s : State) : State :=
  { s with draws := s.draws + drawsPerPixel * P.wOut, svc := .rendering ⟨.clear, 0, [], s.draws⟩ }

/-- One access of `REND`: the next `MemRead`, or when every element is held the `put` and the move to the next pixel. -/
def accessStep (P : Params) (r : RendPos) (s : State) : State :=
  match nextRead P s r with
  | some (sp, addr) =>
    let v := rendRead P s sp addr (r.base + drawsPerPixel * r.x + drawsPerRead * r.held.length)
    { s with svc := .rendering { r with held := r.held ++ [v] } }
  | none => { putPixel P s r with svc := .rendering (r.after P) }

/-! ### Publishing and the poll -/

/-- Records a published line in its slot's tag (R172). -/
def tagSlot (P : Params) (idx : Nat) (s : State) : State :=
  if idx % P.lsSlots = 0 then { s with ls0 := ⟨BitVec.ofNat 16 idx, true⟩ }
  else { s with ls1 := ⟨BitVec.ofNat 16 idx, true⟩ }

/-- `PUBL idx` (R172). -/
def runPubl (P : Params) (idx : Nat) (s : State) : State :=
  onPorts [.p] (fun s =>
    let t := tagSlot P idx s
    respond .ok [] { t with pend := { t.pend with src := .line } }) s

/-- `PUBF idx` (R173). -/
def runPubf (P : Params) (idx : Nat) (s : State) : State :=
  onPorts [.p] (fun s =>
    if P.fbBanks ≤ idx then refuse .range s
    else respond .ok [] { s with pend := { s.pend with bank := idx, src := .frame } }) s

/-- `PUBT` (R174). -/
def runPubt (s : State) : State :=
  onPorts [.p] (fun s => respond .ok [] { s with pend := { s.pend with src := .text } }) s

/-- `VSTAT` (R175). -/
def runVstat (s : State) : State := onPorts [.p] (fun s => respond .ok [flagBit s.vsync 0] s) s

/-- `REND` at this hardware's parameters. -/
def execRend (s : State) : Host.Outcome State Fault Refusal := .next (runRend .moe s)

/-- `PUBL` at this hardware's parameters. -/
def execPubl (idx : Nat) (s : State) : Host.Outcome State Fault Refusal := .next (runPubl .moe idx s)

/-- `PUBF` at this hardware's parameters. -/
def execPubf (idx : Nat) (s : State) : Host.Outcome State Fault Refusal := .next (runPubf .moe idx s)

/-- `PUBT` at this hardware's parameters. -/
def execPubt (s : State) : Host.Outcome State Fault Refusal := .next (runPubt s)

/-- `VSTAT` at this hardware's parameters. -/
def execVstat (s : State) : Host.Outcome State Fault Refusal := .next (runVstat s)

end Sys2Proof.Machine
end

