-- ==== Sys2Proof/Machine/RingBuffer.lean ====
section
/-! DEFINITION. The commands of unit 1: PUSH, POP, FREE, USED (40_ring_buffer R134 to R137). The checks stand in the
order of 30_encoding R112: PORT, RANGE, PORT for the pair of port and queue, then the outcome. -/

namespace Sys2Proof.Machine

/-- The end of `PUSH` on an instance: `OK` with the element in, or `FULL` with nothing written (R134). -/
def pushInto (n width : Nat) (r : Ring Word) (w0 : Word) (store : Ring Word → State) (s : State) : State :=
  match rbPush n r (trunc width w0) with
  | some r' => respond .ok [] (store r')
  | none => respond .full [] s

/-- `PUSH q, W0` (R134). Its rule allows q = 1 and q = 2, so an instance above 2, which only another `NQ` has, is `PORT`
like instance 0 (R139; 30_encoding R112 step 4a; 60_exceptions R290; DEDUCED, log entry 17). -/
def runPush (P : Params) (q : Nat) (w0 : Word) (s : State) : State :=
  onPorts [.p] (fun s =>
    if P.nq ≤ q then refuse .range s
    else
      match q with
      | 0 => refuse .port s
      | 1 => pushInto (P.rbN 1) (P.rbW 1) s.q1 w0 (fun r => { s with q1 := r }) s
      | 2 => pushInto (P.rbN 2) (P.rbW 2) s.q2 w0 (fun r => { s with q2 := r }) s
      | _ => refuse .port s) s

/-- The end of `POP` on an instance: `OK` with the element, or `EMPTY` (R135). A slot that was never written reads as
a free value (93_implementation_defined U10). -/
def popFrom (P : Params) (n width : Nat) (r : Ring Word) (store : Ring Word → State) (s : State) : State :=
  match rbPop n r with
  | none => respond .empty [] s
  | some (some v, r') => respond .ok [v] (store r')
  | some (none, r') => respond .ok [drawAt P width s.draws] { store r' with draws := s.draws + 1 }

/-- `POP q` (R135). -/
def runPop (P : Params) (q : Nat) (s : State) : State :=
  onPorts [.c1, .c2] (fun s =>
    if P.nq ≤ q then refuse .range s
    else if ownsPop s.issuer q = false then refuse .port s
    else
      match q with
      | 0 => refuse .port s
      | 1 => popFrom P (P.rbN 1) (P.rbW 1) s.q1 (fun r => { s with q1 := r }) s
      | 2 => popFrom P (P.rbN 2) (P.rbW 2) s.q2 (fun r => { s with q2 := r }) s
      | _ => refuse .port s) s

/-- `FREE q` (R136). -/
def runFree (P : Params) (q : Nat) (s : State) : State :=
  onPorts [.p, .c1, .c2] (fun s =>
    if P.nq ≤ q then refuse .range s
    else if mayWatch s.issuer q = false then refuse .port s
    else respond .ok [BitVec.ofNat 32 ((P.rbN q - 1) - ringUsed P s q)] s) s

/-- `USED q` (R137). -/
def runUsed (P : Params) (q : Nat) (s : State) : State :=
  onPorts [.p, .c1, .c2] (fun s =>
    if P.nq ≤ q then refuse .range s
    else if mayWatch s.issuer q = false then refuse .port s
    else respond .ok [BitVec.ofNat 32 (ringUsed P s q)] s) s

/-- `PUSH` at this hardware's parameters. -/
def execPush (q : Nat) (w0 : Word) (s : State) : Host.Outcome State Fault Refusal := .next (runPush .moe q w0 s)

/-- `POP` at this hardware's parameters. -/
def execPop (q : Nat) (s : State) : Host.Outcome State Fault Refusal := .next (runPop .moe q s)

/-- `FREE` at this hardware's parameters. -/
def execFree (q : Nat) (s : State) : Host.Outcome State Fault Refusal := .next (runFree .moe q s)

/-- `USED` at this hardware's parameters. -/
def execUsed (q : Nat) (s : State) : Host.Outcome State Fault Refusal := .next (runUsed .moe q s)

end Sys2Proof.Machine
end

