-- ==== Sys2Proof/Machine/System.lean ====
section
/-! DEFINITION. The commands of unit 0: NOP, START, STOP, RDREG, WRREG (44_system_and_memory_ops R240 to R244). Every
meaning of the machine is written first over a `Params` (`run…`) and then at this hardware's values (`exec…`). -/

namespace Sys2Proof.Machine

/-- `NOP` (R240). -/
def runNop (s : State) : State := onPorts [.p, .c1, .c2] (respond .ok []) s

/-- `START`: `run_req <- 1` (R241). -/
def runStart (s : State) : State := onPorts [.p] (fun s => respond .ok [] { s with runReq := true }) s

/-- `STOP`: `run_req <- 0` (R242). -/
def runStop (s : State) : State := onPorts [.p] (fun s => respond .ok [] { s with runReq := false }) s

/-- `RDREG reg` (R243). -/
def runRdreg (P : Params) (reg : Nat) (s : State) : State :=
  onPorts [.p] (fun s =>
    match regOf P reg with
    | none => refuse .range s
    | some r => respond .ok [regValue P s r] s) s

/-- `WRREG reg, W0` (R244). -/
def runWrreg (P : Params) (reg : Nat) (w0 : Word) (s : State) : State :=
  onPorts [.p] (fun s =>
    match regOf P reg with
    | none => refuse .range s
    | some r =>
      match accessOf r with
      | .ro => refuse .ro s
      | .rw => respond .ok [] (regWrite s r w0)
      | .rwd => respond .ok [] (regWrite s r w0)) s

/-- `NOP` at this hardware's parameters. -/
def execNop (s : State) : Host.Outcome State Fault Refusal := .next (runNop s)

/-- `START` at this hardware's parameters. -/
def execStart (s : State) : Host.Outcome State Fault Refusal := .next (runStart s)

/-- `STOP` at this hardware's parameters. -/
def execStop (s : State) : Host.Outcome State Fault Refusal := .next (runStop s)

/-- `RDREG` at this hardware's parameters. -/
def execRdreg (reg : Nat) (s : State) : Host.Outcome State Fault Refusal := .next (runRdreg .moe reg s)

/-- `WRREG` at this hardware's parameters. -/
def execWrreg (reg : Nat) (w0 : Word) (s : State) : Host.Outcome State Fault Refusal := .next (runWrreg .moe reg w0 s)

end Sys2Proof.Machine
end

