-- ==== Sys2Proof/Machine/Command.lean ====
section
/-! DEFINITION. Every command over a `Params`: the parameters of 00_scope R8 are parameters of the step relation
(10_state R34). `exec` is `execAt` at this hardware's values (`exec_eq_execAt`). -/

namespace Sys2Proof.Machine

/-- The state a command leaves, at the parameters given (30_encoding R110). -/
def runCommand (P : Params) (i : Instr) (s : State) : State :=
  match i with
  | .nop => runNop s
  | .start => runStart s
  | .stop => runStop s
  | .rdreg reg => runRdreg P reg s
  | .wrreg reg w0 => runWrreg P reg w0 s
  | .push q w0 => runPush P q w0 s
  | .pop q => runPop P q s
  | .free q => runFree P q s
  | .used q => runUsed P q s
  | .rend => runRend P s
  | .publ idx => runPubl P idx s
  | .pubf idx => runPubf P idx s
  | .pubt => runPubt s
  | .vstat => runVstat s
  | .tick => runTick s
  | .pkt => runPkt P s
  | .aenq w0 w1 w2 w3 => runAenq P w0 w1 w2 w3 s
  | .reqx => runReqx s
  | .relx => runRelx s
  | .xstat => runXstat s
  | .xchk => runXchk P s
  | .mrd space addr => runMrd P space addr s
  | .mwr space addr w0 => runMwr P space addr w0 s

/-- A command at the parameters given: every command completes (60_exceptions R299). -/
def execAt (P : Params) (i : Instr) (s : State) : Host.Outcome State Fault Refusal := .next (runCommand P i s)

end Sys2Proof.Machine
end

