-- ==== Sys2Proof/Machine/Dispatch.lean ====
section
/-! DEFINITION. The meaning of every command of 30_encoding R110, one arm per constructor of `Instr`. -/

namespace Sys2Proof.Machine

def exec (i : Instr) (s : State) : Host.Outcome State Fault Refusal :=
  match i with
  | .nop => Sys2Proof.Machine.execNop s
  | .start => Sys2Proof.Machine.execStart s
  | .stop => Sys2Proof.Machine.execStop s
  | .rdreg reg => Sys2Proof.Machine.execRdreg reg s
  | .wrreg reg w0 => Sys2Proof.Machine.execWrreg reg w0 s
  | .push q w0 => Sys2Proof.Machine.execPush q w0 s
  | .pop q => Sys2Proof.Machine.execPop q s
  | .free q => Sys2Proof.Machine.execFree q s
  | .used q => Sys2Proof.Machine.execUsed q s
  | .rend => Sys2Proof.Machine.execRend s
  | .publ idx => Sys2Proof.Machine.execPubl idx s
  | .pubf idx => Sys2Proof.Machine.execPubf idx s
  | .pubt => Sys2Proof.Machine.execPubt s
  | .vstat => Sys2Proof.Machine.execVstat s
  | .tick => Sys2Proof.Machine.execTick s
  | .pkt => Sys2Proof.Machine.execPkt s
  | .aenq w0 w1 w2 w3 => Sys2Proof.Machine.execAenq w0 w1 w2 w3 s
  | .reqx => Sys2Proof.Machine.execReqx s
  | .relx => Sys2Proof.Machine.execRelx s
  | .xstat => Sys2Proof.Machine.execXstat s
  | .xchk => Sys2Proof.Machine.execXchk s
  | .mrd space addr => Sys2Proof.Machine.execMrd space addr s
  | .mwr space addr w0 => Sys2Proof.Machine.execMwr space addr w0 s

end Sys2Proof.Machine
end

