-- ==== Sys2Proof/WellFormed.lean ====
section
/-! DEFINITION. Which terms of `Instr` have a command word: every field fits the bits its format gives it
(30_encoding R103 to R106, R111). A register, queue, space, bank or address that fits its field and names nothing is
well formed: the block answers it with status `RANGE` (R112). -/

namespace Sys2Proof

/-- Each field fits its place: `reg` 8 bits, `q` and `space` 4 bits, `idx` 16 bits, `addr` 20 bits (30_encoding R111). -/
def Instr.wellFormed : Instr → Bool
  | .nop => true
  | .start => true
  | .stop => true
  | .rdreg reg => decide (reg < 256)
  | .wrreg reg _ => decide (reg < 256)
  | .push q _ => decide (q < 16)
  | .pop q => decide (q < 16)
  | .free q => decide (q < 16)
  | .used q => decide (q < 16)
  | .rend => true
  | .publ idx => decide (idx < 65536)
  | .pubf idx => decide (idx < 65536)
  | .pubt => true
  | .vstat => true
  | .tick => true
  | .pkt => true
  | .aenq _ _ _ _ => true
  | .reqx => true
  | .relx => true
  | .xstat => true
  | .xchk => true
  | .mrd space addr => decide (space < 16) && decide (addr < 1048576)
  | .mwr space addr _ => decide (space < 16) && decide (addr < 1048576)

end Sys2Proof
end

