-- ==== Sys2Proof/Decode.lean ====
section
/-! DEFINITION. Reading commands from the words a port hands over, and writing them: formats Z, R, Q, I, M
(30_encoding R101 to R106), the operand words (R107), the opcode map (R110), the decode order (R112 steps 1 and 2). -/

namespace Sys2Proof

/-- Why no command is read from the words at hand. The first two are answered `ILLEGAL`; the last is no refusal, the
port has more words to send. -/
inductive DecodeError where
  /-- `OPC` is not in the opcode map (30_encoding R113). -/
  | reservedOpcode (opc : Nat)
  /-- A bit the format marks 0 is set (30_encoding R114). -/
  | mustBeZero (opc : Nat)
  /-- The command executes when its last word has arrived (30_encoding R100); this many are still to come. -/
  | wordsToCome (n : Nat)
deriving DecidableEq, Repr

/-- `OPC`, bits[31:24] (30_encoding R101). -/
def opcOf (w : Word) : Nat := w.toNat / 0x1000000

/-- `ARG`, bits[23:0] (30_encoding R101). -/
def argOf (w : Word) : Nat := w.toNat % 0x1000000

/-- `reg`, bits[7:0] (30_encoding R103). -/
def regField (w : Word) : Nat := w.toNat % 0x100

/-- `idx`, bits[15:0] (30_encoding R105). -/
def idxField (w : Word) : Nat := w.toNat % 0x10000

/-- `q` of format Q and `space` of format M, bits[23:20] (30_encoding R104, R106). -/
def nibbleField (w : Word) : Nat := w.toNat / 0x100000 % 0x10

/-- `addr`, bits[19:0] (30_encoding R106). -/
def addrField (w : Word) : Nat := w.toNat % 0x100000

/-- The formats of 30_encoding R102 to R106. -/
inductive Format where
  | z | r | q | i | m
deriving DecidableEq, Repr

/-- The format of each opcode of the map; `none` for a reserved opcode (30_encoding R110, R113). -/
def formatOf (opc : Nat) : Option Format :=
  match opc with
  | 0x00 => some .z
  | 0x01 => some .z
  | 0x02 => some .z
  | 0x03 => some .r
  | 0x04 => some .r
  | 0x10 => some .q
  | 0x11 => some .q
  | 0x12 => some .q
  | 0x13 => some .q
  | 0x20 => some .z
  | 0x21 => some .i
  | 0x22 => some .i
  | 0x23 => some .z
  | 0x24 => some .z
  | 0x30 => some .z
  | 0x31 => some .z
  | 0x32 => some .z
  | 0x40 => some .z
  | 0x41 => some .z
  | 0x42 => some .z
  | 0x43 => some .z
  | 0x50 => some .m
  | 0x51 => some .m
  | _ => none

/-- How many operand words follow, fixed by the opcode; a reserved opcode takes none (30_encoding R107, R110, R113). -/
def operandWords (opc : Nat) : Nat :=
  match opc with
  | 0x04 => 1
  | 0x10 => 1
  | 0x32 => 4
  | 0x51 => 1
  | _ => 0

/-- The must-be-zero bits of a format are all 0 (30_encoding R114). -/
def mbzClear (f : Format) (w : Word) : Bool :=
  match f with
  | .z => decide (argOf w = 0)
  | .r => decide (argOf w / 0x100 = 0)
  | .q => decide (addrField w = 0)
  | .i => decide (argOf w / 0x10000 = 0)
  | .m => true

/-- Operand word `Wk` of a command (30_encoding R107). -/
def operand (ops : List Word) (k : Nat) : Word := ops.getD k 0#32

/-- The command of a defined opcode, its format's must-be-zero bits clear, from the command word and its operand words,
all of them there (30_encoding R107, R110); `none` for a reserved opcode. -/
def instrOf (w : Word) (ops : List Word) : Option Instr :=
  match opcOf w with
  | 0x00 => some .nop
  | 0x01 => some .start
  | 0x02 => some .stop
  | 0x03 => some (.rdreg (regField w))
  | 0x04 => some (.wrreg (regField w) (operand ops 0))
  | 0x10 => some (.push (nibbleField w) (operand ops 0))
  | 0x11 => some (.pop (nibbleField w))
  | 0x12 => some (.free (nibbleField w))
  | 0x13 => some (.used (nibbleField w))
  | 0x20 => some .rend
  | 0x21 => some (.publ (idxField w))
  | 0x22 => some (.pubf (idxField w))
  | 0x23 => some .pubt
  | 0x24 => some .vstat
  | 0x30 => some .tick
  | 0x31 => some .pkt
  | 0x32 => some (.aenq (operand ops 0) (operand ops 1) (operand ops 2) (operand ops 3))
  | 0x40 => some .reqx
  | 0x41 => some .relx
  | 0x42 => some .xstat
  | 0x43 => some .xchk
  | 0x50 => some (.mrd (nibbleField w) (addrField w))
  | 0x51 => some (.mwr (nibbleField w) (addrField w) (operand ops 0))
  | _ => none

/-- Reads one command from the words a port has handed over: the command and the words after it, or why there is none
(30_encoding R100, R112 steps 1 and 2, R113, R114). A defined opcode waits for all its operand words before anything,
a must-be-zero refusal included, is answered (R112: they are still consumed). -/
def decode (ws : List Word) : Except DecodeError (Instr × List Word) :=
  match ws with
  | [] => .error (.wordsToCome 1)
  | w :: rest =>
    match formatOf (opcOf w) with
    | none => .error (.reservedOpcode (opcOf w))
    | some f =>
      if rest.length < operandWords (opcOf w) then
        .error (.wordsToCome (operandWords (opcOf w) - rest.length))
      else if mbzClear f w then
        match instrOf w (rest.take (operandWords (opcOf w))) with
        | some i => .ok (i, rest.drop (operandWords (opcOf w)))
        | none => .error (.reservedOpcode (opcOf w))
      else .error (.mustBeZero (opcOf w))

/-- A command word from its opcode and its `ARG` (30_encoding R101). -/
def commandWord (opc arg : Nat) : Word := BitVec.ofNat 32 (opc * 0x1000000 + arg)

/-- The words of a command: the command word, then its operand words (30_encoding R100, R102 to R107, R110). -/
def encode : Instr → List Word
  | .nop => [commandWord 0x00 0]
  | .start => [commandWord 0x01 0]
  | .stop => [commandWord 0x02 0]
  | .rdreg reg => [commandWord 0x03 reg]
  | .wrreg reg w0 => [commandWord 0x04 reg, w0]
  | .push q w0 => [commandWord 0x10 (q * 0x100000), w0]
  | .pop q => [commandWord 0x11 (q * 0x100000)]
  | .free q => [commandWord 0x12 (q * 0x100000)]
  | .used q => [commandWord 0x13 (q * 0x100000)]
  | .rend => [commandWord 0x20 0]
  | .publ idx => [commandWord 0x21 idx]
  | .pubf idx => [commandWord 0x22 idx]
  | .pubt => [commandWord 0x23 0]
  | .vstat => [commandWord 0x24 0]
  | .tick => [commandWord 0x30 0]
  | .pkt => [commandWord 0x31 0]
  | .aenq w0 w1 w2 w3 => [commandWord 0x32 0, w0, w1, w2, w3]
  | .reqx => [commandWord 0x40 0]
  | .relx => [commandWord 0x41 0]
  | .xstat => [commandWord 0x42 0]
  | .xchk => [commandWord 0x43 0]
  | .mrd space addr => [commandWord 0x50 (space * 0x100000 + addr)]
  | .mwr space addr w0 => [commandWord 0x51 (space * 0x100000 + addr), w0]

/-- The words of a table row's instruction, whose bits are `w` numbered from the first word's least significant bit:
the first word, then every later word up to the longest command, `AENQ`'s four operand words. -/
def tableWords (nbits w : Nat) : List Word :=
  let v := w % 2 ^ nbits
  [BitVec.ofNat 32 v, BitVec.ofNat 32 (v / 2 ^ 32), BitVec.ofNat 32 (v / 2 ^ 64), BitVec.ofNat 32 (v / 2 ^ 96),
    BitVec.ofNat 32 (v / 2 ^ 128)]

/-- The instruction the decoder reads from a table row's bits (the host's question). -/
def decodeTableWord (nbits w : Nat) : Option Instr :=
  match decode (tableWords nbits w) with
  | .ok (i, _) => some i
  | .error _ => none

end Sys2Proof
end

