-- ==== Sys2Proof/Machine/PortInput.lean ====
section
/-! DEFINITION. How a command reaches the block: word by word over a port, executing when its last word has arrived
(30_encoding R100); reserved opcodes and must-be-zero bits are answered `ILLEGAL` (R112 to R114). -/

namespace Sys2Proof.Machine

/-- The words a port has handed over of a command not yet complete. -/
def rxOf (s : State) : Port → List Word
  | .p => s.rxP
  | .c1 => s.rxC1
  | .c2 => s.rxC2

/-- Puts back the words a port has handed over. -/
def withRx (s : State) (pt : Port) (ws : List Word) : State :=
  match pt with
  | .p => { s with rxP := ws }
  | .c1 => { s with rxC1 := ws }
  | .c2 => { s with rxC2 := ws }

/-- A port hands over one word: the command waits for its operand words, is answered `ILLEGAL` (60_exceptions R279),
or runs with the port as its issuer; `run` is the meaning of the commands. -/
def takeWord (run : Instr → State → Host.Outcome State Fault Refusal) (pt : Port) (w : Word) (s : State) :
    Host.Outcome State Fault Refusal :=
  match decode (rxOf s pt ++ [w]) with
  | .error (.wordsToCome _) => .next (withRx s pt (rxOf s pt ++ [w]))
  | .error (.reservedOpcode _) => .next (refuse .illegal { withRx s pt [] with issuer := pt.agent })
  | .error (.mustBeZero _) => .next (refuse .illegal { withRx s pt [] with issuer := pt.agent })
  | .ok (i, rest) => run i { withRx s pt rest with issuer := pt.agent }

/-- The port on which a table row's command word is handed over when the host places it: `POP` on the consumer that
owns the queue, every other command on port P. -/
def portFor (w : Word) : Port :=
  if opcOf w = 0x11 then (if nibbleField w = 2 then .c2 else .c1) else .p

/-- Places the words of one command so that the next event is the arrival of its last word. -/
def placeOnPort (s : State) (pt : Port) (ws : List Word) : State :=
  { withRx s pt ws.dropLast with inputs := .word pt (ws.getLastD 0#32) :: s.inputs }

/-- Places SEQ where its next step issues the internal command of opcode `opc` (44 R251, 43_cross_core R226). -/
def placeOnSeq (s : State) (opc : Nat) : State :=
  let t := { s with inputs := .seq :: s.inputs }
  match opc with
  | 0x20 => { t with seq := .run, busy := true, vsync := false, svc := .rend }
  | 0x30 => { t with seq := .run, busy := true, svc := .tick }
  | 0x31 => { t with seq := .run, busy := true, svc := .pkt }
  | _ => if s.seq = .run then { t with busy := true, svc := .xchk } else { t with busy := false, svc := .idle }

/-- Places the instruction whose words are `w` and, up to the longest command, `ops` where the next step takes its next
command: a SEQ command as SEQ's next micro-step, any other as words on a port, all handed over but the last, which
arrives next. -/
def placeWords (s : State) (w : Word) (ops : List Word) : State :=
  if w = 0x20000000#32 ∨ w = 0x30000000#32 ∨ w = 0x31000000#32 ∨ w = 0x43000000#32 then placeOnSeq s (opcOf w)
  else placeOnPort s (portFor w) (w :: ops.take (operandWords (opcOf w)))

/-- The table row's words, the first apart from those after it. -/
def placeTable (s : State) (ws : List Word) : State :=
  match ws with
  | [] => s
  | w :: ops => placeWords s w ops

end Sys2Proof.Machine
end

