-- ==== Sys2Proof/Machine/Sequencer.lean ====
section
/-! DEFINITION. The line sequencer SEQ (44_system_and_memory_ops R250 to R257): which micro-step is next, the internal
commands it issues, and what a `LINE_REQ` does. Events may fall between any two micro-steps (R251). SEQ is written over
the parameters and over `run`, the meaning of the commands it issues. -/

namespace Sys2Proof.Machine

/-- SEQ issues one of its four internal commands and moves on to the place `next` gives (R251). -/
def seqIssue (run : Instr → State → Host.Outcome State Fault Refusal) (i : Instr) (next : State → Svc) (s : State) :
    Host.Outcome State Fault Refusal :=
  match run i { s with issuer := .seq } with
  | .next t => .next { t with svc := next t }
  | .fault r => .fault r
  | .refused r => .refused r

/-- After `PKT`: a blanking line only advances, an active line is rendered (R251). -/
def afterPkt (s : State) : Svc := if s.vsync then .blank else .rend

/-- After `REND`: the last active line reaches the frame boundary (R251). -/
def afterRend (P : Params) (s : State) : Svc := if s.ln.toNat + 1 = P.vActive then .enter else .advance

/-- The next micro-step of a `REND` access by access: an access, or the publication with its response (44 R251;
41_scanline_renderer R170, R171). -/
def rendStep (P : Params) (r : RendPos) (s : State) : State :=
  if r.stage = .publish then { respond .ok [] (publishSlot { s with issuer := .seq }) with svc := afterRend P s }
  else accessStep P r s

/-- SEQ's next enabled step at a place of the service. Outside a line service it evaluates `XCHK` again and again while `seq` is not `RUN`
(43_cross_core R226 b); in `RUN` it waits for `LINE_REQ` (R254). -/
def seqStepAt (P : Params) (run : Instr → State → Host.Outcome State Fault Refusal) (place : Svc) (s : State) :
    Host.Outcome State Fault Refusal :=
  match place with
  | .idle => if s.seq = .run then .next s else seqIssue run .xchk (fun _ => .idle) s
  | .tick => seqIssue run .tick (fun _ => .pkt) s
  | .pkt => seqIssue run .pkt afterPkt s
  | .blank => .next { afterBlank P s with svc := .finish }
  | .rend => seqIssue run .rend (afterRend P) s
  | .rendering r => .next (rendStep P r s)
  | .advance => .next { afterActive s with svc := .finish }
  | .enter => .next { enterBlanking s with svc := .count }
  | .count => .next { countFrame s with svc := .latch }
  | .latch => .next { latch s with svc := .check }
  | .check => .next { latchOverlay P s with svc := .xchk }
  | .xchk => seqIssue run .xchk (fun _ => .finish) s
  | .finish => .next (leaveService s)

/-- SEQ's next enabled step. -/
def seqStep (P : Params) (run : Instr → State → Host.Outcome State Fault Refusal) (s : State) :
    Host.Outcome State Fault Refusal :=
  seqStepAt P run s.svc s

/-- SEQ's next enabled step when a `REND` that is next is taken access by access (R251): "each `MemRead` of `REND` is its
own step". -/
def seqAccessStep (P : Params) (run : Instr → State → Host.Outcome State Fault Refusal) (s : State) :
    Host.Outcome State Fault Refusal :=
  if s.svc = .rend then .next (beginRend P s) else seqStep P run s

/-- A `LINE_REQ` (R254): accepted when `RUN` and not busy, an overrun when `RUN` and busy (60_exceptions R283), ignored
in every other state of SEQ (60_exceptions R284). -/
def takeLineReq (s : State) : State :=
  match s.seq with
  | .run => if s.busy then raiseOverrun s else enterService s
  | .stopped => s
  | .quiesce => s
  | .parked => s

end Sys2Proof.Machine
end

