-- ==== Sys2Proof/Machine/Step.lean ====
section
/-! DEFINITION. One step of the block: the next event at its boundary, or SEQ's own next step when no event is to come.
The block has no program counter and fetches nothing (10_state R23, 20_memory R93); its agents' steps interleave in
the order `inputs` gives (20_memory R86). The step relation takes the parameters of 00_scope R8 (10_state R34):
`stepAt` is the step at any of them, `step` the step of this hardware (`step_eq_stepAt`). -/

namespace Sys2Proof.Machine

/-- What one event does (00_scope R7). -/
def handle (P : Params) (run : Instr → State → Host.Outcome State Fault Refusal) (e : Event) (s : State) :
    Host.Outcome State Fault Refusal :=
  match e with
  | .word pt w => takeWord run pt w s
  | .lineReq => .next (takeLineReq s)
  | .txIdle level => .next { s with txIdle := level }
  | .reset => .next (applyReset P s)
  | .seq => seqStep P run s
  | .seqByAccess => seqAccessStep P run s

/-- One step at the parameters and the meaning of commands given: the first event to come, or, with none to come, SEQ's
next enabled step (44 R257). -/
def stepWith (P : Params) (run : Instr → State → Host.Outcome State Fault Refusal) (s : State) :
    Host.Outcome State Fault Refusal :=
  match s.inputs with
  | [] => seqStep P run s
  | e :: es => handle P run e { s with inputs := es }

/-- The step at any parameters (10_state R34). -/
def stepAt (P : Params) : State → Host.Outcome State Fault Refusal := stepWith P (execAt P)

/-- One step of this hardware. -/
def step (s : State) : Host.Outcome State Fault Refusal := stepWith .moe exec s

/-- `s` with a table row's instruction placed where the next step takes it (the host's question). -/
def State.withFetchWord (s : State) (nbits w : Nat) : State := placeTable s (tableWords nbits w)

end Sys2Proof.Machine
end

