-- ==== Sys2Proof/Safety.lean ====
section
/-! DEFINITION. What counts as a sound state and a safe run of the block, in the terms the statements use: the
invariant of reachable states, what a command may touch, the abstract contents of a queue, and short runs of SEQ. -/

namespace Sys2Proof.Machine

/-! ### Invariant of reachable states -/

/-- A ring-buffer instance of N slots is sound: indices below N (10_state R21), canonical storage of slots below N, and
every slot between `tail` and `head` written since reset (10_state R22). -/
structure RingSound {α : Type} (n : Nat) (r : Ring α) : Prop where
  head_lt : r.head < n
  tail_lt : r.tail < n
  wf : Memory.wf r.buf = true
  slots : ∀ x ∈ r.buf, x.1 < n
  written : ∀ k, k < occupied n r → (memRead r.buf ((r.tail + k) % n)).isSome = true

/-- A memory space is sound: canonical form, addresses below the size, elements within the width (20_memory R75, R84). -/
structure MemSound (P : Params) (sp : Space) (m : Mem Word) : Prop where
  wf : Memory.wf m = true
  inside : ∀ x ∈ m, x.1 < spaceSize P sp
  fits : ∀ x ∈ m, x.2.toNat < 2 ^ spaceWidth P sp

/-- A configuration copy is sound: undefined bits are 0 (10_state R50) and the bank exists (41 R173). -/
structure ConfSound (P : Params) (c : Conf) : Prop where
  mode : c.mode &&& definedBits .mode = c.mode
  selrow : c.selrow &&& definedBits .selrow = c.selrow
  ovlCtrl : c.ovlCtrl &&& definedBits .ovlCtrl = c.ovlCtrl
  bank : c.bank < P.fbBanks

/-- SEQ's position is sound (10_state R23 to R27; 44 R251 to R256). -/
structure PositionSound (P : Params) (s : State) : Prop where
  busy_iff : s.busy = true ↔ s.svc ≠ .idle
  in_service : s.svc ≠ .idle → s.svc ≠ .finish → s.seq = .run
  finishing : s.svc = .finish → s.seq = .run ∨ s.seq = .quiesce
  blank_line : s.vsync = true → s.ln.toNat < P.vBlank
  active_line : s.seq = .run → s.vsync = false → s.ln.toNat < P.vActive
  at_blank : s.svc = .blank → s.vsync = true
  at_rend : s.svc = .rend → s.vsync = false
  at_rendering : ∀ r, s.svc = .rendering r → s.vsync = false ∧ r.x < P.wOut
  at_advance : s.svc = .advance → s.vsync = false ∧ s.ln.toNat + 1 < P.vActive
  at_boundary : s.svc = .count ∨ s.svc = .latch ∨ s.svc = .check ∨ s.svc = .xchk → s.vsync = true ∧ s.ln = 0#16
  stopped : s.seq = .stopped → s.vsync = false
  quiesce : s.seq = .quiesce → s.vsync = true ∧ s.ln = 0#16
  parked : s.seq = .parked → s.vsync = true → s.ln = 0#16
  no_race : s.busy = false → s.raced = []

/-- The handshake is sound: `xgnt` exactly in `PARKED`, `tx_run` exactly in `RUN` (43 R228 a; 10_state R38). -/
structure HandshakeSound (s : State) : Prop where
  granted_iff : s.xgnt = true ↔ s.seq = .parked
  running_iff : s.txRun = true ↔ s.seq = .run

/-- The words a port has handed over are the beginning of a command, still waiting for words (30_encoding R100). -/
def rxWaiting (ws : List Word) : Prop := ∃ n, decode ws = .error (.wordsToCome n)

/-- The invariant of reachable states. -/
structure State.Sound (P : Params) (s : State) : Prop where
  q0 : RingSound (P.rbN 0) s.q0
  q1 : 1 < P.nq → RingSound (P.rbN 1) s.q1
  q2 : 2 < P.nq → RingSound (P.rbN 2) s.q2
  txt : MemSound P .txt s.txt
  fb : MemSound P .fb s.fb
  ls : MemSound P .ls s.ls
  ovl : MemSound P .ovl s.ovl
  lb : MemSound P .lb s.lb
  pend : ConfSound P s.pend
  act : ConfSound P s.act
  position : PositionSound P s
  handshake : HandshakeSound s
  encEs : s.encEs.toNat < P.esPeriod
  silIdx : s.silIdx.toNat < P.silK
  fault : s.fault &&& 1#32 = s.fault
  rxP : rxWaiting s.rxP
  rxC1 : rxWaiting s.rxC1
  rxC2 : rxWaiting s.rxC2

/-! ### What a command may touch -/

/-- The ports column of 30_encoding R110. -/
def portsOf : Instr → List Agent
  | .nop => [.p, .c1, .c2]
  | .start => [.p]
  | .stop => [.p]
  | .rdreg _ => [.p]
  | .wrreg _ _ => [.p]
  | .push _ _ => [.p]
  | .pop _ => [.c1, .c2]
  | .free _ => [.p, .c1, .c2]
  | .used _ => [.p, .c1, .c2]
  | .rend => [.seq]
  | .publ _ => [.p]
  | .pubf _ => [.p]
  | .pubt => [.p]
  | .vstat => [.p]
  | .tick => [.seq]
  | .pkt => [.seq]
  | .aenq _ _ _ _ => [.p]
  | .reqx => [.p]
  | .relx => [.p]
  | .xstat => [.p]
  | .xchk => [.seq]
  | .mrd _ _ => [.p]
  | .mwr _ _ _ => [.p]

/-- The values column of 30_encoding R110: how many value words follow an `OK`. -/
def valueWords : Instr → Nat
  | .nop => 0
  | .start => 0
  | .stop => 0
  | .rdreg _ => 1
  | .wrreg _ _ => 0
  | .push _ _ => 0
  | .pop _ => 1
  | .free _ => 1
  | .used _ => 1
  | .rend => 0
  | .publ _ => 0
  | .pubf _ => 0
  | .pubt => 0
  | .vstat => 1
  | .tick => 0
  | .pkt => islWords
  | .aenq _ _ _ _ => 0
  | .reqx => 0
  | .relx => 0
  | .xstat => 1
  | .xchk => 0
  | .mrd _ _ => 1
  | .mwr _ _ _ => 0

/-- The state of the block alone: without the responses given, the words waiting on the ports, and the model's own
issuer, events and count of draws. Two states with the same block agree on every register, flag, queue and memory. -/
def State.block (s : State) : State :=
  { s with
    respP := none, respC1 := none, respC2 := none, respS := none, rxP := [], rxC1 := [], rxC2 := []
    issuer := .seq, inputs := [], draws := 0 }

/-- What port P alone writes (60_exceptions R290): heads, `enc_es`, `hwm`, `run_req`, `xreq`, pending configuration,
tags, and the memories `TXT`, `FB`, `LS`, `OVL`; and the storage of the three queues (10_state R22). -/
def samePortP (s t : State) : Prop :=
  t.q0.head = s.q0.head ∧ t.q1.head = s.q1.head ∧ t.q2.head = s.q2.head ∧ t.q0.buf = s.q0.buf ∧ t.q1.buf = s.q1.buf ∧
  t.q2.buf = s.q2.buf ∧ t.encEs = s.encEs ∧ t.hwm = s.hwm ∧ t.runReq = s.runReq ∧ t.xreq = s.xreq ∧ t.pend = s.pend ∧
  t.ls0 = s.ls0 ∧ t.ls1 = s.ls1 ∧ t.txt = s.txt ∧ t.fb = s.fb ∧ t.ls = s.ls ∧ t.ovl = s.ovl

/-- What SEQ alone writes (60_exceptions R290). -/
def sameSeq (s t : State) : Prop :=
  t.q0.tail = s.q0.tail ∧ t.acc = s.acc ∧ t.silIdx = s.silIdx ∧ t.diOut = s.diOut ∧ t.diValid = s.diValid ∧
  t.seq = s.seq ∧ t.vsync = s.vsync ∧ t.ln = s.ln ∧ t.busy = s.busy ∧ t.framecnt = s.framecnt ∧ t.txRun = s.txRun ∧
  t.xgnt = s.xgnt ∧ t.fault = s.fault ∧ t.ovlOk = s.ovlOk ∧ t.act = s.act ∧ t.lbWr = s.lbWr ∧ t.lbPub = s.lbPub ∧
  t.lbSeq = s.lbSeq ∧ t.lb = s.lb ∧ t.svc = s.svc

/-! ### The contents of a queue -/

/-- The elements waiting in a ring buffer, oldest first (40_ring_buffer R138 d). -/
def ringItems {α : Type} (n : Nat) (r : Ring α) : List (Option α) :=
  (List.range (occupied n r)).map fun k => memRead r.buf ((r.tail + k) % n)

/-! ### Runs of SEQ -/

/-- The state an outcome gives, and otherwise the state given. -/
def nextOr (o : Host.Outcome State Fault Refusal) (s : State) : State :=
  match o with
  | .next t => t
  | .fault _ => s
  | .refused _ => s

/-- k steps of the block, stopping at a stop (`Host.Core.run` at this core). -/
def steps : Nat → State → Host.Outcome State Fault Refusal
  | 0, s => .next s
  | k + 1, s =>
    match step s with
    | .next t => steps k t
    | .fault r => .fault r
    | .refused r => .refused r

/-- Whether the last response to SEQ was `OK`. -/
def firedBySeq (s : State) : Bool :=
  match s.respS with
  | some r => decide (r.status = .ok)
  | none => false

/-- One serviced line as the Multiplexer sees it: `S: TICK` then `S: PKT` (42_av_multiplexer R203). -/
def audioLine (s : State) : State :=
  let t := nextOr (exec .tick { s with issuer := .seq }) s
  nextOr (exec .pkt { t with issuer := .seq }) t

/-- One serviced line's share of the accumulator: `acc + spl`, less `THRESH` once where that is reached
(42_av_multiplexer R195, R196). -/
def accAfterLine (acc spl : Word) : Word := if thresh ≤ acc + spl then acc + spl - thresh else acc + spl

/-- L serviced lines as the Multiplexer sees them: how many `PKT` answered `OK`, and the state after them. -/
def audioLines : Nat → State → Nat × State
  | 0, s => (0, s)
  | n + 1, s =>
    let r := audioLines n s
    let t := audioLine r.2
    (r.1 + (if firedBySeq t then 1 else 0), t)

/-- A `LINE_REQ` and n further steps of SEQ: the events of one line service. -/
def lineEvents (n : Nat) : List Event := .lineReq :: List.replicate n .seq

/-! ### Traffic through a queue -/

/-- An operation on instance 1 or 2: port P pushes, the consumer pops. -/
inductive QueueOp where
  | push (w : Word)
  | pop
deriving DecidableEq, Repr

/-- What traffic through an instance does: the elements whose `PUSH` answered `OK`, the elements `POP` answered, both
in order, and the state after it. -/
structure Traffic where
  pushed : List Word
  popped : List Word
  after : State
deriving DecidableEq, Repr

/-- The value words of an `OK` response, none for any other. -/
def okValues : Option Response → Option (List Word)
  | some ⟨.ok, vs⟩ => some vs
  | _ => none

/-- Operations on instance q, the consumer popping (40_ring_buffer R138). -/
def queueRun (q : Nat) (consumer : Agent) : List QueueOp → State → Traffic
  | [], s => ⟨[], [], s⟩
  | .push w :: ops, s =>
    let t := nextOr (exec (.push q w) { s with issuer := .p }) s
    let r := queueRun q consumer ops t
    match okValues (respOf t .p) with
    | some _ => { r with pushed := w :: r.pushed }
    | none => r
  | .pop :: ops, s =>
    let t := nextOr (exec (.pop q) { s with issuer := consumer }) s
    let r := queueRun q consumer ops t
    match okValues (respOf t consumer) with
    | some vs => { r with popped := vs ++ r.popped }
    | none => r

/-- An operation on the audio path: port P enqueues four samples, SEQ services a line. -/
inductive AudioOp where
  | enqueue (w0 w1 w2 w3 : Word)
  | line
deriving DecidableEq, Repr

/-- What traffic on the audio path does: the samples whose `AENQ` answered `OK`, the islands `PKT` took from the
queue, both in order, and the state after it. -/
structure AudioTraffic where
  enqueued : List (Word × Word × Word × Word)
  emitted : List Island
  after : State
deriving DecidableEq, Repr

/-- Operations on the audio path (42_av_multiplexer R205). An island came from the queue when `PKT` answered `OK` and
the queue was not empty. -/
def audioRun : List AudioOp → State → AudioTraffic
  | [], s => ⟨[], [], s⟩
  | .enqueue w0 w1 w2 w3 :: ops, s =>
    let t := nextOr (exec (.aenq w0 w1 w2 w3) { s with issuer := .p }) s
    let r := audioRun ops t
    match okValues (respOf t .p) with
    | some _ => { r with enqueued := (w0, w1, w2, w3) :: r.enqueued }
    | none => r
  | .line :: ops, s =>
    let t := audioLine s
    let r := audioRun ops t
    if firedBySeq t && decide (s.q0.head ≠ s.q0.tail) then { r with emitted := t.diOut :: r.emitted } else r

end Sys2Proof.Machine
end

