-- ==== Sys2Proof/Certificates/Slice0/Obligations.lean ====
section
/-! DEFINITION. What the provers are asked: statements about the encoding, the commands, SEQ, the queues, the renderer
and the whole machine, each with the rules of spec/ it formalises. A statement that rests on a log entry says so. -/

open Sys2Proof Sys2Proof.Machine

/-! ### Encoding -/

/-- Decoding the words of a well-formed command gives it back and leaves the words after it (30_encoding R100 to R107,
R110, R111). -/
def Obligations.DecodeEncodeRoundTrip : Prop :=
  ∀ (i : Instr) (rest : List Word), i.wellFormed = true → decode (encode i ++ rest) = .ok (i, rest)

/-- Every word sequence that decodes is the encoding of the command it decodes to, so each command has one word form
(30_encoding R110, R111, R113, R114). -/
def Obligations.DecodedWordsAreTheEncoding : Prop :=
  ∀ (ws : List Word) (i : Instr) (rest : List Word),
    decode ws = .ok (i, rest) → i.wellFormed = true ∧ ws = encode i ++ rest

/-- One word of every unit, written from the formats of 30_encoding R101 to R106, decodes to its command. -/
def Obligations.SpecWordsDecode : Prop :=
  decode [0x0300000A#32] = .ok (.rdreg 10, []) ∧
  decode [0x04000008#32, 0x00016666#32] = .ok (.wrreg 8 0x00016666#32, []) ∧
  decode [0x11100000#32] = .ok (.pop 1, []) ∧
  decode [0x21000005#32] = .ok (.publ 5, []) ∧
  decode [0x32000000#32, 1#32, 2#32, 3#32, 4#32] = .ok (.aenq 1#32 2#32 3#32 4#32, []) ∧
  decode [0x43000000#32] = .ok (.xchk, []) ∧
  decode [0x51200100#32, 0x0000F800#32] = .ok (.mwr 2 0x100 0x0000F800#32, [])

/-- A command word with a reserved `OPC` is answered `ILLEGAL` at once, to the port that gave it, with no state of the
block changed and no operand word consumed (30_encoding R113; 60_exceptions R279). -/
def Obligations.ReservedOpcodeIsIllegal : Prop :=
  ∀ (s : State) (pt : Port) (w : Word) (es : List Event),
    s.inputs = .word pt w :: es → rxOf s pt = [] →
    w.toNat / 2 ^ 24 ∉ [0x00, 0x01, 0x02, 0x03, 0x04, 0x10, 0x11, 0x12, 0x13, 0x20, 0x21, 0x22, 0x23, 0x24, 0x30,
      0x31, 0x32, 0x40, 0x41, 0x42, 0x43, 0x50, 0x51] →
    ∃ t, step s = .next t ∧ respOf t pt.agent = some ⟨.illegal, []⟩ ∧ t.block = s.block ∧ rxOf t pt = [] ∧
      t.inputs = es ∧ (∀ a, a ≠ pt.agent → respOf t a = respOf s a) ∧ (∀ qt, qt ≠ pt → rxOf t qt = rxOf s qt)

/-- The must-be-zero bits of formats Z, R, Q and I: a command word with one of them set is answered `ILLEGAL` to the port
that gave it, and the block, the other ports' waiting words and the other responses do not change; format M has none, so
every word of it decodes. That the answer comes when the last operand word is in is the model's reading (DEDUCED, log
entry 14) (30_encoding R100, R112, R114; 60_exceptions R279). -/
def Obligations.MustBeZeroBitsAreIllegal : Prop :=
  (∀ (s : State) (pt : Port) (w : Word) (ops : List Word) (x : Word) (es : List Event),
    s.inputs = .word pt x :: es → rxOf s pt ++ [x] = w :: ops →
    ((w.toNat / 2 ^ 24 ∈ [0x00, 0x01, 0x02, 0x20, 0x23, 0x24, 0x30, 0x31, 0x40, 0x41, 0x42, 0x43] ∧ ops.length = 0 ∧
        w.toNat % 2 ^ 24 ≠ 0) ∨
      (w.toNat / 2 ^ 24 = 0x32 ∧ ops.length = 4 ∧ w.toNat % 2 ^ 24 ≠ 0) ∨
      (w.toNat / 2 ^ 24 = 0x03 ∧ ops.length = 0 ∧ w.toNat / 2 ^ 8 % 2 ^ 16 ≠ 0) ∨
      (w.toNat / 2 ^ 24 = 0x04 ∧ ops.length = 1 ∧ w.toNat / 2 ^ 8 % 2 ^ 16 ≠ 0) ∨
      (w.toNat / 2 ^ 24 = 0x10 ∧ ops.length = 1 ∧ w.toNat % 2 ^ 20 ≠ 0) ∨
      (w.toNat / 2 ^ 24 ∈ [0x11, 0x12, 0x13] ∧ ops.length = 0 ∧ w.toNat % 2 ^ 20 ≠ 0) ∨
      (w.toNat / 2 ^ 24 ∈ [0x21, 0x22] ∧ ops.length = 0 ∧ w.toNat / 2 ^ 16 % 2 ^ 8 ≠ 0)) →
    ∃ t, step s = .next t ∧ respOf t pt.agent = some ⟨.illegal, []⟩ ∧ t.block = s.block ∧ rxOf t pt = [] ∧
      t.inputs = es ∧ (∀ a, a ≠ pt.agent → respOf t a = respOf s a) ∧ (∀ qt, qt ≠ pt → rxOf t qt = rxOf s qt)) ∧
  (∀ (w x : Word),
    (w.toNat / 2 ^ 24 = 0x50 → decode [w] = .ok (.mrd (w.toNat / 2 ^ 20 % 16) (w.toNat % 2 ^ 20), [])) ∧
    (w.toNat / 2 ^ 24 = 0x51 → decode [w, x] = .ok (.mwr (w.toNat / 2 ^ 20 % 16) (w.toNat % 2 ^ 20) x, [])))

/-! ### A step runs the decoded command -/

/-- The word that completes a command on a port runs that command with the port as its issuer, the port's waiting words
replaced by those after the command (30_encoding R100; 20_memory R85). That a word which does not complete one only waits,
a command word with a must-be-zero bit set among them, without an answer yet, is the model's reading (DEDUCED, log entry
14); the list of events is the model's (log entry 2). -/
def Obligations.StepRunsTheDecodedCommand : Prop :=
  ∀ (s : State) (pt : Port) (w : Word) (es : List Event), s.inputs = .word pt w :: es →
    (∀ (i : Instr) (rest : List Word), decode (rxOf s pt ++ [w]) = .ok (i, rest) → i.wellFormed = true →
      step s = exec i { withRx { s with inputs := es } pt rest with issuer := pt.agent }) ∧
    (∀ n, decode (rxOf s pt ++ [w]) = .error (.wordsToCome n) →
      step s = .next (withRx { s with inputs := es } pt (rxOf s pt ++ [w])))

/-- SEQ's own step, when it is the next event or no event is to come: the command or the position change that stands
next in the line service, and outside one `XCHK` while `seq` is not `RUN`, nothing in `RUN`. A `REND` that is next runs
whole, or access by access: each element read is a step, each pixel put is a step, from the clear through the margins,
the overlay and the source to the publication with its response. At a pixel the clear puts `CLEAR_PIX` on a line it applies
to, the margins `MARGIN_PIX`, both 0; outside the margins the overlay puts its pixel where it covers, and where it does not
the source puts its pixel, for text the glyph's, from the cell's two words. The cut into steps, which of the two
ways an event takes, the draws set aside, the race notes and the dropped line slots are the model's (log entries 1, 2, 4,
7, 8, 13) (44_system_and_memory_ops R251, R252, R257; 43_cross_core R226; 41_scanline_renderer R152, R159 to R165, R170,
R171; 20_memory R80, R89). -/
def Obligations.SeqStepsThroughTheService : Prop :=
  (∀ (s : State) (x : Nat),
    let xs := sourceIndex (horizontal .moe s.act) 256 x
    let ys := sourceIndex (vertical .moe s.act) 240 s.ln.toNat
    let ox := s.act.ovlPos.toNat % 65536
    let oy := s.act.ovlPos.toNat / 65536
    let ow := s.act.ovlSize.toNat % 65536
    let margin : Prop :=
      inMargin (vertical .moe s.act) 480 s.ln.toNat = true ∨ inMargin (horizontal .moe s.act) 640 x = true
    let covered : Prop := s.act.src = .text ∧ s.ovlOk = true ∧
      ox ≤ xs ∧ xs < ox + ow ∧ oy ≤ ys ∧ ys < oy + s.act.ovlSize.toNat / 65536
    let clears : Prop := s.act.src = .text ∧ s.ovlOk = true ∧ s.act.ovlCtrl.toNat / 2 % 2 = 1
    (clears → stagePlan .moe s .clear x = .fill 0#32) ∧ (¬clears → stagePlan .moe s .clear x = .skip) ∧
    (margin → stagePlan .moe s .margin x = .fill 0#32) ∧ (¬margin → stagePlan .moe s .margin x = .skip) ∧
    (¬margin → covered → stagePlan .moe s .overlay x = .copy .ovl ((ys - oy) * ow + (xs - ox))) ∧
    (margin ∨ ¬covered → stagePlan .moe s .overlay x = .skip) ∧
    (¬margin → ¬covered → stagePlan .moe s .source x =
      match s.act.src with
      | .frame => .copy .fb (s.act.bank * 256 * 240 + ys * 256 + xs)
      | .line => .copy .ls (ys % 2 * 256 + xs)
      | .text => if 32 ≤ xs / 8 ∨ 30 ≤ ys / 8 then .skip
          else .glyph (ys / 8 * 32 + xs / 8) (ys / 8) (xs % 8) (ys % 8)) ∧
    (margin ∨ covered → stagePlan .moe s .source x = .skip)) ∧
  (∀ (s : State) (r : RendPos), nextRead .moe s r =
    match stagePlan .moe s r.stage r.x, r.held.length with
    | .copy sp a, 0 => some (sp, a)
    | .glyph cell _ _ _, 0 => some (.txt, 2 * cell)
    | .glyph cell _ _ _, 1 => some (.txt, 2 * cell + 1)
    | _, _ => none) ∧
  (∀ (c : Conf) (p v w : Word) (sp : Space) (a cell row gx gy : Nat),
    planPixel .moe c .skip [] = none ∧ planPixel .moe c (.fill p) [] = some p ∧
    planPixel .moe c (.copy sp a) [v] = some v ∧
    let fg := BitVec.ofNat 32 (w.toNat % 65536)
    let bg := BitVec.ofNat 32 (w.toNat / 65536)
    let lit := (Config.font (v.toNat % 256) gy).getLsbD (7 - gx)
    let selected := decide (c.selrow.toNat / 2147483648 = 1) && decide (c.selrow.toNat % 65536 = row)
    planPixel .moe c (.glyph cell row gx gy) [v, w] =
      some (if selected then (if lit then bg else fg) else (if lit then fg else bg))) ∧
  (∀ (s q : State) (e : Event), e = .seq ∨ e = .seqByAccess →
    s.inputs = [] ∧ e = .seq ∧ q = s ∨ s.inputs = e :: q.inputs ∧ q = { s with inputs := q.inputs } →
    (s.svc = .tick → ∃ t, exec .tick { q with issuer := .seq } = .next t ∧ step s = .next { t with svc := .pkt }) ∧
    (s.svc = .pkt → ∃ t, exec .pkt { q with issuer := .seq } = .next t ∧
      step s = .next { t with svc := if t.vsync then .blank else .rend }) ∧
    (s.svc = .blank → step s = .next (if s.ln.toNat + 1 = 45 then
      { q with vsync := false, ln := 0#16, svc := .finish } else { q with ln := s.ln + 1#16, svc := .finish })) ∧
    (s.svc = .rend → e = .seq → ∃ t, exec .rend { q with issuer := .seq } = .next t ∧
      step s = .next { t with svc := if t.ln.toNat + 1 = 480 then .enter else .advance }) ∧
    (s.svc = .rend → e = .seqByAccess →
      step s = .next { q with draws := s.draws + 2560, svc := .rendering ⟨.clear, 0, [], s.draws⟩ }) ∧
    (∀ r sp addr, s.svc = .rendering r → r.stage ≠ .publish → nextRead .moe s r = some (sp, addr) →
      step s = .next { q with svc := .rendering { r with
        held := r.held ++ [rendRead .moe s sp addr (r.base + 4 * r.x + 2 * r.held.length)] } }) ∧
    (∀ r after, s.svc = .rendering r → nextRead .moe s r = none →
      (r.stage, after) ∈ [(RendStage.clear, RendStage.margin), (.margin, .overlay), (.overlay, .source),
        (.source, .publish)] → ∃ m,
      step s = .next { q with
        lb := m
        svc := .rendering (if r.x + 1 < 640 then ⟨r.stage, r.x + 1, [], r.base⟩ else ⟨after, 0, [], r.base⟩) } ∧
      (∀ p, planPixel .moe s.act (stagePlan .moe s r.stage r.x) r.held = some p →
        memRead m (640 * s.lbWr.toNat + r.x) = some (putValue .moe s p) ∧
        ∀ a, a ≠ 640 * s.lbWr.toNat + r.x → memRead m a = memRead s.lb a) ∧
      (planPixel .moe s.act (stagePlan .moe s r.stage r.x) r.held = none → m = s.lb)) ∧
    (∀ r, s.svc = .rendering r → r.stage = .publish →
      step s = .next { q with
        issuer := .seq, lbPub := s.lbWr, lbSeq := s.lbSeq + 1#16, lbWr := !s.lbWr, respS := some ⟨.ok, []⟩
        svc := if s.ln.toNat + 1 = 480 then .enter else .advance }) ∧
    (s.svc = .advance → step s = .next { q with ln := s.ln + 1#16, svc := .finish }) ∧
    (s.svc = .enter → step s = .next { q with vsync := true, ln := 0#16, svc := .count }) ∧
    (s.svc = .count → step s = .next { q with framecnt := s.framecnt + 1#32, svc := .latch }) ∧
    (s.svc = .latch → step s = .next { q with act := s.pend, lb := if modeChanges s then [] else s.lb, svc := .check }) ∧
    (s.svc = .check → step s = .next { q with ovlOk := overlayCheck .moe s.act, svc := .xchk }) ∧
    (s.svc = .xchk → ∃ t, exec .xchk { q with issuer := .seq } = .next t ∧ step s = .next { t with svc := .finish }) ∧
    (s.svc = .finish → step s = .next { q with busy := false, svc := .idle, raced := [] }) ∧
    (s.svc = .idle → s.seq ≠ .run → ∃ t, exec .xchk { q with issuer := .seq } = .next t ∧
      step s = .next { t with svc := .idle }) ∧
    (s.svc = .idle → s.seq = .run → step s = .next q))

/-! ### Every command: completion, refusals, responses -/

/-- Every command, from any issuer and in any state, ends with a next state and a response to its issuer, with the
value words the opcode map gives on `OK` and none on any other status, and no other agent's response changes; and from
every state the block goes on (30_encoding R108, R110; 60_exceptions R272, R299). -/
def Obligations.EveryCommandAnswersAndNothingIsFatal : Prop :=
  (∀ (i : Instr) (s : State), ∃ t r, exec i s = .next t ∧ respOf t s.issuer = some r ∧
    r.values.length = (if r.status = .ok then valueWords i else 0) ∧ ∀ a, a ≠ s.issuer → respOf t a = respOf s a) ∧
  (∀ s : State, ∃ t, step s = .next t)

/-- A response other than `OK` and `NOTDUE` means the command changed nothing: the next state is the state with that
response and no other difference (30_encoding R109; 60_exceptions R272). -/
def Obligations.RefusalsAndOutcomesChangeNothing : Prop :=
  ∀ (i : Instr) (s t : State) (r : Response), exec i s = .next t → respOf t s.issuer = some r →
    r.status ≠ .ok → r.status ≠ .notDue → r.values = [] ∧ t = respond r.status [] s

/-- An agent outside a command's ports column is refused with `PORT`, whatever the fields hold, so before any `RANGE` or
`RO`; the internal commands are refused on every port (30_encoding R110, R112 step 3, R115; 60_exceptions R281). -/
def Obligations.PortRightsAreChecked : Prop :=
  (∀ (i : Instr) (s : State), s.issuer ∉ portsOf i → exec i s = .next (respond .port [] s)) ∧
  (∀ (i : Instr) (s : State), i ∈ [Instr.rend, .tick, .pkt, .xchk] → s.issuer ≠ .seq →
    exec i s = .next (respond .port [] s))

/-- The fields that name nothing: `RANGE` for a register, queue, bank, space or address that does not exist, before
`PORT` for the pair of port and queue and before `RO` (30_encoding R112 steps 4 to 5; 60_exceptions R282, R285, R286). -/
def Obligations.RangeAndReadOnlyRefusals : Prop :=
  ∀ (s : State) (w : Word), s.issuer = .p →
    (∀ reg, 0x14 ≤ reg → reg < 0x20 ∨ 0x26 ≤ reg → exec (.rdreg reg) s = .next (respond .range [] s) ∧
      exec (.wrreg reg w) s = .next (respond .range [] s)) ∧
    (∀ reg ∈ [0x00, 0x01, 0x02, 0x03, 0x05, 0x09, 0x0F, 0x10, 0x11, 0x12, 0x13, 0x20, 0x21, 0x22, 0x23, 0x24, 0x25],
      exec (.wrreg reg w) s = .next (respond .ro [] s)) ∧
    (∀ q, 3 ≤ q → exec (.push q w) s = .next (respond .range [] s) ∧ exec (.free q) s = .next (respond .range [] s) ∧
      exec (.used q) s = .next (respond .range [] s)) ∧
    exec (.push 0 w) s = .next (respond .port [] s) ∧
    (∀ idx, 2 ≤ idx → exec (.pubf idx) s = .next (respond .range [] s)) ∧
    (∀ space addr, 7 ≤ space → exec (.mrd space addr) s = .next (respond .range [] s) ∧
      exec (.mwr space addr w) s = .next (respond .range [] s)) ∧
    (∀ spaceSz ∈ [(0, 1920), (1, 122880), (2, 512), (3, 61440), (4, 1280), (5, 1728), (6, 2048)],
      ∀ addr, spaceSz.2 ≤ addr → exec (.mrd spaceSz.1 addr) s = .next (respond .range [] s) ∧
        exec (.mwr spaceSz.1 addr w) s = .next (respond .range [] s)) ∧
    (∀ spaceSz ∈ [(4, 1280), (5, 1728), (6, 2048)],
      ∀ addr, addr < spaceSz.2 → exec (.mwr spaceSz.1 addr w) s = .next (respond .ro [] s))

/-- The queue checks of the consumer ports: a queue that does not exist is `RANGE`, a queue of the other consumer or of
SEQ is `PORT` (40_ring_buffer R135 to R137; 30_encoding R112 steps 4 and 4a). -/
def Obligations.ConsumersReachOnlyTheirQueue : Prop :=
  ∀ (s : State) (own q : Nat), s.issuer = .c1 ∧ own = 1 ∨ s.issuer = .c2 ∧ own = 2 →
    (3 ≤ q → exec (.pop q) s = .next (respond .range [] s) ∧ exec (.free q) s = .next (respond .range [] s) ∧
      exec (.used q) s = .next (respond .range [] s)) ∧
    (q < 3 → q ≠ own → exec (.pop q) s = .next (respond .port [] s) ∧ exec (.free q) s = .next (respond .port [] s) ∧
      exec (.used q) s = .next (respond .port [] s))

/-! ### System commands -/

/-- `NOP` on each port answers `OK` and changes nothing else (44_system_and_memory_ops R240). -/
def Obligations.NopOnlyAnswers : Prop :=
  ∀ s : State,
    (s.issuer = .p → exec .nop s = .next { s with respP := some ⟨.ok, []⟩ }) ∧
    (s.issuer = .c1 → exec .nop s = .next { s with respC1 := some ⟨.ok, []⟩ }) ∧
    (s.issuer = .c2 → exec .nop s = .next { s with respC2 := some ⟨.ok, []⟩ })

/-- `START` sets and `STOP` clears `run_req`, in every state of SEQ, and nothing else changes
(44_system_and_memory_ops R241, R242). -/
def Obligations.StartAndStopMoveTheRunRequest : Prop :=
  ∀ s : State, s.issuer = .p →
    exec .start s = .next { s with runReq := true, respP := some ⟨.ok, []⟩ } ∧
    exec .stop s = .next { s with runReq := false, respP := some ⟨.ok, []⟩ }

/-- `RDREG` of every register of the map gives its fields at one instant, a deferred register its pending copy, and
changes nothing (44_system_and_memory_ops R243; 10_state R49 to R69). That `SRC` shows the lowest bit of a bank number above
1, which no sound state of this hardware holds, is the model's choice (log entry 15). -/
def Obligations.RdregReadsEveryRegister : Prop :=
  ∀ s : State, s.issuer = .p →
    ∀ regVal ∈ [(0x00, seqCode s.seq + 4 * s.vsync.toNat + 8 * s.busy.toNat + 16 * s.xreq.toNat + 32 * s.xgnt.toNat +
        64 * s.runReq.toNat + 128 * s.txRun.toNat + 256 * s.txIdle.toNat + 512 * s.ovlOk.toNat + 1024 * s.diValid.toNat),
      (0x01, s.fault.toNat % 2), (0x02, s.ln.toNat + 65536 * s.vsync.toNat), (0x03, s.framecnt.toNat),
      (0x04, s.pend.mode.toNat),
      (0x05, sourceCode s.act.src + 4 * sourceCode s.pend.src + 16 * (s.act.bank % 2) + 32 * (s.pend.bank % 2)),
      (0x06, s.pend.marginH.toNat), (0x07, s.pend.marginV.toNat), (0x08, s.pend.spl.toNat), (0x09, s.acc.toNat),
      (0x0A, s.hwm.toNat), (0x0B, s.pend.selrow.toNat), (0x0C, s.pend.ovlCtrl.toNat), (0x0D, s.pend.ovlPos.toNat),
      (0x0E, s.pend.ovlSize.toNat), (0x0F, s.encEs.toNat), (0x10, s.silIdx.toNat),
      (0x11, s.lbWr.toNat + 2 * s.lbPub.toNat + 65536 * s.lbSeq.toNat),
      (0x12, s.ls0.tag.toNat + 2147483648 * s.ls0.seen.toNat), (0x13, s.ls1.tag.toNat + 2147483648 * s.ls1.seen.toNat),
      (0x20, s.q0.head), (0x21, s.q0.tail), (0x22, s.q1.head), (0x23, s.q1.tail), (0x24, s.q2.head), (0x25, s.q2.tail)],
    exec (.rdreg regVal.1) s = .next { s with respP := some ⟨.ok, [BitVec.ofNat 32 regVal.2]⟩ }

/-- `WRREG` of every writable register writes its defined bits, at once for `HWM`, to the pending copy alone for the
deferred registers, and nothing else changes (44_system_and_memory_ops R244; 10_state R49, R50, R55 to R65). -/
def Obligations.WrregWritesDefinedBits : Prop :=
  ∀ (s : State) (w : Word), s.issuer = .p →
    exec (.wrreg 0x04 w) s =
      .next { s with pend := { s.pend with mode := w &&& 0x00000003#32 }, respP := some ⟨.ok, []⟩ } ∧
    exec (.wrreg 0x06 w) s = .next { s with pend := { s.pend with marginH := w }, respP := some ⟨.ok, []⟩ } ∧
    exec (.wrreg 0x07 w) s = .next { s with pend := { s.pend with marginV := w }, respP := some ⟨.ok, []⟩ } ∧
    exec (.wrreg 0x08 w) s = .next { s with pend := { s.pend with spl := w }, respP := some ⟨.ok, []⟩ } ∧
    exec (.wrreg 0x0A w) s = .next { s with hwm := w, respP := some ⟨.ok, []⟩ } ∧
    exec (.wrreg 0x0B w) s =
      .next { s with pend := { s.pend with selrow := w &&& 0x8000FFFF#32 }, respP := some ⟨.ok, []⟩ } ∧
    exec (.wrreg 0x0C w) s =
      .next { s with pend := { s.pend with ovlCtrl := w &&& 0x00000003#32 }, respP := some ⟨.ok, []⟩ } ∧
    exec (.wrreg 0x0D w) s = .next { s with pend := { s.pend with ovlPos := w }, respP := some ⟨.ok, []⟩ } ∧
    exec (.wrreg 0x0E w) s = .next { s with pend := { s.pend with ovlSize := w }, respP := some ⟨.ok, []⟩ }

/-! ### Memory commands -/

/-- `MRD` of an element that exists answers `OK` with the element's value: what was last written, a word of a silence
island, a glyph row; nothing changes but the count of draws. The value of an element never written is any value that fits
the element's width, the model's free value (log entry 1)
(44_system_and_memory_ops R246; 20_memory R74, R75, R83, R84). -/
def Obligations.MrdAnswersTheElement : Prop :=
  ∀ (s : State) (addr : Nat), s.issuer = .p →
    (∀ numSz ∈ [(0, 1920, 32, s.txt), (1, 122880, 16, s.fb), (2, 512, 16, s.ls), (3, 61440, 16, s.ovl),
        (4, 1280, 16, s.lb)],
      addr < numSz.2.1 → ∃ v d, exec (.mrd numSz.1 addr) s = .next { s with draws := d, respP := some ⟨.ok, [v]⟩ } ∧
        (∀ x, memRead numSz.2.2.2 addr = some x → v = x ∧ d = s.draws) ∧
        (memRead numSz.2.2.2 addr = none → v.toNat < 2 ^ numSz.2.2.1)) ∧
    (∀ (i : Nat) (k : Fin 36), i < 48 →
      exec (.mrd 5 (36 * i + k.val)) s =
        .next { s with respP := some ⟨.ok, [(Config.encoder.enc 0#32 0#32 0#32 0#32 i)[k]]⟩ }) ∧
    (∀ ch gy : Nat, ch < 256 → gy < 8 →
      exec (.mrd 6 (8 * ch + gy)) s =
        .next { s with respP := some ⟨.ok, [BitVec.ofNat 32 ((Config.font ch gy).toNat % 256)]⟩ })

/-- `MWR` of an element of `TXT`, `FB`, `LS` or `OVL` stores the low bits of the operand that fit the element, leaves
every other element of every space, every register and flag, and answers `OK`; during a line service the model also
notes the value before (log entry 7) (44_system_and_memory_ops R247; 20_memory R75, R84, R89). -/
def Obligations.MwrStoresOneElement : Prop :=
  ∀ (s : State) (addr : Nat) (w : Word), s.issuer = .p →
    (addr < 1920 → ∃ m,
      exec (.mwr 0 addr w) s = .next { s with
        txt := m, respP := some ⟨.ok, []⟩
        raced := if s.busy then ⟨.txt, addr, memRead s.txt addr⟩ :: s.raced else s.raced } ∧
      memRead m addr = some w ∧ ∀ a, a ≠ addr → memRead m a = memRead s.txt a) ∧
    (addr < 122880 → ∃ m,
      exec (.mwr 1 addr w) s = .next { s with
        fb := m, respP := some ⟨.ok, []⟩
        raced := if s.busy then ⟨.fb, addr, memRead s.fb addr⟩ :: s.raced else s.raced } ∧
      memRead m addr = some (w &&& 0xFFFF#32) ∧ ∀ a, a ≠ addr → memRead m a = memRead s.fb a) ∧
    (addr < 512 → ∃ m,
      exec (.mwr 2 addr w) s = .next { s with
        ls := m, respP := some ⟨.ok, []⟩
        raced := if s.busy then ⟨.ls, addr, memRead s.ls addr⟩ :: s.raced else s.raced } ∧
      memRead m addr = some (w &&& 0xFFFF#32) ∧ ∀ a, a ≠ addr → memRead m a = memRead s.ls a) ∧
    (addr < 61440 → ∃ m,
      exec (.mwr 3 addr w) s = .next { s with
        ovl := m, respP := some ⟨.ok, []⟩
        raced := if s.busy then ⟨.ovl, addr, memRead s.ovl addr⟩ :: s.raced else s.raced } ∧
      memRead m addr = some (w &&& 0xFFFF#32) ∧ ∀ a, a ≠ addr → memRead m a = memRead s.ovl a)

/-! ### Ring buffer -/

/-- `PUSH` on instances 1 and 2: with room, the element stands in slot `head`, every other slot keeps its value, `head`
moves on modulo N and the answer is `OK`; when full the answer is `FULL` and nothing changes
(40_ring_buffer R130, R131, R134; 60_exceptions R273). -/
def Obligations.PushStoresOrAnswersFull : Prop :=
  ∀ (s : State) (w : Word), s.issuer = .p →
    ((s.q1.head + 1) % 1024 ≠ s.q1.tail → ∃ b,
      exec (.push 1 w) s =
        .next { s with q1 := ⟨(s.q1.head + 1) % 1024, s.q1.tail, b⟩, respP := some ⟨.ok, []⟩ } ∧
      memRead b s.q1.head = some w ∧ ∀ k, k ≠ s.q1.head → memRead b k = memRead s.q1.buf k) ∧
    ((s.q1.head + 1) % 1024 = s.q1.tail → exec (.push 1 w) s = .next { s with respP := some ⟨.full, []⟩ }) ∧
    ((s.q2.head + 1) % 1024 ≠ s.q2.tail → ∃ b,
      exec (.push 2 w) s =
        .next { s with q2 := ⟨(s.q2.head + 1) % 1024, s.q2.tail, b⟩, respP := some ⟨.ok, []⟩ } ∧
      memRead b s.q2.head = some w ∧ ∀ k, k ≠ s.q2.head → memRead b k = memRead s.q2.buf k) ∧
    ((s.q2.head + 1) % 1024 = s.q2.tail → exec (.push 2 w) s = .next { s with respP := some ⟨.full, []⟩ })

/-- `POP` on the consumer's own instance: with an element waiting, the value of slot `tail`, `tail` moves on modulo N
and the slots stay; when empty the answer is `EMPTY` with no value word and nothing changes. A slot never written, which
no sound state has at `tail`, would answer the model's free value (log entry 1)
(40_ring_buffer R130, R132, R135; 60_exceptions R274). -/
def Obligations.PopTakesOrAnswersEmpty : Prop :=
  ∀ s : State,
    (s.issuer = .c1 → s.q1.head ≠ s.q1.tail → ∃ v d,
      exec (.pop 1) s = .next { s with
        q1 := ⟨s.q1.head, (s.q1.tail + 1) % 1024, s.q1.buf⟩, draws := d, respC1 := some ⟨.ok, [v]⟩ } ∧
      ∀ x, memRead s.q1.buf s.q1.tail = some x → v = x ∧ d = s.draws) ∧
    (s.issuer = .c1 → s.q1.head = s.q1.tail → exec (.pop 1) s = .next { s with respC1 := some ⟨.empty, []⟩ }) ∧
    (s.issuer = .c2 → s.q2.head ≠ s.q2.tail → ∃ v d,
      exec (.pop 2) s = .next { s with
        q2 := ⟨s.q2.head, (s.q2.tail + 1) % 1024, s.q2.buf⟩, draws := d, respC2 := some ⟨.ok, [v]⟩ } ∧
      ∀ x, memRead s.q2.buf s.q2.tail = some x → v = x ∧ d = s.draws) ∧
    (s.issuer = .c2 → s.q2.head = s.q2.tail → exec (.pop 2) s = .next { s with respC2 := some ⟨.empty, []⟩ })

/-- `USED` and `FREE` of every instance, from port P and from the instance's consumer, answer the number waiting and the
number still fitting, whose sum is N - 1, and change nothing (40_ring_buffer R136, R137, R138 a). -/
def Obligations.UsedAndFreeAddUp : Prop :=
  ∀ (s : State), s.q0.tail < 256 → s.q1.tail < 1024 → s.q2.tail < 1024 →
    ∀ qnu ∈ [(0, 256, (s.q0.head + 256 - s.q0.tail) % 256), (1, 1024, (s.q1.head + 1024 - s.q1.tail) % 1024),
        (2, 1024, (s.q2.head + 1024 - s.q2.tail) % 1024)],
      s.issuer = .p ∨ s.issuer = .c1 ∧ qnu.1 = 1 ∨ s.issuer = .c2 ∧ qnu.1 = 2 →
      ∃ u f, u = qnu.2.2 ∧ u + f = qnu.2.1 - 1 ∧
        exec (.used qnu.1) s = .next (respond .ok [BitVec.ofNat 32 u] s) ∧
        exec (.free qnu.1) s = .next (respond .ok [BitVec.ofNat 32 f] s)

/-- The two ring procedures on a sound buffer act on the list of waiting elements as a queue: push fails exactly with
N - 1 waiting and else appends, pop fails exactly with none waiting and else takes the oldest; both keep the buffer
sound (40_ring_buffer R130 to R132, R138 b, c, d, e). -/
def Obligations.RingBufferIsAQueue : Prop :=
  ∀ (α : Type) (n : Nat) (r : Machine.Ring α) (x : α), 2 ≤ n → RingSound n r →
    (rbPush n r x = none ↔ (ringItems n r).length = n - 1) ∧
    (∀ r', rbPush n r x = some r' → RingSound n r' ∧ ringItems n r' = ringItems n r ++ [some x]) ∧
    (rbPop n r = none ↔ ringItems n r = []) ∧
    (∀ o r', rbPop n r = some (o, r') → RingSound n r' ∧ o.isSome = true ∧ ringItems n r = o :: ringItems n r')

/-- First in, first out, for any traffic on instance 1 or 2: the elements whose `PUSH` answered `OK` are, in order, those
`POP` answered and then those still waiting (40_ring_buffer R138 d, e). -/
def Obligations.PopsReturnPushesInOrder : Prop :=
  ∀ (ops : List QueueOp) (s : State),
    (RingSound 1024 s.q1 → s.q1.head = s.q1.tail →
      let r := queueRun 1 .c1 ops s
      r.pushed.map some = r.popped.map some ++ ringItems 1024 r.after.q1 ∧
        r.pushed.length = r.popped.length + occupied 1024 r.after.q1) ∧
    (RingSound 1024 s.q2 → s.q2.head = s.q2.tail →
      let r := queueRun 2 .c2 ops s
      r.pushed.map some = r.popped.map some ++ ringItems 1024 r.after.q2 ∧
        r.pushed.length = r.popped.length + occupied 1024 r.after.q2)

/-! ### Multiplexer -/

/-- `TICK` adds the active `spl` to the accumulator modulo 2^32 and changes nothing else (42_av_multiplexer R195). -/
def Obligations.TickAdvancesTheAccumulator : Prop :=
  ∀ s : State, s.issuer = .seq →
    exec .tick s = .next { s with
      acc := BitVec.ofNat 32 ((s.acc.toNat + s.act.spl.toNat) % 2 ^ 32), respS := some ⟨.ok, []⟩ }

/-- `PKT`: below the threshold no island and `NOTDUE`; at or above it the threshold is subtracted and the island out is
the queue's oldest, or with the queue empty the next silence island, and nothing else changes. A slot never written,
which no sound state has at `tail`, would give the model's free words (log entry 1)
(42_av_multiplexer R194, R196; 60_exceptions R278, R296). -/
def Obligations.PktEmitsWhenDue : Prop :=
  ∀ s : State, s.issuer = .seq →
    (s.acc.toNat < 0x40000 → exec .pkt s = .next { s with diValid := false, respS := some ⟨.notDue, []⟩ }) ∧
    (0x40000 ≤ s.acc.toNat → s.q0.head ≠ s.q0.tail → ∃ isl d,
      exec .pkt s = .next { s with
        acc := BitVec.ofNat 32 (s.acc.toNat - 0x40000), q0 := ⟨s.q0.head, (s.q0.tail + 1) % 256, s.q0.buf⟩
        diOut := isl, diValid := true, draws := d, respS := some ⟨.ok, isl.toList⟩ } ∧
      ∀ x, memRead s.q0.buf s.q0.tail = some x → isl = x ∧ d = s.draws) ∧
    (0x40000 ≤ s.acc.toNat → s.q0.head = s.q0.tail → ∃ isl,
      isl = Config.encoder.enc 0#32 0#32 0#32 0#32 s.silIdx.toNat ∧
      exec .pkt s = .next { s with
        acc := BitVec.ofNat 32 (s.acc.toNat - 0x40000), silIdx := BitVec.ofNat 8 ((s.silIdx.toNat + 1) % 48)
        diOut := isl, diValid := true, respS := some ⟨.ok, isl.toList⟩ })

/-- `AENQ`: at or above the watermark `HWM`, else full `FULL`, with nothing changed; else `ENC` of the four operands and
`enc_es` stands in slot `head`, `head` and `enc_es` move on, and nothing else changes; so the island's framing flag is
that of `enc_es` and its samples are the operands
(42_av_multiplexer R193 E2, E3, R198, R199; 60_exceptions R273, R275, R286). -/
def Obligations.AenqQueuesAnIsland : Prop :=
  ∀ (s : State) (w0 w1 w2 w3 : Word), s.issuer = .p →
    (s.hwm.toNat ≤ occupied 256 s.q0 → exec (.aenq w0 w1 w2 w3) s = .next { s with respP := some ⟨.hwm, []⟩ }) ∧
    (occupied 256 s.q0 < s.hwm.toNat → (s.q0.head + 1) % 256 = s.q0.tail →
      exec (.aenq w0 w1 w2 w3) s = .next { s with respP := some ⟨.full, []⟩ }) ∧
    (occupied 256 s.q0 < s.hwm.toNat → (s.q0.head + 1) % 256 ≠ s.q0.tail → ∃ b,
      exec (.aenq w0 w1 w2 w3) s = .next { s with
        q0 := ⟨(s.q0.head + 1) % 256, s.q0.tail, b⟩, encEs := BitVec.ofNat 8 ((s.encEs.toNat + 1) % 48)
        respP := some ⟨.ok, []⟩ } ∧
      memRead b s.q0.head = some (Config.encoder.enc w0 w1 w2 w3 s.encEs.toNat) ∧
      ∀ k, k ≠ s.q0.head → memRead b k = memRead s.q0.buf k) ∧
    (s.encEs.toNat < 48 →
      Config.encoder.flag (Config.encoder.enc w0 w1 w2 w3 s.encEs.toNat) = (s.encEs.toNat % 2 == 1) ∧
      Config.encoder.dec (Config.encoder.enc w0 w1 w2 w3 s.encEs.toNat) = (w0, w1, w2, w3))

/-- No drift: with a legal constant `spl`, over L serviced lines exactly `(spl * L + acc0) div THRESH` islands are due
and the accumulator ends at `(spl * L + acc0) mod THRESH` (42_av_multiplexer R200). -/
def Obligations.NoAudioDrift : Prop :=
  ∀ (s : State) (L : Nat), s.act.spl.toNat ≤ 0x40000 → s.acc.toNat < 0x40000 →
    (audioLines L s).1 = (s.act.spl.toNat * L + s.acc.toNat) / 0x40000 ∧
    (audioLines L s).2.acc.toNat = (s.act.spl.toNat * L + s.acc.toNat) % 0x40000

/-- Silence rotation: while the queue is empty the n-th island emitted is entry `(s + n) mod SIL_K` of the silence table
and its framing flag is `(s + n) mod 2`, across any number of rotations (42_av_multiplexer R194, R201). -/
def Obligations.SilenceRotates : Prop :=
  ∀ (s : State) (L : Nat), s.q0.head = s.q0.tail → s.silIdx.toNat < 48 →
    let r := audioLines L s
    r.2.silIdx.toNat = (s.silIdx.toNat + r.1) % 48 ∧
    (firedBySeq (audioLine r.2) = true →
      (audioLine r.2).diOut = Config.encoder.enc 0#32 0#32 0#32 0#32 ((s.silIdx.toNat + r.1) % 48) ∧
      Config.encoder.flag (audioLine r.2).diOut = ((s.silIdx.toNat + r.1) % 2 == 1))

/-- Order of audio: for any traffic of `AENQ` and serviced lines from an empty queue, the samples accepted are, in order
and each once, those of the islands emitted from the queue and then of those still waiting (42_av_multiplexer R205). -/
def Obligations.AudioComesOutInOrder : Prop :=
  ∀ (ops : List AudioOp) (s : State), RingSound 256 s.q0 → s.q0.head = s.q0.tail → s.encEs.toNat < 48 →
    let r := audioRun ops s
    r.enqueued.map some =
      r.emitted.map (fun isl => some (Config.encoder.dec isl)) ++
        (ringItems 256 r.after.q0).map (Option.map Config.encoder.dec)

/-! ### Renderer: publishing and the vsync flag -/

/-- `PUBL` tags the slot of its index and selects the line stream, `PUBF` below 2 selects a framebuffer bank, `PUBT` the
text grid; all three in the pending copy only, and nothing else changes (41_scanline_renderer R172, R173, R174). -/
def Obligations.PublishSelectsThePendingSource : Prop :=
  ∀ s : State, s.issuer = .p →
    (∀ idx, idx % 2 = 0 → exec (.publ idx) s = .next { s with
      ls0 := ⟨BitVec.ofNat 16 idx, true⟩, pend := { s.pend with src := .line }, respP := some ⟨.ok, []⟩ }) ∧
    (∀ idx, idx % 2 = 1 → exec (.publ idx) s = .next { s with
      ls1 := ⟨BitVec.ofNat 16 idx, true⟩, pend := { s.pend with src := .line }, respP := some ⟨.ok, []⟩ }) ∧
    (∀ idx, idx < 2 → exec (.pubf idx) s = .next { s with
      pend := { s.pend with bank := idx, src := .frame }, respP := some ⟨.ok, []⟩ }) ∧
    exec .pubt s = .next { s with pend := { s.pend with src := .text }, respP := some ⟨.ok, []⟩ }

/-- `VSTAT` answers the vsync flag and `XSTAT` the request state, 0 to 3, and both change nothing
(41_scanline_renderer R175; 43_cross_core R220, R223). -/
def Obligations.PollsAnswerTheirFlags : Prop :=
  ∀ s : State, s.issuer = .p →
    exec .vstat s = .next { s with respP := some ⟨.ok, [if s.vsync then 1#32 else 0#32]⟩ } ∧
    exec .xstat s = .next { s with respP := some ⟨.ok, [
      if s.xreq then (if s.xgnt then 2#32 else 1#32) else (if s.xgnt then 3#32 else 0#32)]⟩ }

/-! ### Renderer: the line -/

/-- `REND` answers `OK`, publishes the slot it filled and frees the other, counts the line, writes no element outside its
slot, and leaves everything else. A `REND` that is next and is taken access by access, with only SEQ's own steps as
events, ends after finitely many of them with the state that `REND` as one step leaves, `LB` element by element, and with
the place after it. For an element never written, or written during the service, the two agree, and so do their counts of
draws, because the model sets equal draws aside for both and gives equal draws equal free values and equal choices (log
entries 1 and 7). The cut into accesses and the event that asks for it are the model's too (log entries 2 and 8)
(41_scanline_renderer R152, R170, R171; 44_system_and_memory_ops R251; 20_memory R89). -/
def Obligations.RendFillsAndPublishesOneSlot : Prop :=
  (∀ s : State, s.issuer = .seq → ∃ m d,
    exec .rend s = .next { s with
      lb := m, lbPub := s.lbWr, lbSeq := s.lbSeq + 1#16, lbWr := !s.lbWr, draws := d, respS := some ⟨.ok, []⟩ } ∧
    ∀ a, (a < 640 * s.lbWr.toNat ∨ 640 * s.lbWr.toNat + 640 ≤ a) → memRead m a = memRead s.lb a) ∧
  (∀ s : State, s.svc = .rend → ∃ k t m,
    exec .rend { s with issuer := .seq } = .next t ∧ (∀ a, memRead m a = memRead t.lb a) ∧
    ∀ es, steps (k + 1) { s with inputs := .seqByAccess :: (List.replicate k .seq ++ es) } =
      .next { t with lb := m, inputs := es, svc := if s.ln.toNat + 1 = 480 then .enter else .advance })

/-- In 1:1 mode the maps are division by the duplication factor, and every source pixel is shown exactly `HDUP` times on
exactly `VDUP` lines; with this hardware's values the margins are 64 and 64 pixels and no lines
(41_scanline_renderer R157). -/
def Obligations.OneToOneMaps : Prop :=
  (∀ (P : Params) (c : Conf), P.ok = true → aspect c = false →
    let h := horizontal P c
    let v := vertical P c
    (∀ x, x < P.wOut → inMargin h P.wOut x = false → sourceIndex h P.wSrc x = (x - h.lead) / (P.wOut / P.wSrc)) ∧
    (∀ y, y < P.vActive → inMargin v P.vActive y = false →
      sourceIndex v P.hSrc y = (y - v.lead) / (P.vActive / P.hSrc)) ∧
    (∀ xs, xs < P.wSrc →
      ((List.range P.wOut).filter fun x => !inMargin h P.wOut x && decide (sourceIndex h P.wSrc x = xs)).length =
        P.wOut / P.wSrc) ∧
    (∀ ys, ys < P.hSrc →
      ((List.range P.vActive).filter fun y => !inMargin v P.vActive y && decide (sourceIndex v P.hSrc y = ys)).length =
        P.vActive / P.hSrc)) ∧
  (∀ c : Conf, aspect c = false → horizontal .moe c = ⟨64, 64, 512⟩ ∧ vertical .moe c = ⟨0, 0, 480⟩)

/-- The horizontal map outside the margins: never decreasing, inside the source, 0 at the first drawn pixel, and
`W_SRC - 1` at the last when the drawn width is at least the source's; the vertical map likewise
(41_scanline_renderer R155, R156; 44_system_and_memory_ops R259 g). -/
def Obligations.ScalingMapsStayInTheSource : Prop :=
  ∀ (P : Params) (c : Conf), P.ok = true →
    ∀ e out src, (e = horizontal P c ∧ out = P.wOut ∧ src = P.wSrc ∨ e = vertical P c ∧ out = P.vActive ∧ src = P.hSrc) →
      (∀ x, x < out → inMargin e out x = false → e.lead ≤ x ∧ sourceIndex e src x = (x - e.lead) * src / e.drawn ∧
        sourceIndex e src x < src) ∧
      (∀ x x', x ≤ x' → x' < out → inMargin e out x = false → inMargin e out x' = false →
        sourceIndex e src x ≤ sourceIndex e src x') ∧
      (0 < e.drawn → sourceIndex e src e.lead = 0 ∧
        (src ≤ e.drawn → sourceIndex e src (e.lead + e.drawn - 1) = src - 1))

/-- In aspect mode the margins are the registers' fields, the drawn size what they leave and 0 when they leave nothing. A
margin pixel, and every pixel of a margin line, holds `MARGIN_PIX`, which is 0 and stays 0 when darkened; with margins
that leave nothing every pixel is one (41_scanline_renderer R153, R154, R158, R169; 10_state R57, R58). -/
def Obligations.MarginsAreMarginPix : Prop :=
  (∀ c : Conf, c.mode.toNat % 2 = 1 →
    horizontal .moe c = ⟨c.marginH.toNat % 65536, c.marginH.toNat / 65536,
      640 - (c.marginH.toNat % 65536 + c.marginH.toNat / 65536)⟩ ∧
    vertical .moe c = ⟨c.marginV.toNat % 65536, c.marginV.toNat / 65536,
      480 - (c.marginV.toNat % 65536 + c.marginV.toNat / 65536)⟩) ∧
  (∀ s : State, s.issuer = .seq → ∃ t, exec .rend s = .next t ∧
    ∀ x, x < 640 →
      (inMargin (vertical .moe s.act) 480 s.ln.toNat = true ∨ inMargin (horizontal .moe s.act) 640 x = true →
        memRead t.lb (640 * s.lbWr.toNat + x) = some 0#32) ∧
      (s.act.mode.toNat % 2 = 1 → (640 ≤ s.act.marginH.toNat % 65536 + s.act.marginH.toNat / 65536 ∨
          480 ≤ s.act.marginV.toNat % 65536 + s.act.marginV.toNat / 65536) →
        memRead t.lb (640 * s.lbWr.toNat + x) = some 0#32))

/-- A drawn pixel of the framebuffer and of the line-stream source is the element the maps and the bank or the line
parity address, darkened on odd lines when `MODE.SCAN` is set
(41_scanline_renderer R159, R160, R168, R169, R170; 20_memory R81, R82). -/
def Obligations.RendShowsFrameAndLine : Prop :=
  ∀ (s : State) (x : Nat) (p : Word), s.issuer = .seq → s.raced = [] → x < 640 → s.ln.toNat < 480 →
    inMargin (vertical .moe s.act) 480 s.ln.toNat = false → inMargin (horizontal .moe s.act) 640 x = false →
    p.toNat < 65536 →
    let xs := sourceIndex (horizontal .moe s.act) 256 x
    let ys := sourceIndex (vertical .moe s.act) 240 s.ln.toNat
    (s.act.src = .frame ∧ memRead s.fb (s.act.bank * 256 * 240 + ys * 256 + xs) = some p ∨
      s.act.src = .line ∧ memRead s.ls (ys % 2 * 256 + xs) = some p) →
    ∃ t, exec .rend s = .next t ∧
      memRead t.lb (640 * s.lbWr.toNat + x) =
        some (if s.act.mode.toNat / 2 % 2 = 1 ∧ s.ln.toNat % 2 = 1 then (p >>> 1) &&& 0x7BEF#32 else p)

/-- A drawn pixel of the text source outside the overlay is the cell's foreground where the glyph's bit is 1 and its
background where it is 0, exchanged on the selected row, darkened on odd lines when `MODE.SCAN` is set
(41_scanline_renderer R161, R162, R164, R169, R170; 20_memory R80). -/
def Obligations.RendShowsText : Prop :=
  ∀ (s : State) (x : Nat) (cw w : Word), s.issuer = .seq → s.raced = [] → x < 640 → s.ln.toNat < 480 →
    inMargin (vertical .moe s.act) 480 s.ln.toNat = false → inMargin (horizontal .moe s.act) 640 x = false →
    s.act.src = .text →
    let xs := sourceIndex (horizontal .moe s.act) 256 x
    let ys := sourceIndex (vertical .moe s.act) 240 s.ln.toNat
    (s.ovlOk = false ∨ overlayCovers s.act ys xs = false) →
    memRead s.txt (2 * (ys / 8 * 32 + xs / 8)) = some cw → memRead s.txt (2 * (ys / 8 * 32 + xs / 8) + 1) = some w →
    let fg := BitVec.ofNat 32 (w.toNat % 65536)
    let bg := BitVec.ofNat 32 (w.toNat / 65536)
    let lit := (Config.font (cw.toNat % 256) (ys % 8)).getLsbD (7 - xs % 8)
    let selected := decide (s.act.selrow.toNat / 2147483648 = 1) && decide (s.act.selrow.toNat % 65536 = ys / 8)
    let p := if selected then (if lit then bg else fg) else (if lit then fg else bg)
    ∃ t, exec .rend s = .next t ∧
      memRead t.lb (640 * s.lbWr.toNat + x) =
        some (if s.act.mode.toNat / 2 % 2 = 1 ∧ s.ln.toNat % 2 = 1 then (p >>> 1) &&& 0x7BEF#32 else p)

/-- A drawn pixel of the text source under a valid overlay is the overlay's pixel, never the glyph's
(41_scanline_renderer R163, R164, R169, R170; 20_memory R82). -/
def Obligations.RendShowsTheOverlay : Prop :=
  ∀ (s : State) (x : Nat) (p : Word), s.issuer = .seq → s.raced = [] → x < 640 → s.ln.toNat < 480 →
    inMargin (vertical .moe s.act) 480 s.ln.toNat = false → inMargin (horizontal .moe s.act) 640 x = false →
    s.act.src = .text → s.ovlOk = true → p.toNat < 65536 →
    let xs := sourceIndex (horizontal .moe s.act) 256 x
    let ys := sourceIndex (vertical .moe s.act) 240 s.ln.toNat
    let ox := s.act.ovlPos.toNat % 65536
    let oy := s.act.ovlPos.toNat / 65536
    let ow := s.act.ovlSize.toNat % 65536
    let oh := s.act.ovlSize.toNat / 65536
    ox ≤ xs → xs < ox + ow → oy ≤ ys → ys < oy + oh → memRead s.ovl ((ys - oy) * ow + (xs - ox)) = some p →
    ∃ t, exec .rend s = .next t ∧
      memRead t.lb (640 * s.lbWr.toNat + x) =
        some (if s.act.mode.toNat / 2 % 2 = 1 ∧ s.ln.toNat % 2 = 1 then (p >>> 1) &&& 0x7BEF#32 else p)

/-- The pixels no stage draws are those of the text source outside the margins, not covered by a valid overlay, in a
column or row of cells past the grid. Such a pixel is `CLEAR_PIX` after the line clear, and without a clear keeps what the
slot held; a moving valid overlay over text clears, any other line does not
(41_scanline_renderer R152, R158, R161, R163, R164, R165, R170; 10_state R46, R63 to R65). -/
def Obligations.UndrawnPixelsAreClearedOrKept : Prop :=
  ∀ (P : Params) (s : State) (x : Nat), x < P.wOut →
    let xs := sourceIndex (horizontal P s.act) P.wSrc x
    let ys := sourceIndex (vertical P s.act) P.hSrc s.ln.toNat
    let ox := s.act.ovlPos.toNat % 65536
    let oy := s.act.ovlPos.toNat / 65536
    let ow := s.act.ovlSize.toNat % 65536
    let oh := s.act.ovlSize.toNat / 65536
    let undrawn : Prop := s.act.src = .text ∧
      inMargin (vertical P s.act) P.vActive s.ln.toNat = false ∧ inMargin (horizontal P s.act) P.wOut x = false ∧
      ¬(s.ovlOk = true ∧ ox ≤ xs ∧ xs < ox + ow ∧ oy ≤ ys ∧ ys < oy + oh) ∧ (P.cols ≤ xs / P.gw ∨ P.rows ≤ ys / P.gh)
    (drawnPixel P s s.ln.toNat x (s.draws + 4 * x) = none ↔ undrawn) ∧
    (undrawn → memRead (renderLine P s).lb ((if s.lbWr then P.wOut else 0) + x) =
      if s.ovlOk = true ∧ s.act.ovlCtrl.toNat / 2 % 2 = 1 then some (trunc P.pixw (fx P s.act s.ln.toNat P.clearPix))
      else memRead s.lb ((if s.lbWr then P.wOut else 0) + x))

/-- With the framebuffer or the line-stream source the line clear never applies and its stage puts no pixel, and the overlay registers, its pixels
and the overlay-valid flag make no difference to the line. For an element never written, or written during the service,
the two runs agree because the model gives equal draws equal free values (log entries 1 and 7)
(41_scanline_renderer R167). -/
def Obligations.OverlayIgnoredWithoutText : Prop :=
  ∀ (s : State) (ctrl pos size : Word) (okFlag : Bool) (pixels : Mem Word), s.issuer = .seq → s.act.src ≠ .text →
    clearsLine s = false ∧ (∀ x, stagePlan .moe s .clear x = .skip) ∧
    ∃ t t', exec .rend s = .next t ∧
      exec .rend { s with
        act := { s.act with ovlCtrl := ctrl, ovlPos := pos, ovlSize := size }, ovlOk := okFlag, ovl := pixels } = .next t' ∧
      t'.lb = t.lb

/-- `dark` halves every colour channel of this hardware, and is a shift and a mask (41_scanline_renderer R168). -/
def Obligations.DarkHalvesEveryChannel : Prop :=
  ∀ p : Word, p.toNat < 65536 →
    dark .moe p = (p >>> 1) &&& 0x7BEF#32 ∧
    ∀ hiLo ∈ [(15, 11), (10, 5), (4, 0)], field hiLo.1 hiLo.2 (dark .moe p) = field hiLo.1 hiLo.2 p / 2

/-- What `REND` reads while port P writes. Each read of an element with a candidate value chosen among its present one and
those before a write concurrent with the line service gives that value, and so `REND` stores, at a drawn pixel, the
element the maps address in the framebuffer, the line stream or the overlay, or the glyph pixel of the cell, each
read on its own giving one of its candidates, darkened as set. A candidate without a value, an element never
written, stands for any value (log entry 1); the choice is the model's free value and the concurrent writes those since
the service began (log entry 7)
(20_memory R84, R89; 41_scanline_renderer R159 to R164, R168, R169, R170). -/
def Obligations.RendReadsOldOrNew : Prop :=
  (∀ (P : Params) (s : State) (sp : Space) (addr i : Nat),
    ∃ c ∈ elementValue P s sp addr :: racedValues s sp addr, ∀ v, c = some v → rendRead P s sp addr i = v) ∧
  (∀ (s : State) (x : Nat), s.issuer = .seq → x < 640 → s.ln.toNat < 480 →
    inMargin (vertical .moe s.act) 480 s.ln.toNat = false → inMargin (horizontal .moe s.act) 640 x = false →
    let xs := sourceIndex (horizontal .moe s.act) 256 x
    let ys := sourceIndex (vertical .moe s.act) 240 s.ln.toNat
    let shown : Word → Word := fun p =>
      if s.act.mode.toNat / 2 % 2 = 1 ∧ s.ln.toNat % 2 = 1 then (p >>> 1) &&& 0x7BEF#32 else p &&& 0xFFFF#32
    ∃ t, exec .rend s = .next t ∧
      (s.act.src = .frame →
        ∃ c ∈ memRead s.fb (s.act.bank * 256 * 240 + ys * 256 + xs) ::
          racedValues s .fb (s.act.bank * 256 * 240 + ys * 256 + xs),
        ∃ p, (∀ v, c = some v → p = v) ∧ memRead t.lb (640 * s.lbWr.toNat + x) = some (shown p)) ∧
      (s.act.src = .line →
        ∃ c ∈ memRead s.ls (ys % 2 * 256 + xs) :: racedValues s .ls (ys % 2 * 256 + xs),
        ∃ p, (∀ v, c = some v → p = v) ∧ memRead t.lb (640 * s.lbWr.toNat + x) = some (shown p)) ∧
      (s.act.src = .text → s.ovlOk = true → overlayCovers s.act ys xs = true →
        let a := (ys - s.act.ovlPos.toNat / 65536) * (s.act.ovlSize.toNat % 65536) +
          (xs - s.act.ovlPos.toNat % 65536)
        ∃ c ∈ memRead s.ovl a :: racedValues s .ovl a,
        ∃ p, (∀ v, c = some v → p = v) ∧ memRead t.lb (640 * s.lbWr.toNat + x) = some (shown p)) ∧
      (s.act.src = .text → s.ovlOk = false ∨ overlayCovers s.act ys xs = false →
        let a := 2 * (ys / 8 * 32 + xs / 8)
        ∃ c ∈ memRead s.txt a :: racedValues s .txt a,
        ∃ d ∈ memRead s.txt (a + 1) :: racedValues s .txt (a + 1),
        ∃ cw w, (∀ v, c = some v → cw = v) ∧ (∀ v, d = some v → w = v) ∧
          let fg := BitVec.ofNat 32 (w.toNat % 65536)
          let bg := BitVec.ofNat 32 (w.toNat / 65536)
          let lit := (Config.font (cw.toNat % 256) (ys % 8)).getLsbD (7 - xs % 8)
          let selected := decide (s.act.selrow.toNat / 2147483648 = 1) && decide (s.act.selrow.toNat % 65536 = ys / 8)
          memRead t.lb (640 * s.lbWr.toNat + x) =
            some (shown (if selected then (if lit then bg else fg) else (if lit then fg else bg)))))

/-! ### Coordinator -/

/-- `REQX`: from `Idle` the request is set and nothing else; in every other state, `Requested`, `Granted` or `Releasing`,
`BUSY` and nothing changes (43_cross_core R221; 60_exceptions R276). -/
def Obligations.ReqxOnlyFromIdle : Prop :=
  ∀ s : State, s.issuer = .p →
    (s.xreq = false → s.xgnt = false → exec .reqx s = .next { s with xreq := true, respP := some ⟨.ok, []⟩ }) ∧
    (s.xreq = true ∨ s.xgnt = true → exec .reqx s = .next { s with respP := some ⟨.busy, []⟩ })

/-- `RELX`: from `Granted` the request is cleared and nothing else; in every other state there is no grant, `PROTO`, and
nothing changes (43_cross_core R222; 60_exceptions R277). -/
def Obligations.RelxOnlyFromGranted : Prop :=
  ∀ s : State, s.issuer = .p →
    (s.xreq = true → s.xgnt = true → exec .relx s = .next { s with xreq := false, respP := some ⟨.ok, []⟩ }) ∧
    (s.xreq = false ∨ s.xgnt = false → exec .relx s = .next { s with respP := some ⟨.proto, []⟩ })

/-- `XCHK`, every case, as one atomic evaluation: the flags it reads, what it writes, and nothing else. At a session
start every pending copy becomes active and no line-slot element keeps its value, the model's reading of "unspecified"
(log entry 13) (43_cross_core R226; 44_system_and_memory_ops R253; 41_scanline_renderer R166). -/
def Obligations.XchkEvaluatesTheCoordinator : Prop :=
  ∀ s : State, s.issuer = .seq →
    let ok : Option Response := some ⟨.ok, []⟩
    let started : State := { s with
      act := s.pend
      ovlOk := decide (s.pend.ovlCtrl.toNat % 2 = 1) && decide (s.pend.ovlSize.toNat % 65536 ≤ 256) &&
        decide (s.pend.ovlSize.toNat / 65536 ≤ 240)
      lb := [], vsync := true, ln := 0#16, diValid := false, txRun := true, seq := .run, xgnt := false, respS := ok }
    (s.seq = .run → (s.xreq = true ∨ s.runReq = false) →
      exec .xchk s = .next { s with txRun := false, seq := .quiesce, respS := ok }) ∧
    (s.seq = .run → s.xreq = false → s.runReq = true → exec .xchk s = .next { s with respS := ok }) ∧
    (s.seq = .quiesce → s.txIdle = false → exec .xchk s = .next { s with respS := ok }) ∧
    (s.seq = .quiesce → s.txIdle = true → s.xreq = true →
      exec .xchk s = .next { s with xgnt := true, seq := .parked, respS := ok }) ∧
    (s.seq = .quiesce → s.txIdle = true → s.xreq = false → s.runReq = false →
      exec .xchk s = .next { s with vsync := false, seq := .stopped, respS := ok }) ∧
    (s.seq = .quiesce → s.txIdle = true → s.xreq = false → s.runReq = true →
      exec .xchk s = .next { s with txRun := true, seq := .run, respS := ok }) ∧
    (s.seq = .parked → s.xreq = true → exec .xchk s = .next { s with respS := ok }) ∧
    (s.seq = .parked → s.xreq = false → s.runReq = true → s.vsync = false → exec .xchk s = .next started) ∧
    (s.seq = .parked → s.xreq = false → s.runReq = true → s.vsync = true →
      exec .xchk s = .next { s with xgnt := false, txRun := true, seq := .run, respS := ok }) ∧
    (s.seq = .parked → s.xreq = false → s.runReq = false →
      exec .xchk s = .next { s with xgnt := false, vsync := false, seq := .stopped, respS := ok }) ∧
    (s.seq = .stopped → s.xreq = true → s.txIdle = true →
      exec .xchk s = .next { s with xgnt := true, seq := .parked, respS := ok }) ∧
    (s.seq = .stopped → s.xreq = true → s.txIdle = false → exec .xchk s = .next { s with respS := ok }) ∧
    (s.seq = .stopped → s.xreq = false → s.runReq = true → exec .xchk s = .next { started with xgnt := s.xgnt }) ∧
    (s.seq = .stopped → s.xreq = false → s.runReq = false → exec .xchk s = .next { s with respS := ok })

/-! ### Line services -/

/-- Entry to a line service: `LINE_REQ` in `RUN` with no service in progress sets `busy` and begins with `TICK`; nothing
is saved and nothing else changes. In `RUN` with a service in progress it raises `OVERRUN` and does nothing else
(44_system_and_memory_ops R254; 60_exceptions R280, R283, R288). -/
def Obligations.LineReqEntersOrOverruns : Prop :=
  ∀ (s : State) (es : List Event), s.inputs = .lineReq :: es → s.seq = .run →
    (s.busy = false → step s = .next { s with inputs := es, busy := true, svc := .tick }) ∧
    (s.busy = true → step s = .next { s with inputs := es, fault := s.fault ||| 1#32 })

/-- A `LINE_REQ` while `seq` is `STOPPED`, `QUIESCE` or `PARKED` changes no state and raises no fault; only the event is
gone (60_exceptions R284). -/
def Obligations.LineReqIgnoredOutsideRun : Prop :=
  ∀ (s : State) (es : List Event), s.inputs = .lineReq :: es →
    s.seq = .stopped ∨ s.seq = .quiesce ∨ s.seq = .parked → step s = .next { s with inputs := es }

/-- The service of a blanking line: `ln` moves on, or after the last one blanking is left; and from the first blanking
line `vsync` is 1 for exactly `V_BLANK` services; the steps of a service are the model's (log entries 2 and 4)
(44_system_and_memory_ops R255). -/
def Obligations.BlankingLineService : Prop :=
  (∀ (s : State) (es : List Event), s.inputs = lineEvents 4 ++ es → s.seq = .run → s.busy = false →
    s.vsync = true → s.ln.toNat < 45 →
    ∃ t : State, steps 5 s = .next t ∧ t.inputs = es ∧ t.busy = false ∧ t.svc = .idle ∧
      t.seq = .run ∧ (t.vsync, t.ln.toNat) = (if s.ln.toNat + 1 < 45 then (true, s.ln.toNat + 1) else (false, 0)) ∧
      t.acc = accAfterLine s.acc s.act.spl ∧ t.lbSeq = s.lbSeq ∧ t.framecnt = s.framecnt ∧ t.act = s.act) ∧
  (∀ (s : State) (k : Nat), s.inputs = (List.replicate k (lineEvents 4)).flatten → s.seq = .run → s.busy = false →
    s.vsync = true → s.ln = 0#16 → k ≤ 45 →
    ∃ t : State, steps (5 * k) s = .next t ∧ t.inputs = [] ∧ t.vsync = decide (k < 45))

/-- The service of an active line: one line rendered and published, `ln` moves on; after the last one the frame boundary
has run: `vsync` 1, `ln` 0, one frame counted, the pending configuration active, and `seq` is `QUIESCE` when a request or
a stop was pending and else `RUN`; the steps of a service are the model's (log entries 2 and 4)
(44_system_and_memory_ops R256, R252). -/
def Obligations.ActiveLineService : Prop :=
  ∀ (s : State) (es : List Event), s.seq = .run → s.busy = false → s.vsync = false → s.ln.toNat < 480 →
    (s.ln.toNat + 1 < 480 → s.inputs = lineEvents 5 ++ es →
      ∃ t : State, steps 6 s = .next t ∧ t.inputs = es ∧ t.busy = false ∧ t.svc = .idle ∧
        t.seq = .run ∧ t.vsync = false ∧ t.ln.toNat = s.ln.toNat + 1 ∧ t.acc = accAfterLine s.acc s.act.spl ∧
        t.lbSeq = s.lbSeq + 1#16 ∧ t.lbPub = s.lbWr ∧ t.lbWr = !s.lbWr ∧ t.framecnt = s.framecnt ∧ t.act = s.act) ∧
    (s.ln.toNat + 1 = 480 → s.inputs = lineEvents 9 ++ es →
      ∃ t : State, steps 10 s = .next t ∧ t.inputs = es ∧ t.busy = false ∧ t.svc = .idle ∧
        t.vsync = true ∧ t.ln = 0#16 ∧ t.acc = accAfterLine s.acc s.act.spl ∧ t.lbSeq = s.lbSeq + 1#16 ∧
        t.lbPub = s.lbWr ∧ t.lbWr = !s.lbWr ∧ t.framecnt = s.framecnt + 1#32 ∧ t.act = s.pend ∧
        t.ovlOk = overlayCheck .moe s.pend ∧
        (if s.xreq = true ∨ s.runReq = false then t.seq = .quiesce ∧ t.txRun = false else t.seq = .run))

/-! ### Reset -/

/-- `RESET` in any state, a service or a command in progress included, puts every register, flag and index at its reset
value, empties the queues and the memories of values, and leaves the input `tx_idle` (70_reset_and_hazards R300, R301;
10_state R30, R35). That `tx_idle` stays, that no response stands and that waiting words are dropped is the model's reading
(log entries 6, 3 and 14); the reset words of `di_out`, its choice (log entry 5), are not stated. -/
def Obligations.ResetLeavesTheResetState : Prop :=
  ∀ (s : State) (es : List Event), s.inputs = .reset :: es →
    ∃ t, step s = .next t ∧ t.inputs = es ∧ t.txIdle = s.txIdle ∧
      (t.q0.head, t.q0.tail, t.q1.head, t.q1.tail, t.q2.head, t.q2.tail) = (0, 0, 0, 0, 0, 0) ∧
      (t.acc, t.encEs, t.silIdx, t.framecnt, t.fault, t.hwm) = (0#32, 0#8, 0#8, 0#32, 0#32, 200#32) ∧
      (t.seq, t.vsync, t.ln, t.busy) = (.stopped, false, 0#16, false) ∧
      (t.runReq, t.txRun, t.xreq, t.xgnt, t.ovlOk, t.diValid) = (false, false, false, false, false, false) ∧
      (t.ls0, t.ls1) = (⟨0#16, false⟩, ⟨0#16, false⟩) ∧ (t.lbWr, t.lbPub, t.lbSeq) = (false, false, 0#16) ∧
      t.act = t.pend ∧ (t.pend.mode, t.pend.marginH, t.pend.marginV, t.pend.spl) = (0#32, 0#32, 0#32, 0#32) ∧
      (t.pend.selrow, t.pend.ovlCtrl, t.pend.ovlPos, t.pend.ovlSize) = (0#32, 0#32, 0#32, 0#32) ∧
      (t.pend.src, t.pend.bank) = (.text, 0) ∧
      (∀ a, memRead t.txt a = none ∧ memRead t.fb a = none ∧ memRead t.ls a = none ∧ memRead t.ovl a = none ∧
        memRead t.lb a = none) ∧
      (∀ pt, rxOf t pt = []) ∧ (∀ a, respOf t a = none) ∧ t.svc = .idle

/-! ### The whole machine -/

/-- The state after reset meets the invariant (10_state R35; 70_reset_and_hazards R301). -/
def Obligations.InvariantAtReset : Prop := State.reset.Sound .moe

/-- Every step keeps the invariant: queue indices and memories in range and canonical, undefined register bits 0, SEQ's
position consistent with its state, the handshake, the counters below their periods, waiting words the beginning of a
command (log entry 14) and a `REND` taken by access at a pixel of the line (log entry 8)
(10_state R21 to R27, R36, R37, R38, R50; 20_memory R75; 43_cross_core R228 a). -/
def Obligations.StepKeepsTheInvariant : Prop :=
  ∀ s t : State, s.Sound .moe → step s = .next t → t.Sound .moe

/-- The transition table of `seq` is complete: in one step it stays, or moves as one of the eight entries, or a reset
stops it (44_system_and_memory_ops R260). -/
def Obligations.SeqTransitionTable : Prop :=
  ∀ s t : State, step s = .next t →
    t.seq = s.seq ∨ (s.inputs.head? = some .reset ∧ t.seq = .stopped) ∨
    (s.seq, t.seq) ∈ [(Seq.stopped, Seq.run), (.stopped, .parked), (.run, .quiesce), (.quiesce, .parked),
      (.quiesce, .stopped), (.quiesce, .run), (.parked, .run), (.parked, .stopped)]

/-- The request object moves only around its cycle `Idle`, `Requested`, `Granted`, `Releasing`, one place a step, but for
reset (43_cross_core R220; 10_state R31). -/
def Obligations.RequestCycle : Prop :=
  ∀ s t : State, step s = .next t → s.inputs.head? ≠ some .reset →
    requestCode t.xreq t.xgnt = requestCode s.xreq s.xgnt ∨
    requestCode t.xreq t.xgnt = (requestCode s.xreq s.xgnt + 1) % 4

/-- In every sound state the grant rises only with a request pending, `tx_idle` 1, `tx_run` 0 and no service in progress,
from `QUIESCE` at a frame boundary or from `STOPPED`, into `PARKED`; it falls only with the request gone, or by reset
(43_cross_core R228 b, c, R224). -/
def Obligations.GrantRisesAndFallsSafely : Prop :=
  ∀ s t : State, s.Sound .moe → step s = .next t →
    (s.xgnt = false → t.xgnt = true →
      s.xreq = true ∧ s.txIdle = true ∧ s.txRun = false ∧ s.busy = false ∧ t.seq = .parked ∧
      (s.seq = .quiesce ∧ s.vsync = true ∧ s.ln = 0#16 ∨ s.seq = .stopped)) ∧
    (s.xgnt = true → t.xgnt = false → s.seq = .parked ∧ s.xreq = false ∨ s.inputs.head? = some .reset)

/-- While the grant stands nothing of the output moves: no line slot, `lb_pub`, `di_out`, `tail[0]`, accumulator,
silence index, frame counter or position (43_cross_core R227, R228 d). -/
def Obligations.ParkingFreezesTheOutput : Prop :=
  ∀ s t : State, s.Sound .moe → step s = .next t → s.xgnt = true → t.xgnt = true →
    t.lb = s.lb ∧ t.lbWr = s.lbWr ∧ t.lbPub = s.lbPub ∧ t.lbSeq = s.lbSeq ∧ t.diOut = s.diOut ∧ t.diValid = s.diValid ∧
    t.q0.tail = s.q0.tail ∧ t.acc = s.acc ∧ t.silIdx = s.silIdx ∧ t.framecnt = s.framecnt ∧ t.vsync = s.vsync ∧
    t.ln = s.ln ∧ t.act = s.act ∧ t.txRun = false

/-- `vsync` rises only at the frame boundary and at a session start, and falls only after the last blanking line, on
entering `STOPPED`, and by reset (10_state R25, R38). -/
def Obligations.VsyncTogglesAtTheFrameEdges : Prop :=
  ∀ s t : State, step s = .next t →
    (s.vsync = false → t.vsync = true → s.svc = .enter ∨ (s.seq ≠ .run ∧ t.seq = .run)) ∧
    (s.vsync = true → t.vsync = false →
      (s.svc = .blank ∧ s.ln.toNat + 1 = 45) ∨ t.seq = .stopped)

/-- The active configuration changes only in a latch, to every pending copy at once: at the frame boundary or at a
session start; and by reset (10_state R49; 44_system_and_memory_ops R252, R253). -/
def Obligations.ConfigurationLatchesAtTheBoundary : Prop :=
  ∀ s t : State, step s = .next t → t.act ≠ s.act →
    (t.act = s.pend ∧ (s.svc = .latch ∨ (s.seq ≠ .run ∧ t.seq = .run ∧ t.vsync = true ∧ t.ln = 0#16))) ∨
    s.inputs.head? = some .reset

/-- `OVERRUN` is raised only by a `LINE_REQ` while `RUN` and busy, and no fault bit once set is cleared but by reset
(10_state R32; 60_exceptions R280, R283). -/
def Obligations.OverrunIsStickyAndOnlyFromLineReq : Prop :=
  ∀ s t : State, step s = .next t → s.inputs.head? ≠ some .reset →
    s.fault &&& t.fault = s.fault ∧
    (t.fault ≠ s.fault → s.inputs.head? = some .lineReq ∧ s.seq = .run ∧ s.busy = true ∧ t.fault = s.fault ||| 1#32)

/-- One writer to each piece of state: a word on port P writes nothing of SEQ's or the consumers', a word on C1 or C2 at
most its own `tail`, `LINE_REQ` and SEQ's steps nothing of the ports', and `tx_idle` only itself
(10_state R20; 60_exceptions R290). -/
def Obligations.EachPieceHasOneWriter : Prop :=
  ∀ (s t : State) (e : Event) (es : List Event), s.inputs = e :: es → step s = .next t →
    (∀ w, e = .word .p w → sameSeq s t ∧ t.q1.tail = s.q1.tail ∧ t.q2.tail = s.q2.tail ∧ t.txIdle = s.txIdle) ∧
    (∀ w, e = .word .c1 w → sameSeq s t ∧ samePortP s t ∧ t.q2.tail = s.q2.tail ∧ t.txIdle = s.txIdle) ∧
    (∀ w, e = .word .c2 w → sameSeq s t ∧ samePortP s t ∧ t.q1.tail = s.q1.tail ∧ t.txIdle = s.txIdle) ∧
    (e = .lineReq ∨ e = .seq ∨ e = .seqByAccess → samePortP s t ∧ t.q1 = s.q1 ∧ t.q2 = s.q2 ∧ t.txIdle = s.txIdle) ∧
    (∀ level, e = .txIdle level → t = { s with inputs := es, txIdle := level })
end

