-- ==== Sys2Proof/Laws/Memory.lean ====
section
/-! SUPPORT. What memory operations can do: read after write, every other element, the canonical form. -/

namespace Sys2Proof.Machine

variable {α : Type}

/-- A write gives its element the value written and leaves every other element. -/
theorem memRead_memWrite (m : Mem α) (a : Nat) (v : α) (b : Nat) :
    memRead (memWrite m a v) b = if a = b then some v else memRead m b := by
  induction m with
  | nil => simp [memWrite, memRead]
  | cons x rest ih =>
    obtain ⟨c, w⟩ := x
    simp only [memWrite]
    split
    · simp [memRead]
    · split
      · next h => subst h; simp only [memRead]; split <;> rfl
      · next h1 h2 =>
        simp only [memRead, ih]
        by_cases h3 : c = b
        · subst h3; simp [h2]
        · simp [h3]

@[simp] theorem memRead_memWrite_same (m : Mem α) (a : Nat) (v : α) : memRead (memWrite m a v) a = some v := by
  simp [memRead_memWrite]

/-- What a write lists: the element written or one that was listed. -/
theorem mem_memWrite {m : Mem α} {a : Nat} {v : α} {x : Nat × α} (h : x ∈ memWrite m a v) : x = (a, v) ∨ x ∈ m := by
  induction m with
  | nil => simpa [memWrite] using h
  | cons y rest ih =>
    obtain ⟨c, w⟩ := y
    simp only [memWrite] at h
    split at h
    · simpa using h
    · split at h
      · rcases List.mem_cons.1 h with h | h
        · exact .inl h
        · exact .inr (List.mem_cons_of_mem _ h)
      · rcases List.mem_cons.1 h with h | h
        · exact .inr (h ▸ List.mem_cons_self)
        · rcases ih h with h | h
          · exact .inl h
          · exact .inr (List.mem_cons_of_mem _ h)

/-- A write keeps the canonical form. -/
theorem memWrite_wf {m : Mem α} (a : Nat) (v : α) (h : Memory.wf m = true) : Memory.wf (memWrite m a v) = true := by
  simp only [Memory.wf, decide_eq_true_eq] at h ⊢
  induction m with
  | nil => simp [memWrite]
  | cons y rest ih =>
    obtain ⟨c, w⟩ := y
    rw [List.pairwise_cons] at h
    simp only [memWrite]
    split
    · next hlt =>
      refine List.pairwise_cons.2 ⟨?_, List.pairwise_cons.2 h⟩
      intro x hx
      rcases List.mem_cons.1 hx with hx | hx
      · subst hx; exact hlt
      · exact Nat.lt_trans hlt (h.1 x hx)
    · split
      · next heq => subst heq; exact List.pairwise_cons.2 ⟨h.1, h.2⟩
      · next h1 h2 =>
        refine List.pairwise_cons.2 ⟨?_, ih h.2⟩
        intro x hx
        rcases mem_memWrite hx with hx | hx
        · subst hx; show c < a; omega
        · exact h.1 x hx

/-- A row write gives each of its elements the value its function gives, and leaves every other element. -/
theorem memRead_memWriteRow (m : Mem Word) (base : Nat) (f : Nat → Option Word) (n a : Nat) :
    memRead (memWriteRow m base f n) a =
      if base ≤ a ∧ a < base + n then (match f (a - base) with | some v => some v | none => memRead m a)
      else memRead m a := by
  induction n with
  | zero => simp only [memWriteRow]; rw [if_neg (by omega)]
  | succ n ih =>
    simp only [memWriteRow]
    by_cases ha : a = base + n
    · subst ha
      rw [if_pos (by omega)]
      have : base + n - base = n := by omega
      rw [this]
      cases hf : f n with
      | some v => simp
      | none => simp only [ih]; rw [if_neg (by omega)]
    · have hrest : (base ≤ a ∧ a < base + (n + 1)) = (base ≤ a ∧ a < base + n) := by
        apply propext; omega
      simp only [hrest]
      rw [← ih]
      cases hf : f n with
      | some v => simp only [memRead_memWrite]; rw [if_neg (fun h => ha h.symm)]
      | none => rfl

/-- A row write keeps the canonical form. -/
theorem memWriteRow_wf {m : Mem Word} (base : Nat) (f : Nat → Option Word) (n : Nat) (h : Memory.wf m = true) :
    Memory.wf (memWriteRow m base f n) = true := by
  induction n with
  | zero => exact h
  | succ n ih =>
    simp only [memWriteRow]
    split
    · exact memWrite_wf _ _ ih
    · exact ih

/-- What a row write lists: an element that was listed, or one of its own with the value its function gives. -/
theorem mem_memWriteRow {m : Mem Word} {base : Nat} {f : Nat → Option Word} {n : Nat} {x : Nat × Word}
    (h : x ∈ memWriteRow m base f n) : x ∈ m ∨ ∃ k, k < n ∧ x.1 = base + k ∧ f k = some x.2 := by
  induction n with
  | zero => exact .inl h
  | succ n ih =>
    simp only [memWriteRow] at h
    split at h
    · next v hf =>
      rcases mem_memWrite h with h | h
      · subst h; exact .inr ⟨n, Nat.lt_succ_self n, rfl, hf⟩
      · rcases ih h with h | ⟨k, hk, h⟩
        · exact .inl h
        · exact .inr ⟨k, Nat.lt_succ_of_lt hk, h⟩
    · rcases ih h with h | ⟨k, hk, h⟩
      · exact .inl h
      · exact .inr ⟨k, Nat.lt_succ_of_lt hk, h⟩

/-- The memories after reset have the canonical form. -/
theorem reset_memories_wf :
    Memory.wf State.reset.txt = true ∧ Memory.wf State.reset.fb = true ∧ Memory.wf State.reset.ls = true ∧
    Memory.wf State.reset.ovl = true ∧ Memory.wf State.reset.lb = true ∧ Memory.wf State.reset.q0.buf = true ∧
    Memory.wf State.reset.q1.buf = true ∧ Memory.wf State.reset.q2.buf = true := by
  refine ⟨rfl, rfl, rfl, rfl, rfl, rfl, rfl, rfl⟩

end Sys2Proof.Machine
end

