-- ==== Sys2Proof/Laws/State.lean ====
section
/-! SUPPORT. The small lemmas of the state: what a response, a placement of port words and the block view leave, true by
rfl or by cases on the agent. -/

namespace Sys2Proof.Machine

@[simp] theorem respOf_respond_issuer (st : Status) (vs : List Word) (s : State) :
    respOf (respond st vs s) s.issuer = some ⟨st, vs⟩ := by
  unfold respond; split <;> simp_all [respOf]

theorem respOf_respond_other (st : Status) (vs : List Word) (s : State) (a : Agent) (h : a ≠ s.issuer) :
    respOf (respond st vs s) a = respOf s a := by
  unfold respond; cases a <;> split <;> simp_all [respOf]

@[simp] theorem respond_block (st : Status) (vs : List Word) (s : State) : (respond st vs s).block = s.block := by
  unfold respond; split <;> rfl

/-- A response writes the response of the issuer and nothing else: every other field, by name. -/
theorem respond_eq (st : Status) (vs : List Word) (s : State) :
    respond st vs s =
      { s with
        respP := if s.issuer = .p then some ⟨st, vs⟩ else s.respP
        respC1 := if s.issuer = .c1 then some ⟨st, vs⟩ else s.respC1
        respC2 := if s.issuer = .c2 then some ⟨st, vs⟩ else s.respC2
        respS := if s.issuer = .seq then some ⟨st, vs⟩ else s.respS } := by
  unfold respond; split <;> simp_all

section Fields
variable (st : Status) (vs : List Word) (s : State)

@[simp] theorem respond_q0 : (respond st vs s).q0 = s.q0 := by rw [respond_eq]
@[simp] theorem respond_q1 : (respond st vs s).q1 = s.q1 := by rw [respond_eq]
@[simp] theorem respond_q2 : (respond st vs s).q2 = s.q2 := by rw [respond_eq]
@[simp] theorem respond_acc : (respond st vs s).acc = s.acc := by rw [respond_eq]
@[simp] theorem respond_encEs : (respond st vs s).encEs = s.encEs := by rw [respond_eq]
@[simp] theorem respond_silIdx : (respond st vs s).silIdx = s.silIdx := by rw [respond_eq]
@[simp] theorem respond_hwm : (respond st vs s).hwm = s.hwm := by rw [respond_eq]
@[simp] theorem respond_diOut : (respond st vs s).diOut = s.diOut := by rw [respond_eq]
@[simp] theorem respond_diValid : (respond st vs s).diValid = s.diValid := by rw [respond_eq]
@[simp] theorem respond_framecnt : (respond st vs s).framecnt = s.framecnt := by rw [respond_eq]
@[simp] theorem respond_seq : (respond st vs s).seq = s.seq := by rw [respond_eq]
@[simp] theorem respond_vsync : (respond st vs s).vsync = s.vsync := by rw [respond_eq]
@[simp] theorem respond_ln : (respond st vs s).ln = s.ln := by rw [respond_eq]
@[simp] theorem respond_busy : (respond st vs s).busy = s.busy := by rw [respond_eq]
@[simp] theorem respond_runReq : (respond st vs s).runReq = s.runReq := by rw [respond_eq]
@[simp] theorem respond_txRun : (respond st vs s).txRun = s.txRun := by rw [respond_eq]
@[simp] theorem respond_txIdle : (respond st vs s).txIdle = s.txIdle := by rw [respond_eq]
@[simp] theorem respond_xreq : (respond st vs s).xreq = s.xreq := by rw [respond_eq]
@[simp] theorem respond_xgnt : (respond st vs s).xgnt = s.xgnt := by rw [respond_eq]
@[simp] theorem respond_fault : (respond st vs s).fault = s.fault := by rw [respond_eq]
@[simp] theorem respond_ovlOk : (respond st vs s).ovlOk = s.ovlOk := by rw [respond_eq]
@[simp] theorem respond_ls0 : (respond st vs s).ls0 = s.ls0 := by rw [respond_eq]
@[simp] theorem respond_ls1 : (respond st vs s).ls1 = s.ls1 := by rw [respond_eq]
@[simp] theorem respond_lbWr : (respond st vs s).lbWr = s.lbWr := by rw [respond_eq]
@[simp] theorem respond_lbPub : (respond st vs s).lbPub = s.lbPub := by rw [respond_eq]
@[simp] theorem respond_lbSeq : (respond st vs s).lbSeq = s.lbSeq := by rw [respond_eq]
@[simp] theorem respond_pend : (respond st vs s).pend = s.pend := by rw [respond_eq]
@[simp] theorem respond_act : (respond st vs s).act = s.act := by rw [respond_eq]
@[simp] theorem respond_txt : (respond st vs s).txt = s.txt := by rw [respond_eq]
@[simp] theorem respond_fb : (respond st vs s).fb = s.fb := by rw [respond_eq]
@[simp] theorem respond_ls : (respond st vs s).ls = s.ls := by rw [respond_eq]
@[simp] theorem respond_ovl : (respond st vs s).ovl = s.ovl := by rw [respond_eq]
@[simp] theorem respond_lb : (respond st vs s).lb = s.lb := by rw [respond_eq]
@[simp] theorem respond_rxP : (respond st vs s).rxP = s.rxP := by rw [respond_eq]
@[simp] theorem respond_rxC1 : (respond st vs s).rxC1 = s.rxC1 := by rw [respond_eq]
@[simp] theorem respond_rxC2 : (respond st vs s).rxC2 = s.rxC2 := by rw [respond_eq]
@[simp] theorem respond_issuer : (respond st vs s).issuer = s.issuer := by rw [respond_eq]
@[simp] theorem respond_svc : (respond st vs s).svc = s.svc := by rw [respond_eq]
@[simp] theorem respond_raced : (respond st vs s).raced = s.raced := by rw [respond_eq]
@[simp] theorem respond_draws : (respond st vs s).draws = s.draws := by rw [respond_eq]
@[simp] theorem respond_inputs : (respond st vs s).inputs = s.inputs := by rw [respond_eq]

end Fields

@[simp] theorem withRx_block (s : State) (pt : Port) (ws : List Word) : (withRx s pt ws).block = s.block := by
  cases pt <;> rfl

@[simp] theorem rxOf_withRx (s : State) (pt : Port) (ws : List Word) : rxOf (withRx s pt ws) pt = ws := by
  cases pt <;> rfl

theorem rxOf_withRx_other (s : State) (pt qt : Port) (ws : List Word) (h : qt ≠ pt) :
    rxOf (withRx s pt ws) qt = rxOf s qt := by
  cases pt <;> cases qt <;> first | rfl | exact absurd rfl h

section RxFields
variable (s : State) (pt : Port) (ws : List Word)

@[simp] theorem withRx_q0 : (withRx s pt ws).q0 = s.q0 := by cases pt <;> rfl
@[simp] theorem withRx_q1 : (withRx s pt ws).q1 = s.q1 := by cases pt <;> rfl
@[simp] theorem withRx_q2 : (withRx s pt ws).q2 = s.q2 := by cases pt <;> rfl
@[simp] theorem withRx_acc : (withRx s pt ws).acc = s.acc := by cases pt <;> rfl
@[simp] theorem withRx_encEs : (withRx s pt ws).encEs = s.encEs := by cases pt <;> rfl
@[simp] theorem withRx_silIdx : (withRx s pt ws).silIdx = s.silIdx := by cases pt <;> rfl
@[simp] theorem withRx_hwm : (withRx s pt ws).hwm = s.hwm := by cases pt <;> rfl
@[simp] theorem withRx_diOut : (withRx s pt ws).diOut = s.diOut := by cases pt <;> rfl
@[simp] theorem withRx_diValid : (withRx s pt ws).diValid = s.diValid := by cases pt <;> rfl
@[simp] theorem withRx_framecnt : (withRx s pt ws).framecnt = s.framecnt := by cases pt <;> rfl
@[simp] theorem withRx_seq : (withRx s pt ws).seq = s.seq := by cases pt <;> rfl
@[simp] theorem withRx_vsync : (withRx s pt ws).vsync = s.vsync := by cases pt <;> rfl
@[simp] theorem withRx_ln : (withRx s pt ws).ln = s.ln := by cases pt <;> rfl
@[simp] theorem withRx_busy : (withRx s pt ws).busy = s.busy := by cases pt <;> rfl
@[simp] theorem withRx_runReq : (withRx s pt ws).runReq = s.runReq := by cases pt <;> rfl
@[simp] theorem withRx_txRun : (withRx s pt ws).txRun = s.txRun := by cases pt <;> rfl
@[simp] theorem withRx_txIdle : (withRx s pt ws).txIdle = s.txIdle := by cases pt <;> rfl
@[simp] theorem withRx_xreq : (withRx s pt ws).xreq = s.xreq := by cases pt <;> rfl
@[simp] theorem withRx_xgnt : (withRx s pt ws).xgnt = s.xgnt := by cases pt <;> rfl
@[simp] theorem withRx_fault : (withRx s pt ws).fault = s.fault := by cases pt <;> rfl
@[simp] theorem withRx_ovlOk : (withRx s pt ws).ovlOk = s.ovlOk := by cases pt <;> rfl
@[simp] theorem withRx_ls0 : (withRx s pt ws).ls0 = s.ls0 := by cases pt <;> rfl
@[simp] theorem withRx_ls1 : (withRx s pt ws).ls1 = s.ls1 := by cases pt <;> rfl
@[simp] theorem withRx_lbWr : (withRx s pt ws).lbWr = s.lbWr := by cases pt <;> rfl
@[simp] theorem withRx_lbPub : (withRx s pt ws).lbPub = s.lbPub := by cases pt <;> rfl
@[simp] theorem withRx_lbSeq : (withRx s pt ws).lbSeq = s.lbSeq := by cases pt <;> rfl
@[simp] theorem withRx_pend : (withRx s pt ws).pend = s.pend := by cases pt <;> rfl
@[simp] theorem withRx_act : (withRx s pt ws).act = s.act := by cases pt <;> rfl
@[simp] theorem withRx_txt : (withRx s pt ws).txt = s.txt := by cases pt <;> rfl
@[simp] theorem withRx_fb : (withRx s pt ws).fb = s.fb := by cases pt <;> rfl
@[simp] theorem withRx_ls : (withRx s pt ws).ls = s.ls := by cases pt <;> rfl
@[simp] theorem withRx_ovl : (withRx s pt ws).ovl = s.ovl := by cases pt <;> rfl
@[simp] theorem withRx_lb : (withRx s pt ws).lb = s.lb := by cases pt <;> rfl
@[simp] theorem withRx_issuer : (withRx s pt ws).issuer = s.issuer := by cases pt <;> rfl
@[simp] theorem withRx_svc : (withRx s pt ws).svc = s.svc := by cases pt <;> rfl
@[simp] theorem withRx_raced : (withRx s pt ws).raced = s.raced := by cases pt <;> rfl
@[simp] theorem withRx_draws : (withRx s pt ws).draws = s.draws := by cases pt <;> rfl
@[simp] theorem withRx_inputs : (withRx s pt ws).inputs = s.inputs := by cases pt <;> rfl
@[simp] theorem withRx_respP : (withRx s pt ws).respP = s.respP := by cases pt <;> rfl
@[simp] theorem withRx_respC1 : (withRx s pt ws).respC1 = s.respC1 := by cases pt <;> rfl
@[simp] theorem withRx_respC2 : (withRx s pt ws).respC2 = s.respC2 := by cases pt <;> rfl
@[simp] theorem withRx_respS : (withRx s pt ws).respS = s.respS := by cases pt <;> rfl

end RxFields

/-- `onPorts` for an agent of the ports column. -/
theorem onPorts_of_mem {allowed : List Agent} {run : State → State} {s : State} (h : s.issuer ∈ allowed) :
    onPorts allowed run s = run s := by
  simp [onPorts, h]

/-- `onPorts` for any other agent: the refusal `PORT`. -/
theorem onPorts_of_not_mem {allowed : List Agent} {run : State → State} {s : State} (h : s.issuer ∉ allowed) :
    onPorts allowed run s = refuse .port s := by
  simp [onPorts, h]

end Sys2Proof.Machine
end

