-- ==== Sys2Proof/Laws/Ops.lean ====
section
/-! SUPPORT. For each shared operation one lemma that says everything it can do; proofs cite these instead of unfolding. -/

namespace Sys2Proof.Machine

variable {α : Type}

/-- A push either finds the buffer full, or writes one slot and publishes the head. -/
theorem rbPush_cases (n : Nat) (r : Ring α) (x : α) :
    ((r.head + 1) % n = r.tail ∧ rbPush n r x = none) ∨
    ((r.head + 1) % n ≠ r.tail ∧
      rbPush n r x = some { head := (r.head + 1) % n, tail := r.tail, buf := memWrite r.buf r.head x }) := by
  unfold rbPush
  by_cases h : (r.head + 1) % n = r.tail
  · exact .inl ⟨h, if_pos h⟩
  · exact .inr ⟨h, if_neg h⟩

/-- A pop either finds the buffer empty, or reads one slot and publishes the tail. -/
theorem rbPop_cases (n : Nat) (r : Ring α) :
    (r.head = r.tail ∧ rbPop n r = none) ∨
    (r.head ≠ r.tail ∧
      rbPop n r = some (memRead r.buf r.tail, { head := r.head, tail := (r.tail + 1) % n, buf := r.buf })) := by
  unfold rbPop
  by_cases h : r.head = r.tail
  · exact .inl ⟨h, if_pos h⟩
  · exact .inr ⟨h, if_neg h⟩

/-- Fewer elements than slots are ever waiting. -/
theorem occupied_lt {n : Nat} (hn : 0 < n) (r : Ring α) : occupied n r < n := Nat.mod_lt _ hn

/-- An empty buffer is one whose indices are equal. -/
theorem occupied_eq_zero {n : Nat} {r : Ring α} (hh : r.head < n) (ht : r.tail < n) :
    occupied n r = 0 ↔ r.head = r.tail := by
  unfold occupied
  constructor
  · intro h
    rcases Nat.lt_or_ge r.head r.tail with hlt | hge
    · rw [Nat.mod_eq_of_lt (by omega)] at h; omega
    · have : r.head + (n - r.tail) = (r.head - r.tail) + n := by omega
      rw [this, Nat.add_mod_right, Nat.mod_eq_of_lt (by omega)] at h
      omega
  · intro h
    have : r.head + (n - r.tail) = n := by omega
    rw [this, Nat.mod_self]

/-- `occupied` without the remainder: the two ways the indices can lie. -/
theorem occupied_eq {n : Nat} {r : Ring α} (hh : r.head < n) (ht : r.tail < n) :
    occupied n r = if r.tail ≤ r.head then r.head - r.tail else r.head + n - r.tail := by
  unfold occupied
  split
  · have : r.head + (n - r.tail) = (r.head - r.tail) + n := by omega
    rw [this, Nat.add_mod_right, Nat.mod_eq_of_lt (by omega)]
  · rw [Nat.mod_eq_of_lt (by omega)]; omega

/-- The slot an index offset from the tail lies in. -/
theorem slot_eq {n t k : Nat} (ht : t < n) (hk : k < n) : (t + k) % n = if t + k < n then t + k else t + k - n := by
  split
  · exact Nat.mod_eq_of_lt ‹_›
  · have : t + k = (t + k - n) + n := by omega
    rw [this, Nat.add_mod_right, Nat.mod_eq_of_lt (by omega)]; omega

/-- The slot after the last waiting element is the head. -/
theorem slot_occupied {n : Nat} {r : Ring α} (hh : r.head < n) (ht : r.tail < n) :
    (r.tail + occupied n r) % n = r.head := by
  rw [slot_eq ht (occupied_lt (by omega) r), occupied_eq hh ht]
  split <;> split <;> omega

/-- The four things an evaluation of the coordinator can do (43_cross_core R226). -/
theorem evaluate_cases (P : Params) (s : State) :
    evaluate P s = s ∨
    (s.seq = .run ∧ (s.xreq = true ∨ s.runReq = false) ∧ evaluate P s = { s with txRun := false, seq := .quiesce }) ∨
    ((s.seq = .quiesce ∨ s.seq = .stopped) ∧ s.xreq = true ∧ s.txIdle = true ∧ evaluate P s = grantExclusive s) ∨
    (s.seq = .quiesce ∧ s.xreq = false ∧ s.runReq = false ∧ s.txIdle = true ∧ evaluate P s = stopSession s) ∨
    (s.seq = .quiesce ∧ s.xreq = false ∧ s.runReq = true ∧ s.txIdle = true ∧ evaluate P s = resumeRun s) ∨
    (s.seq = .parked ∧ s.xreq = false ∧ s.runReq = false ∧ evaluate P s = stopSession { s with xgnt := false }) ∨
    (s.seq = .parked ∧ s.xreq = false ∧ s.runReq = true ∧ s.vsync = true ∧
      evaluate P s = resumeRun { s with xgnt := false }) ∨
    (s.seq = .parked ∧ s.xreq = false ∧ s.runReq = true ∧ s.vsync = false ∧
      evaluate P s = sessionStart P { s with xgnt := false }) ∨
    (s.seq = .stopped ∧ s.xreq = false ∧ s.runReq = true ∧ evaluate P s = sessionStart P s) := by
  unfold evaluate
  cases hs : s.seq <;> cases hx : s.xreq <;> cases hr : s.runReq <;> cases hi : s.txIdle <;> cases hv : s.vsync <;>
    simp

/-- What one step does, at any parameters: one event, or SEQ's own step; the lemma `step` proofs start from. -/
theorem stepWith_cases (P : Params) (run : Instr → State → Host.Outcome State Fault Refusal) (s : State) :
    (s.inputs = [] ∧ stepWith P run s = seqStep P run s) ∨
    ∃ e es, s.inputs = e :: es ∧ stepWith P run s = handle P run e { s with inputs := es } := by
  unfold stepWith
  cases h : s.inputs with
  | nil => exact .inl ⟨rfl, rfl⟩
  | cons e es => exact .inr ⟨e, es, rfl, rfl⟩

/-- What one step of this hardware does. -/
theorem step_cases (s : State) :
    (s.inputs = [] ∧ step s = seqStep .moe exec s) ∨
    ∃ e es, s.inputs = e :: es ∧ step s = handle .moe exec e { s with inputs := es } :=
  stepWith_cases .moe exec s

section StepEvents
variable {s : State} {es : List Event}

/-- With no event to come the step is SEQ's. -/
theorem step_none (h : s.inputs = []) : step s = seqStep .moe exec s := by
  simp [step, stepWith, h]

/-- SEQ's step at a known place of the service. -/
theorem seqStep_at {P : Params} {run : Instr → State → Host.Outcome State Fault Refusal} {v : Svc} (h : s.svc = v) :
    seqStep P run s = seqStepAt P run v s := by
  rw [← h, seqStep]

/-- SEQ's turn. -/
theorem step_seq (h : s.inputs = .seq :: es) : step s = seqStep .moe exec { s with inputs := es } := by
  simp [step, stepWith, h, handle]

/-- SEQ's turn with a `REND` that is next taken access by access. -/
theorem step_seqByAccess (h : s.inputs = .seqByAccess :: es) :
    step s = seqAccessStep .moe exec { s with inputs := es } := by
  simp [step, stepWith, h, handle]

/-- A word on a port. -/
theorem step_word {pt : Port} {w : Word} (h : s.inputs = .word pt w :: es) :
    step s = takeWord exec pt w { s with inputs := es } := by
  simp [step, stepWith, h, handle]

/-- A `LINE_REQ`. -/
theorem step_lineReq (h : s.inputs = .lineReq :: es) : step s = .next (takeLineReq { s with inputs := es }) := by
  simp [step, stepWith, h, handle]

/-- A level of `tx_idle`. -/
theorem step_txIdle {level : Bool} (h : s.inputs = .txIdle level :: es) :
    step s = .next { s with inputs := es, txIdle := level } := by
  simp [step, stepWith, h, handle]

/-- A `RESET`. -/
theorem step_reset (h : s.inputs = .reset :: es) : step s = .next (applyReset .moe { s with inputs := es }) := by
  simp [step, stepWith, h, handle]

end StepEvents

/-- What handing over one word can do: wait, be answered `ILLEGAL`, or run a command. -/
theorem takeWord_cases (run : Instr → State → Host.Outcome State Fault Refusal) (pt : Port) (w : Word) (s : State) :
    (∃ n, decode (rxOf s pt ++ [w]) = .error (.wordsToCome n) ∧
      takeWord run pt w s = .next (withRx s pt (rxOf s pt ++ [w]))) ∨
    (∃ e, decode (rxOf s pt ++ [w]) = .error e ∧
      takeWord run pt w s = .next (refuse .illegal { withRx s pt [] with issuer := pt.agent })) ∨
    (∃ i rest, decode (rxOf s pt ++ [w]) = .ok (i, rest) ∧
      takeWord run pt w s = run i { withRx s pt rest with issuer := pt.agent }) := by
  unfold takeWord
  cases h : decode (rxOf s pt ++ [w]) with
  | error e =>
    cases e with
    | wordsToCome n => exact .inl ⟨n, rfl, rfl⟩
    | reservedOpcode o => exact .inr (.inl ⟨_, rfl, rfl⟩)
    | mustBeZero o => exact .inr (.inl ⟨_, rfl, rfl⟩)
  | ok r => exact .inr (.inr ⟨r.1, r.2, rfl, rfl⟩)

/-- What fetching an island can do (42_av_multiplexer R196). -/
theorem fetchIsland_cases (P : Params) (s : State) :
    (s.q0.head = s.q0.tail ∧
      fetchIsland P s = { s with diOut := silence P s.silIdx.toNat, silIdx := countMod P.silK s.silIdx }) ∨
    (s.q0.head ≠ s.q0.tail ∧ ∃ isl, memRead s.q0.buf s.q0.tail = some isl ∧
      fetchIsland P s = { s with q0 := { s.q0 with tail := (s.q0.tail + 1) % P.rbN 0 }, diOut := isl }) ∨
    (s.q0.head ≠ s.q0.tail ∧ memRead s.q0.buf s.q0.tail = none ∧
      fetchIsland P s = { s with
        q0 := { s.q0 with tail := (s.q0.tail + 1) % P.rbN 0 }
        diOut := drawIsland P s.draws
        draws := s.draws + islWords }) := by
  unfold fetchIsland
  rcases rbPop_cases (P.rbN 0) s.q0 with ⟨h, e⟩ | ⟨h, e⟩ <;> rw [e]
  · exact .inl ⟨h, rfl⟩
  · cases hr : memRead s.q0.buf s.q0.tail with
    | some isl => exact .inr (.inl ⟨h, isl, rfl, rfl⟩)
    | none => exact .inr (.inr ⟨h, rfl, rfl⟩)

/-- A counter kept below its period counts up or starts again (44 R259 e). -/
theorem countMod_toNat {period : Nat} (h0 : 0 < period) (hp : period ≤ 256) (c : Octet) :
    (countMod period c).toNat = (c.toNat + 1) % period := by
  unfold countMod
  rw [BitVec.toNat_ofNat, Nat.mod_eq_of_lt]
  exact Nat.lt_of_lt_of_le (Nat.mod_lt _ h0) hp

/-- The low bits of a word fit their width. -/
theorem trunc_lt (n : Nat) (w : Word) : (trunc n w).toNat < 2 ^ n := by
  unfold trunc
  rw [BitVec.toNat_ofNat]
  exact Nat.lt_of_le_of_lt (Nat.mod_le _ _) (Nat.mod_lt _ (Nat.two_pow_pos n))

/-- A register write touches one pending register or the watermark, never the active configuration. -/
theorem regWrite_act (s : State) (r : Reg) (w : Word) : (regWrite s r w).act = s.act := by
  cases r <;> rfl

/-- Every command completes, at this hardware's parameters: `exec` is `execAt` there (10_state R34). -/
theorem exec_eq_execAt (i : Instr) (s : State) : exec i s = execAt .moe i s := by
  cases i <;> rfl

/-- The step of this hardware is the parametric step at its parameters (10_state R34). -/
theorem step_eq_stepAt : step = stepAt .moe := by
  funext s
  have h : exec = execAt .moe := funext fun i => funext fun s => exec_eq_execAt i s
  unfold step stepAt
  rw [h]

/-- Every command completes: `exec` answers a next state, the one `runCommand` gives. -/
theorem exec_shape (i : Instr) (s : State) : exec i s = .next (runCommand .moe i s) := exec_eq_execAt i s

end Sys2Proof.Machine
end

