-- ==== Sys2Proof/Laws/PerInstr.lean ====
section
/-! SUPPORT. Statements about every instruction as syntax, one lemma per constructor. -/

namespace Sys2Proof.Laws.EncodeShape

/-- A command is one command word, whose opcode the map knows, and the operand words the opcode fixes
(30_encoding R100, R110). -/
def Statement (i : Instr) : Prop :=
  i.wellFormed = true →
    ∃ w ops, encode i = w :: ops ∧ (formatOf (opcOf w)).isSome = true ∧ ops.length = operandWords (opcOf w)

/-- The opcode of a command word whose argument fits its 24 bits. -/
theorem opcOf_commandWord (opc arg : Nat) (ho : opc < 256) (ha : arg < 0x1000000) :
    opcOf (commandWord opc arg) = opc := by
  unfold opcOf commandWord
  rw [BitVec.toNat_ofNat, Nat.mod_eq_of_lt (by omega)]
  omega

theorem nop : Statement .nop := fun _ => ⟨_, _, rfl, by decide, by decide⟩
theorem start : Statement .start := fun _ => ⟨_, _, rfl, by decide, by decide⟩
theorem stop : Statement .stop := fun _ => ⟨_, _, rfl, by decide, by decide⟩
theorem rend : Statement .rend := fun _ => ⟨_, _, rfl, by decide, by decide⟩
theorem pubt : Statement .pubt := fun _ => ⟨_, _, rfl, by decide, by decide⟩
theorem vstat : Statement .vstat := fun _ => ⟨_, _, rfl, by decide, by decide⟩
theorem tick : Statement .tick := fun _ => ⟨_, _, rfl, by decide, by decide⟩
theorem pkt : Statement .pkt := fun _ => ⟨_, _, rfl, by decide, by decide⟩
theorem reqx : Statement .reqx := fun _ => ⟨_, _, rfl, by decide, by decide⟩
theorem relx : Statement .relx := fun _ => ⟨_, _, rfl, by decide, by decide⟩
theorem xstat : Statement .xstat := fun _ => ⟨_, _, rfl, by decide, by decide⟩
theorem xchk : Statement .xchk := fun _ => ⟨_, _, rfl, by decide, by decide⟩

theorem aenq (w0 w1 w2 w3 : Word) : Statement (.aenq w0 w1 w2 w3) := fun _ => by
  refine ⟨_, _, rfl, ?_, ?_⟩ <;> rw [opcOf_commandWord _ _ (by omega) (by omega)] <;> rfl

theorem rdreg (reg : Nat) : Statement (.rdreg reg) := fun h => by
  have hf : reg < 256 := by simpa [Instr.wellFormed] using h
  refine ⟨_, _, rfl, ?_, ?_⟩ <;> rw [opcOf_commandWord _ _ (by omega) (by omega)] <;> rfl

theorem wrreg (reg : Nat) (w0 : Word) : Statement (.wrreg reg w0) := fun h => by
  have hf : reg < 256 := by simpa [Instr.wellFormed] using h
  refine ⟨_, _, rfl, ?_, ?_⟩ <;> rw [opcOf_commandWord _ _ (by omega) (by omega)] <;> rfl

theorem push (q : Nat) (w0 : Word) : Statement (.push q w0) := fun h => by
  have hf : q < 16 := by simpa [Instr.wellFormed] using h
  refine ⟨_, _, rfl, ?_, ?_⟩ <;> rw [opcOf_commandWord _ _ (by omega) (by omega)] <;> rfl

theorem pop (q : Nat) : Statement (.pop q) := fun h => by
  have hf : q < 16 := by simpa [Instr.wellFormed] using h
  refine ⟨_, _, rfl, ?_, ?_⟩ <;> rw [opcOf_commandWord _ _ (by omega) (by omega)] <;> rfl

theorem free (q : Nat) : Statement (.free q) := fun h => by
  have hf : q < 16 := by simpa [Instr.wellFormed] using h
  refine ⟨_, _, rfl, ?_, ?_⟩ <;> rw [opcOf_commandWord _ _ (by omega) (by omega)] <;> rfl

theorem used (q : Nat) : Statement (.used q) := fun h => by
  have hf : q < 16 := by simpa [Instr.wellFormed] using h
  refine ⟨_, _, rfl, ?_, ?_⟩ <;> rw [opcOf_commandWord _ _ (by omega) (by omega)] <;> rfl

theorem publ (idx : Nat) : Statement (.publ idx) := fun h => by
  have hf : idx < 65536 := by simpa [Instr.wellFormed] using h
  refine ⟨_, _, rfl, ?_, ?_⟩ <;> rw [opcOf_commandWord _ _ (by omega) (by omega)] <;> rfl

theorem pubf (idx : Nat) : Statement (.pubf idx) := fun h => by
  have hf : idx < 65536 := by simpa [Instr.wellFormed] using h
  refine ⟨_, _, rfl, ?_, ?_⟩ <;> rw [opcOf_commandWord _ _ (by omega) (by omega)] <;> rfl

theorem mrd (space addr : Nat) : Statement (.mrd space addr) := fun h => by
  have hf : space < 16 ∧ addr < 1048576 := by simpa [Instr.wellFormed] using h
  refine ⟨_, _, rfl, ?_, ?_⟩ <;> rw [opcOf_commandWord _ _ (by omega) (by omega)] <;> rfl

theorem mwr (space addr : Nat) (w0 : Word) : Statement (.mwr space addr w0) := fun h => by
  have hf : space < 16 ∧ addr < 1048576 := by simpa [Instr.wellFormed] using h
  refine ⟨_, _, rfl, ?_, ?_⟩ <;> rw [opcOf_commandWord _ _ (by omega) (by omega)] <;> rfl

end Sys2Proof.Laws.EncodeShape
end

