-- ==== Sys2Proof/Laws/Renderer.lean ====
section
/-! SUPPORT. The renderer: what a read, an access and a stage can do; and for a `REND` taken access by access with nothing
between its accesses, what a pixel and a stage of it leave (41_scanline_renderer R170, 44_system_and_memory_ops R251). -/

namespace Sys2Proof.Machine

/-- A read by `REND` gives one of the element's candidate values: the present one or one before a concurrent write. -/
theorem racedChoice_mem (P : Params) (now : Option Word) (olds : List (Option Word)) (i : Nat) :
    racedChoice P now olds i ∈ now :: olds := by
  unfold racedChoice
  split
  · exact List.mem_cons_self
  · rw [List.getD_eq_getElem?_getD,
      List.getElem?_eq_getElem (by simp only [List.length_cons]; exact Nat.mod_lt _ (Nat.succ_pos _)),
      Option.getD_some]
    exact List.getElem_mem _

/-- With no concurrent write a read by `REND` of an element that has a value gives it. -/
theorem rendRead_of_value {P : Params} {s : State} {sp : Space} {addr i : Nat} {v : Word}
    (hr : racedValues s sp addr = []) (hv : elementValue P s sp addr = some v) : rendRead P s sp addr i = v := by
  simp [rendRead, hr, racedChoice, hv]

/-- One access either reads the next element, or puts the pixel and moves on. -/
theorem accessStep_cases (P : Params) (r : RendPos) (s : State) :
    (∃ sp addr, nextRead P s r = some (sp, addr) ∧
      accessStep P r s = { s with svc := .rendering { r with
        held := r.held ++ [rendRead P s sp addr (r.base + drawsPerPixel * r.x + drawsPerRead * r.held.length)] } }) ∨
    (nextRead P s r = none ∧ accessStep P r s = { putPixel P s r with svc := .rendering (r.after P) }) := by
  unfold accessStep
  cases h : nextRead P s r with
  | some e => exact .inl ⟨e.1, e.2, rfl, rfl⟩
  | none => exact .inr ⟨rfl, rfl⟩

/-- A put writes at most one element of the slot being filled, and nothing else. -/
theorem putPixel_cases (P : Params) (s : State) (r : RendPos) :
    putPixel P s r = s ∨
    ∃ p, putPixel P s r = { s with lb := memWrite s.lb (slotIndex s.lbWr * P.wOut + r.x) (putValue P s p) } := by
  unfold putPixel
  split
  · exact .inr ⟨_, rfl⟩
  · exact .inl rfl

/-! ### Undisturbed, access by access -/

/-- Up to k micro-steps of a `REND` in progress, with nothing between them. -/
def rendSteps (P : Params) : Nat → State → State
  | 0, s => s
  | k + 1, s =>
    match s.svc with
    | .rendering r => rendSteps P k (rendStep P r s)
    | _ => s

theorem rendSteps_add (P : Params) (j k : Nat) (s : State) : rendSteps P (j + k) s = rendSteps P k (rendSteps P j s) := by
  induction j generalizing s with
  | zero => rw [Nat.zero_add]; rfl
  | succ j ih =>
    rw [Nat.succ_add]
    simp only [rendSteps]
    split
    · exact ih _
    · next h =>
      cases k with
      | zero => rfl
      | succ k => cases hs : s.svc <;> simp_all [rendSteps]

/-- `s` with a `REND` in progress that has left `m` in the line slots. -/
def inRend (P : Params) (s : State) (m : Mem Word) (stage : RendStage) (x : Nat) (held : List Word) : State :=
  { s with
    lb := m, draws := s.draws + drawsPerPixel * P.wOut, svc := .rendering ⟨stage, x, held, s.draws⟩ }

/-- No space but `LB` depends on the line slots, so a read in progress gives what it gives at once. -/
theorem rendRead_inRend (P : Params) (s : State) (m : Mem Word) (stage : RendStage) (x : Nat) (held : List Word)
    {sp : Space} (h : sp ≠ .lb) (addr i : Nat) :
    rendRead P (inRend P s m stage x held) sp addr i = rendRead P s sp addr i := by
  cases sp <;> first | rfl | exact absurd rfl h

/-- What a stage puts at output pixel x, every element read at once. -/
def stagePixel (P : Params) (s : State) (stage : RendStage) (x : Nat) : Option Word :=
  (planPixel P s.act (stagePlan P s stage x)
    (readAll P s (planReads (stagePlan P s stage x)) (s.draws + drawsPerPixel * x))).map (putValue P s)

/-- The line slots after a stage has put a pixel, or none. -/
def putAt (P : Params) (s : State) (m : Mem Word) (x : Nat) (v : Option Word) : Mem Word :=
  match v with
  | some v => memWrite m (slotIndex s.lbWr * P.wOut + x) v
  | none => m

/-- What stages 3 to 5 can do at a pixel: a margin, the overlay's element, or the source's plan. -/
theorem drawnPlan_cases (P : Params) (s : State) (y x : Nat) :
    drawnPlan P s y x = (.margin, .fill P.marginPix) ∨ (∃ a, drawnPlan P s y x = (.overlay, .copy .ovl a)) ∨
    ∃ ys xs, drawnPlan P s y x = (.source, sourcePlan P s.act ys xs) := by
  unfold drawnPlan
  dsimp only
  split
  · exact .inl rfl
  · split
    · exact .inr (.inl ⟨_, rfl⟩)
    · exact .inr (.inr ⟨_, _, rfl⟩)

/-- A source copies no element of `LB`. -/
theorem sourcePlan_copy {P : Params} {c : Conf} {ys xs : Nat} {sp : Space} {a : Nat}
    (h : sourcePlan P c ys xs = .copy sp a) : sp ≠ .lb := by
  unfold sourcePlan at h
  split at h
  · cases h; decide
  · cases h; decide
  · split at h <;> cases h

/-- No plan reads `LB`. -/
theorem stagePlan_reads (P : Params) (s : State) (stage : RendStage) (x : Nat) :
    ∀ e ∈ planReads (stagePlan P s stage x), e.1 ≠ .lb := by
  have H : ∀ (pl : PixelPlan), (∀ sp a, pl = .copy sp a → sp ≠ .lb) → ∀ e ∈ planReads pl, e.1 ≠ .lb := by
    intro pl h e he
    cases pl with
    | skip => simp [planReads] at he
    | fill p => simp [planReads] at he
    | copy sp a => simp only [planReads, List.mem_singleton] at he; rw [he]; exact h sp a rfl
    | glyph c r gx gy =>
      simp only [planReads, List.mem_cons, List.not_mem_nil, or_false] at he
      rcases he with rfl | rfl <;> simp
  apply H
  intro sp a h
  unfold stagePlan at h
  split at h
  · split at h <;> cases h
  · split at h
    · rcases drawnPlan_cases P s s.ln.toNat x with e | ⟨b, e⟩ | ⟨ys, xs, e⟩ <;> rw [e] at h
      · cases h
      · cases h; decide
      · exact sourcePlan_copy h
    · cases h

/-- The accesses of one pixel of a stage: its reads, its put, the move to the next place. -/
theorem rendSteps_pixel (P : Params) (s : State) (m : Mem Word) (stage : RendStage) (x : Nat) (hs : stage ≠ .publish) :
    ∃ k, rendSteps P k (inRend P s m stage x []) =
      { inRend P s (putAt P s m x (stagePixel P s stage x)) stage x [] with
        svc := .rendering (RendPos.after P ⟨stage, x, [], s.draws⟩) } := by
  have R := stagePlan_reads P s stage x
  have pl : ∀ m held, stagePlan P (inRend P s m stage x held) stage x = stagePlan P s stage x := fun _ _ => rfl
  have step : ∀ k held, rendSteps P (k + 1) (inRend P s m stage x held) =
      rendSteps P k (accessStep P ⟨stage, x, held, s.draws⟩ (inRend P s m stage x held)) := by
    intro k held
    simp only [rendSteps, inRend, rendStep, if_neg hs]
  have read : ∀ held sp addr, (planReads (stagePlan P s stage x))[held.length]? = some (sp, addr) →
      accessStep P ⟨stage, x, held, s.draws⟩ (inRend P s m stage x held) = inRend P s m stage x
        (held ++ [rendRead P s sp addr (s.draws + drawsPerPixel * x + drawsPerRead * held.length)]) := by
    intro held sp addr h
    unfold accessStep nextRead
    simp only [pl, h]
    rw [rendRead_inRend P s m stage x held (R _ (List.mem_of_getElem? h))]
    rfl
  have put : ∀ held, (planReads (stagePlan P s stage x))[held.length]? = none →
      accessStep P ⟨stage, x, held, s.draws⟩ (inRend P s m stage x held) =
        { inRend P s (putAt P s m x ((planPixel P s.act (stagePlan P s stage x) held).map (putValue P s))) stage x []
          with svc := .rendering (RendPos.after P ⟨stage, x, [], s.draws⟩) } := by
    intro held h
    unfold accessStep nextRead
    simp only [pl, h, putPixel]
    have ha : ∀ h', RendPos.after P ⟨stage, x, h', s.draws⟩ = RendPos.after P ⟨stage, x, [], s.draws⟩ := fun _ => rfl
    rw [ha]
    show _ = _
    cases hp : planPixel P s.act (stagePlan P s stage x) held with
    | none => simp [inRend, putAt, hp]
    | some p => simp [inRend, putAt, hp]; rfl
  unfold stagePixel
  cases hp : stagePlan P s stage x with
  | skip =>
    refine ⟨1, ?_⟩
    rw [step, put [] (by rw [hp]; rfl), hp]; rfl
  | fill p =>
    refine ⟨1, ?_⟩
    rw [step, put [] (by rw [hp]; rfl), hp]; rfl
  | copy sp a =>
    refine ⟨2, ?_⟩
    rw [step, read [] sp a (by rw [hp]; rfl), step, put _ (by rw [hp]; rfl), hp]; rfl
  | glyph c r gx gy =>
    refine ⟨3, ?_⟩
    rw [step, read [] .txt (2 * c) (by rw [hp]; rfl), step, read _ .txt (2 * c + 1) (by rw [hp]; rfl), step,
      put _ (by rw [hp]; rfl), hp]; rfl

/-- A whole stage writes a row, each pixel it gives at its place. -/
theorem rendSteps_stage (P : Params) (s : State) (m : Mem Word) (stage : RendStage) (hs : stage ≠ .publish)
    (hw : 0 < P.wOut) :
    ∃ k, rendSteps P k (inRend P s m stage 0 []) =
      inRend P s (memWriteRow m (slotIndex s.lbWr * P.wOut) (stagePixel P s stage) P.wOut) stage.after 0 [] := by
  have H : ∀ n, n < P.wOut → ∃ k, rendSteps P k (inRend P s m stage 0 []) =
      inRend P s (memWriteRow m (slotIndex s.lbWr * P.wOut) (stagePixel P s stage) n) stage n [] := by
    intro n
    induction n with
    | zero => exact fun _ => ⟨0, rfl⟩
    | succ n ih =>
      intro hn
      obtain ⟨j, hj⟩ := ih (by omega)
      obtain ⟨k, hk⟩ := rendSteps_pixel P s (memWriteRow m (slotIndex s.lbWr * P.wOut) (stagePixel P s stage) n) stage n hs
      refine ⟨j + k, ?_⟩
      rw [rendSteps_add, hj, hk]
      have next : RendPos.after P ⟨stage, n, [], s.draws⟩ = ⟨stage, n + 1, [], s.draws⟩ := if_pos hn
      exact congrArg (fun r => { inRend P s (memWriteRow m (slotIndex s.lbWr * P.wOut) (stagePixel P s stage) (n + 1))
        stage n [] with svc := .rendering r }) next
  obtain ⟨n, hn⟩ : ∃ n, P.wOut = n + 1 := ⟨P.wOut - 1, by omega⟩
  obtain ⟨j, hj⟩ := H n (by omega)
  obtain ⟨k, hk⟩ := rendSteps_pixel P s (memWriteRow m (slotIndex s.lbWr * P.wOut) (stagePixel P s stage) n) stage n hs
  refine ⟨j + k, ?_⟩
  rw [rendSteps_add, hj, hk]
  have next : RendPos.after P ⟨stage, n, [], s.draws⟩ = ⟨stage.after, 0, [], s.draws⟩ := if_neg (by simp only; omega)
  have row : memWriteRow m (slotIndex s.lbWr * P.wOut) (stagePixel P s stage) P.wOut =
      putAt P s (memWriteRow m (slotIndex s.lbWr * P.wOut) (stagePixel P s stage) n) n (stagePixel P s stage n) :=
    congrArg (memWriteRow m (slotIndex s.lbWr * P.wOut) (stagePixel P s stage)) hn
  rw [row]
  exact congrArg (fun r => { inRend P s
    (putAt P s (memWriteRow m (slotIndex s.lbWr * P.wOut) (stagePixel P s stage) n) n (stagePixel P s stage n))
    stage n [] with svc := .rendering r }) next

/-- The four stages one after the other leave at each pixel what one step leaves. -/
theorem stages_pixel (P : Params) (s : State) (x : Nat) :
    ((((stagePixel P s .source x).or (stagePixel P s .overlay x)).or (stagePixel P s .margin x)).or
      (stagePixel P s .clear x)) = rendPixel P s x := by
  have hstage : (drawnPlan P s s.ln.toNat x).1 = .margin ∨ (drawnPlan P s s.ln.toNat x).1 = .overlay ∨
      (drawnPlan P s s.ln.toNat x).1 = .source := by
    rcases drawnPlan_cases P s s.ln.toNat x with e | ⟨_, e⟩ | ⟨_, _, e⟩ <;> rw [e]
    · exact .inl rfl
    · exact .inr (.inl rfl)
    · exact .inr (.inr rfl)
  unfold stagePixel rendPixel linePixel drawnPixel stagePlan
  rcases hstage with h | h | h <;> simp only [h] <;> cases hc : clearsLine s <;>
    simp only [reduceCtorEq, if_true, if_false, Bool.false_eq_true] <;>
    cases hp : planPixel P s.act (drawnPlan P s s.ln.toNat x).2
      (readAll P s (planReads (drawnPlan P s s.ln.toNat x).2) (s.draws + drawsPerPixel * x)) <;>
    simp [planPixel]

end Sys2Proof.Machine
end

