-- ==== Sys2Proof/Tests/Slice0.lean ====
section
/-! SUPPORT. The model's own tests. Expected results come from spec/95_test_vectors.md (named at each test) or are
calculated by hand from the rule named. After them, for every statement with hypotheses, a concrete state and operands
that meet them. -/

namespace Sys2Proof.Tests

open Sys2Proof Sys2Proof.Machine

/-! ### WellFormed refuses an ill-formed term of each check -/

theorem test_wf_rdreg : (Instr.rdreg 256).wellFormed = false := by decide
theorem test_wf_wrreg : (Instr.wrreg 256 0#32).wellFormed = false := by decide
theorem test_wf_push : (Instr.push 16 0#32).wellFormed = false := by decide
theorem test_wf_pop : (Instr.pop 16).wellFormed = false := by decide
theorem test_wf_free : (Instr.free 16).wellFormed = false := by decide
theorem test_wf_used : (Instr.used 16).wellFormed = false := by decide
theorem test_wf_publ : (Instr.publ 65536).wellFormed = false := by decide
theorem test_wf_pubf : (Instr.pubf 65536).wellFormed = false := by decide
theorem test_wf_mrd : (Instr.mrd 16 0).wellFormed = false ∧ (Instr.mrd 0 1048576).wellFormed = false := by decide
theorem test_wf_mwr : (Instr.mwr 16 0 0#32).wellFormed = false ∧ (Instr.mwr 0 1048576 0#32).wellFormed = false := by
  decide

/-! ### Decoding: the words of V-ENC-1, one for every command -/

theorem test_decode_nop : decode [0x00000000#32] = .ok (.nop, []) := by decide
theorem test_decode_start : decode [0x01000000#32] = .ok (.start, []) := by decide
theorem test_decode_stop : decode [0x02000000#32] = .ok (.stop, []) := by decide
theorem test_decode_rdreg : decode [0x0300000A#32] = .ok (.rdreg 10, []) := by decide
theorem test_decode_wrreg : decode [0x04000008#32, 0x00016666#32] = .ok (.wrreg 8 0x00016666#32, []) := by decide
theorem test_decode_push : decode [0x10100000#32, 0x000000A1#32] = .ok (.push 1 0x000000A1#32, []) := by decide
theorem test_decode_pop : decode [0x11200000#32] = .ok (.pop 2, []) := by decide
theorem test_decode_free : decode [0x12000000#32] = .ok (.free 0, []) := by decide
theorem test_decode_used : decode [0x13200000#32] = .ok (.used 2, []) := by decide
theorem test_decode_rend : decode [0x20000000#32] = .ok (.rend, []) := by decide
theorem test_decode_publ : decode [0x210000EF#32] = .ok (.publ 239, []) := by decide
theorem test_decode_pubf : decode [0x22000001#32] = .ok (.pubf 1, []) := by decide
theorem test_decode_pubt : decode [0x23000000#32] = .ok (.pubt, []) := by decide
theorem test_decode_vstat : decode [0x24000000#32] = .ok (.vstat, []) := by decide
theorem test_decode_tick : decode [0x30000000#32] = .ok (.tick, []) := by decide
theorem test_decode_pkt : decode [0x31000000#32] = .ok (.pkt, []) := by decide
theorem test_decode_aenq :
    decode [0x32000000#32, 1#32, 2#32, 3#32, 4#32] = .ok (.aenq 1#32 2#32 3#32 4#32, []) := by decide
theorem test_decode_reqx : decode [0x40000000#32] = .ok (.reqx, []) := by decide
theorem test_decode_relx : decode [0x41000000#32] = .ok (.relx, []) := by decide
theorem test_decode_xstat : decode [0x42000000#32] = .ok (.xstat, []) := by decide
theorem test_decode_xchk : decode [0x43000000#32] = .ok (.xchk, []) := by decide
theorem test_decode_mrd : decode [0x5011E0FF#32] = .ok (.mrd 1 0x1E0FF, []) := by decide
theorem test_decode_mwr : decode [0x5130EFFF#32, 2#32] = .ok (.mwr 3 0xEFFF 2#32, []) := by decide

/-- V-ENC-2: a reserved opcode takes no operand word; a must-be-zero bit is refused after the operand words. -/
theorem test_decode_refuses :
    decode [0x05000000#32, 7#32] = .error (.reservedOpcode 0x05) ∧
    decode [0xFFFFFFFF#32] = .error (.reservedOpcode 0xFF) ∧
    decode [0x00000001#32] = .error (.mustBeZero 0x00) ∧
    decode [0x04000104#32] = .error (.wordsToCome 1) ∧
    decode [0x04000104#32, 0xFFFFFFFF#32] = .error (.mustBeZero 0x04) ∧
    decode [0x11180000#32] = .error (.mustBeZero 0x11) ∧
    decode [0x21010005#32] = .error (.mustBeZero 0x21) := by decide

/-- The table's numbering: the first word is the low 32 bits, the operand word stands above it. -/
theorem test_table_word : decodeTableWord 64 0x0001666604000008 = some (.wrreg 8 0x00016666#32) := by decide

/-- The words the encoder writes are those of V-ENC-1. -/
theorem test_encode :
    encode (.mwr 3 0xEFFF 2#32) = [0x5130EFFF#32, 2#32] ∧ encode (.push 1 0xA1#32) = [0x10100000#32, 0xA1#32] ∧
    encode (.publ 239) = [0x210000EF#32] ∧ encode .xchk = [0x43000000#32] := by decide

/-! ### Parameter sets and states of the vectors -/

/-- The stand-ins of 95_test_vectors section 0: `ENC_REF`, `FONT_REF`; free values that count. -/
def refParams : Params :=
  { Params.moe with
    encoder := {}, encoder_width := fun _ _ _ _ _ _ => BitVec.isLt _, font := fun ch _ => BitVec.ofNat 32 ch
    draw := fun n => BitVec.ofNat 32 n }

/-- Set G4: rings of four slots. -/
def setG4 : Params := { refParams with rbN := fun q => if q = 0 then 256 else 4 }

/-- Set T: a tiny display. -/
def setT : Params := { refParams with wOut := 8, vActive := 4, vBlank := 2, wSrc := 4, hSrc := 2, gw := 2, gh := 2, cols := 2, rows := 1 }

/-- Set O: the overlay scenario. -/
def setO : Params := { refParams with wOut := 24, vActive := 16, vBlank := 2, wSrc := 12, hSrc := 8, cols := 1, rows := 1 }

/-- One instance, a shorter encoder period (lcm (2, 24 / 4) = 6) and a silence table of that length. -/
def setN : Params :=
  { refParams with
    nq := 1, esPeriod := 6, fcMod := 24, silK := 6, encoder := {}
    encoder_width := fun _ _ _ _ _ _ => BitVec.isLt _ }

/-- Five instances, the two above 2 with eight slots. -/
def setQ : Params := { refParams with nq := 5, rbN := fun q => if q = 0 then 256 else if q < 3 then 1024 else 8 }

/-- The constraints of 00_scope R8: the sets of the vectors meet them; a fourth instance with six slots, a period
`FC_MOD` that four does not divide, a table longer than the period, a gap between channels and a bit in two channels do
not. -/
theorem test_params :
    (Params.moe.ok = true ∧ Params.moe.fits = true) ∧ setT.ok = true ∧ setO.ok = true ∧ (setN.ok = true ∧ setN.fits = true) ∧
    (setQ.ok = true ∧ setQ.fits = true) ∧
    ({ refParams with nq := 4, rbN := fun q => if q = 3 then 6 else 256, diHwm := 200 } : Params).ok = false ∧
    ({ refParams with
      fcMod := 193, encoder := {}, encoder_width := fun _ _ _ _ _ _ => BitVec.isLt _ } : Params).ok = false ∧
    ({ refParams with silK := 47 } : Params).ok = false ∧
    ({ refParams with ch := [(15, 11), (9, 5), (4, 0)] } : Params).ok = false ∧
    ({ refParams with ch := [(15, 11), (10, 4), (4, 0)] } : Params).ok = false := by decide

/-- The reset state with port P as the issuer. -/
def onP : State := { State.reset with issuer := .p }

/-- The reset state with port C1 as the issuer. -/
def onC1 : State := { State.reset with issuer := .c1 }

/-- The reset state with port C2 as the issuer. -/
def onC2 : State := { State.reset with issuer := .c2 }

/-! ### Commands: expected results from 95_test_vectors -/

/-- V-EXC-1: `NOP` on C2 answers `OK`. -/
theorem test_nop : respOf (runNop onC2) .c2 = some ⟨.ok, []⟩ := by decide

/-- V-EXC-1: `START` on C2 is refused with `PORT` and asks for nothing. -/
theorem test_start : (runStart onP).runReq = true ∧ respOf (runStart onC2) .c2 = some ⟨.port, []⟩ ∧
    (runStart onC2).runReq = false := by decide

theorem test_stop : (runStop { onP with runReq := true }).runReq = false := by decide

/-- End of P2: `STATUS` 0x5C5 and `LINE` 0x10008. -/
theorem test_rdreg :
    let s : State := { onP with seq := .run, vsync := true, ln := 8#16, runReq := true, txRun := true, diValid := true }
    respOf (runRdreg .moe 0x00 s) .p = some ⟨.ok, [0x000005C5#32]⟩ ∧
    respOf (runRdreg .moe 0x02 s) .p = some ⟨.ok, [0x00010008#32]⟩ := by decide

/-- V-SYS-2: `SELROW` keeps bits 31 and 15 to 0; register 0x14 is `RANGE` before `RO`; the active copy stays. -/
theorem test_wrreg :
    (runWrreg .moe 0x0B 0xFFFFFFFF#32 onP).pend.selrow = 0x8000FFFF#32 ∧
    (runWrreg .moe 0x0B 0xFFFFFFFF#32 onP).act.selrow = 0#32 ∧
    respOf (runWrreg .moe 0x00 1#32 onP) .p = some ⟨.ro, []⟩ ∧
    respOf (runWrreg .moe 0x14 1#32 onP) .p = some ⟨.range, []⟩ := by decide

/-- V-RB-1: `PUSH` wraps the head of a ring of four. -/
theorem test_push_wraps :
    (runPush setG4 1 0xAB#32 { onP with q1 := ⟨3, 1, [(1, 0x11#32), (2, 0x22#32)]⟩ }).q1 =
      ⟨0, 1, [(1, 0x11#32), (2, 0x22#32), (3, 0xAB#32)]⟩ := by decide

/-- V-RB-1: a full ring answers `FULL` and keeps its slots. -/
theorem test_push_full :
    let s : State := { onP with q1 := ⟨0, 1, [(1, 0x11#32), (2, 0x22#32), (3, 0xAB#32)]⟩ }
    respOf (runPush setG4 1 0xCD#32 s) .p = some ⟨.full, []⟩ ∧ (runPush setG4 1 0xCD#32 s).q1 = s.q1 := by decide

/-- V-RB-2: `POP` at the last slot gives its element and wraps the tail. -/
theorem test_pop :
    let s : State := { onC2 with q2 := ⟨0, 1023, [(1022, 0x7777#32), (1023, 0xDEADBEEF#32)]⟩ }
    respOf (runPop refParams 2 s) .c2 = some ⟨.ok, [0xDEADBEEF#32]⟩ ∧ (runPop refParams 2 s).q2.tail = 0 ∧
    respOf (runPop refParams 2 onC2) .c2 = some ⟨.empty, []⟩ := by decide

/-- V-RB-5: the order of the checks of `POP` on C1. -/
theorem test_pop_checks :
    respOf (runPop refParams 2 onC1) .c1 = some ⟨.port, []⟩ ∧ respOf (runPop refParams 0 onC1) .c1 = some ⟨.port, []⟩ ∧
    respOf (runPop refParams 5 onC1) .c1 = some ⟨.range, []⟩ := by decide

/-- S7, row N = 1024, head 0, tail 1023: one used, 1022 free. -/
theorem test_used_free :
    let s : State := { onP with q1 := ⟨0, 1023, []⟩ }
    respOf (runUsed refParams 1 s) .p = some ⟨.ok, [1#32]⟩ ∧
    respOf (runFree refParams 1 s) .p = some ⟨.ok, [1022#32]⟩ := by decide

/-- The framebuffer of P4. -/
def fbP4 : Mem Word :=
  [(0, 0xF800#32), (1, 0x07E0#32), (2, 0x001F#32), (3, 0xFFFF#32), (4, 0x1111#32), (5, 0x2222#32), (6, 0x3333#32),
    (7, 0x4444#32)]

/-- P4, frame 1, line 1: the odd line is darkened, in slot 1. -/
theorem test_rend_dark :
    let s : State := { State.reset with ln := 1#16, lbWr := true, fb := fbP4, act := { Conf.reset with src := .frame, mode := 2#32 } }
    (runRend setT s).lb =
      [(8, 0x7800#32), (9, 0x7800#32), (10, 0x03E0#32), (11, 0x03E0#32), (12, 0x000F#32), (13, 0x000F#32),
        (14, 0x7BEF#32), (15, 0x7BEF#32)] ∧ (runRend setT s).lbPub = true ∧ (runRend setT s).lbWr = false := by decide

/-- P4, frame 3, line 2: one left and two right margin pixels, five drawn pixels of source line 1. -/
theorem test_rend_aspect :
    let c : Conf := { Conf.reset with src := .frame, mode := 3#32, marginH := 0x00020001#32, marginV := 0x00010001#32 }
    (runRend setT { State.reset with ln := 2#16, fb := fbP4, act := c }).lb =
      [(0, 0#32), (1, 0x1111#32), (2, 0x1111#32), (3, 0x2222#32), (4, 0x3333#32), (5, 0x4444#32), (6, 0#32),
        (7, 0#32)] := by decide

/-- The state of S5: one text cell, an overlay of two by two, slot 0 holding 0xEEEE. -/
def stateS5 (ctrl pos : Word) : State :=
  { State.reset with
    txt := [(0, 0x000000A5#32), (1, 0x001FFFFF#32)]
    ovl := [(0, 0x1111#32), (1, 0x2222#32), (2, 0x3333#32), (3, 0x4444#32)]
    lb := (List.range 24).map fun x => (x, 0xEEEE#32)
    ovlOk := true
    act := { Conf.reset with ovlCtrl := ctrl, ovlPos := pos, ovlSize := 0x00020002#32 } }

/-- S5, static at (0,0): overlay, then text, and the stale pixels outside the grid stay. -/
theorem test_rend_overlay_static :
    (runRend setO (stateS5 1#32 0#32)).lb.map (·.2) =
      [0x1111#32, 0x1111#32, 0x2222#32, 0x2222#32, 0xFFFF#32, 0xFFFF#32, 0x001F#32, 0x001F#32, 0x001F#32, 0x001F#32,
        0xFFFF#32, 0xFFFF#32, 0x001F#32, 0x001F#32, 0xFFFF#32, 0xFFFF#32, 0xEEEE#32, 0xEEEE#32, 0xEEEE#32, 0xEEEE#32,
        0xEEEE#32, 0xEEEE#32, 0xEEEE#32, 0xEEEE#32] := by decide

/-- S5, moving at (2,0): clear, then overlay over source columns 2 and 3, then text elsewhere. -/
theorem test_rend_overlay_moving :
    (runRend setO (stateS5 3#32 2#32)).lb.map (·.2) =
      [0xFFFF#32, 0xFFFF#32, 0x001F#32, 0x001F#32, 0x1111#32, 0x1111#32, 0x2222#32, 0x2222#32, 0x001F#32, 0x001F#32,
        0xFFFF#32, 0xFFFF#32, 0x001F#32, 0x001F#32, 0xFFFF#32, 0xFFFF#32, 0#32, 0#32, 0#32, 0#32, 0#32, 0#32, 0#32,
        0#32] := by decide

/-- V-SR-1 and V-SR-2: the maps of 1:1 mode and of two aspect settings. -/
theorem test_maps :
    let one := horizontal .moe Conf.reset
    let asp := horizontal .moe { Conf.reset with mode := 1#32, marginH := 0x00200020#32 }
    let ver := vertical .moe { Conf.reset with mode := 1#32, marginV := 0x00100010#32 }
    inMargin one 640 63 = true ∧ inMargin one 640 64 = false ∧ sourceIndex one 256 575 = 255 ∧
    inMargin one 640 576 = true ∧ sourceIndex asp 256 35 = 1 ∧ sourceIndex asp 256 605 = 254 ∧
    inMargin asp 640 608 = true ∧ inMargin ver 480 15 = true ∧ sourceIndex ver 240 463 = 239 := by decide

/-- S4: `dark` of four pixels. -/
theorem test_dark : dark .moe 0xFFFF#32 = 0x7BEF#32 ∧ dark .moe 0x2945#32 = 0x10A2#32 ∧
    dark .moe 0x1234#32 = 0x090A#32 ∧ dark .moe 0x8410#32 = 0x4208#32 := by decide

/-- V-SR-6: `PUBL 5` tags slot 1; `SRC` reads 0x08 and `LSTAG1` 0x80000005. -/
theorem test_publ : srcWord (runPubl .moe 5 onP) = 0x08#32 ∧ lstagWord (runPubl .moe 5 onP).ls1 = 0x80000005#32 ∧
    (runPubl .moe 5 onP).ls0.seen = false := by decide

/-- V-SR-6: `PUBF 1` makes `SRC` read 0x24, `PUBF 2` is `RANGE`. -/
theorem test_pubf : srcWord (runPubf .moe 1 onP) = 0x24#32 ∧
    respOf (runPubf .moe 2 onP) .p = some ⟨.range, []⟩ := by decide

/-- V-SR-6: `PUBT` after `PUBF 1` keeps the bank: `SRC` reads 0x20. -/
theorem test_pubt : srcWord (runPubt (runPubf .moe 1 onP)) = 0x20#32 := by decide

theorem test_vstat : respOf (runVstat { onP with vsync := true }) .p = some ⟨.ok, [1#32]⟩ := by decide

/-- V-AVM-1, line 3: `TICK` takes the accumulator from 0x2CCCC to 0x43332. -/
theorem test_tick :
    (runTick { State.reset with acc := 0x0002CCCC#32, act := { Conf.reset with spl := 0x00016666#32 } }).acc =
      0x00043332#32 := by decide

/-- V-AVM-1, line 6: silence entry 1 goes out, flag 1, and 0x6664 stays in the accumulator. -/
theorem test_pkt_silence :
    let t := runPkt refParams { State.reset with acc := 0x00046664#32, silIdx := 1#8 }
    t.acc = 0x00006664#32 ∧ t.silIdx = 2#8 ∧ t.diOut[0] = 1#32 ∧ refParams.encoder.flag t.diOut = true ∧
    t.diValid = true := by decide

/-- P2, lines 3 and 4: below the threshold `NOTDUE`; at it the queued island goes out. -/
theorem test_pkt_queued :
    let isl := encRef 0x00050005#32 0x00060006#32 0x00070007#32 0x00080008#32 1
    let s : State := { State.reset with q0 := ⟨2, 1, [(1, isl)]⟩ }
    respOf (runPkt refParams { s with acc := 0x20000#32 }) .seq = some ⟨.notDue, []⟩ ∧
    (runPkt refParams { s with acc := 0x40000#32 }).diOut[1] = 0x00050005#32 ∧
    (runPkt refParams { s with acc := 0x40000#32 }).q0.tail = 2 ∧
    (runPkt refParams { s with acc := 0x40000#32 }).silIdx = 0#8 := by decide

/-- V-AVM-5: `AENQ` at encoder state 47 starts it again at 0; with 255 waiting, `HWM` before `FULL`. -/
theorem test_aenq :
    (runAenq refParams 1#32 2#32 3#32 4#32 { onP with q0 := ⟨10, 8, []⟩, encEs := 47#8 }).encEs = 0#8 ∧
    respOf (runAenq refParams 1#32 2#32 3#32 4#32 { onP with q0 := ⟨7, 8, []⟩ }) .p = some ⟨.hwm, []⟩ ∧
    respOf (runAenq refParams 1#32 2#32 3#32 4#32 { onP with q0 := ⟨7, 8, []⟩, hwm := 0xFFFFFFFF#32 }) .p =
      some ⟨.full, []⟩ := by decide

/-- With one instance queue 1 and `HEAD1` do not exist; encoder state and silence index start again at the period. -/
theorem test_other_parameters :
    respOf (runPush setN 1 0#32 onP) .p = some ⟨.range, []⟩ ∧ respOf (runRdreg setN 0x22 onP) .p = some ⟨.range, []⟩ ∧
    (runAenq setN 1#32 2#32 3#32 4#32 { onP with encEs := 5#8 }).encEs = 0#8 ∧
    (runPkt setN { State.reset with acc := 0x40000#32, silIdx := 5#8 }).silIdx = 0#8 := by decide

/-- With five instances: instance 4 has seven free slots, nothing waiting and a `TAIL`, no port may push or pop it, and
register 0x2A and queue 5 do not exist (30_encoding R112 step 4a; 40_ring_buffer R134 to R137, R139). -/
theorem test_more_instances :
    respOf (runFree setQ 4 onP) .p = some ⟨.ok, [7#32]⟩ ∧ respOf (runUsed setQ 4 onP) .p = some ⟨.ok, [0#32]⟩ ∧
    respOf (runRdreg setQ 0x29 onP) .p = some ⟨.ok, [0#32]⟩ ∧ respOf (runWrreg setQ 0x28 1#32 onP) .p = some ⟨.ro, []⟩ ∧
    respOf (runPush setQ 3 1#32 onP) .p = some ⟨.port, []⟩ ∧ respOf (runPop setQ 3 onC1) .c1 = some ⟨.port, []⟩ ∧
    respOf (runRdreg setQ 0x2A onP) .p = some ⟨.range, []⟩ ∧ respOf (runPush setQ 5 1#32 onP) .p = some ⟨.range, []⟩ := by
  decide

/-- The parametric step at a tiny display: the last of its two blanking lines ends the blanking. -/
theorem test_step_other_parameters :
    let s : State := { State.reset with seq := .run, busy := true, vsync := true, ln := 1#16, svc := .blank }
    (nextOr (stepAt setT s) s).vsync = false ∧ (nextOr (step s) s).vsync = true := by decide

/-- V-XCC-1: a second request is `BUSY`, a release without a grant is `PROTO`. -/
theorem test_reqx_relx : (runReqx onP).xreq = true ∧ respOf (runReqx (runReqx onP)) .p = some ⟨.busy, []⟩ ∧
    respOf (runRelx (runReqx onP)) .p = some ⟨.proto, []⟩ := by decide

/-- V-XCC-1: `XSTAT` in the four states of the request. -/
theorem test_xstat :
    respOf (runXstat { onP with xreq := true, xgnt := true }) .p = some ⟨.ok, [2#32]⟩ ∧
    respOf (runXstat { onP with xgnt := true }) .p = some ⟨.ok, [3#32]⟩ := by decide

/-- V-XCC-1 and V-XCC-4: a grant while stopped; release with no session wanted. -/
theorem test_xchk :
    ((runXchk .moe { State.reset with xreq := true }).seq, (runXchk .moe { State.reset with xreq := true }).xgnt) =
      (.parked, true) ∧
    (runXchk .moe { State.reset with seq := .parked, xgnt := true, vsync := true }).seq = .stopped ∧
    (runXchk .moe { State.reset with seq := .parked, xgnt := true, vsync := true }).vsync = false := by decide

/-- P5: a session start after `PUBL` latches the source and starts in blanking. -/
theorem test_session_start :
    let t := runXchk .moe { State.reset with runReq := true, pend := { Conf.reset with src := .line } }
    (t.seq, t.vsync, t.txRun, t.act.src) = (.run, true, true, .line) := by decide

/-- V-SYS-4: a pixel keeps its low 16 bits; the last word of `TXT`; `LB` is read-only, and `RANGE` comes first. -/
theorem test_mwr :
    (runMwr .moe 1 5 0xFFFF1234#32 onP).fb = [(5, 0x1234#32)] ∧
    (runMwr .moe 0 0x77F 0xFFFF0000#32 onP).txt = [(0x77F, 0xFFFF0000#32)] ∧
    respOf (runMwr .moe 4 0 0#32 onP) .p = some ⟨.ro, []⟩ ∧
    respOf (runMwr .moe 4 0x500 0#32 onP) .p = some ⟨.range, []⟩ := by decide

/-- V-AVM-8 and V-SYS-4: a word of the silence table, a glyph row, a stored pixel. -/
theorem test_mrd :
    respOf (runMrd refParams 5 180 onP) .p = some ⟨.ok, [5#32]⟩ ∧
    respOf (runMrd refParams 6 0x20A onP) .p = some ⟨.ok, [0x41#32]⟩ ∧
    respOf (runMrd refParams 1 5 { onP with fb := [(5, 0x1234#32)] }) .p = some ⟨.ok, [0x1234#32]⟩ ∧
    respOf (runMrd refParams 7 0 onP) .p = some ⟨.range, []⟩ := by decide

/-- V-EXC-2: a `LINE_REQ` inside a service sets the fault and nothing of the service. -/
theorem test_overrun :
    (takeLineReq { State.reset with seq := .run, busy := true, svc := .rend }).fault = 1#32 ∧
    (takeLineReq { State.reset with seq := .run, busy := true, svc := .rend }).svc = .rend ∧
    takeLineReq State.reset = State.reset := by decide

/-- V-SYS-1, by the host's own placing: `RDREG 0x0A` as the first command after reset reads 200. -/
theorem test_first_command :
    (nextOr (step (State.reset.withFetchWord 32 0x0300000A)) State.reset).respP = some ⟨.ok, [0xC8#32]⟩ := by decide

/-! ### Witnesses: for every statement with hypotheses, states and operands that meet them -/

/-- The state with one event to come. -/
def awaiting (e : Event) : State := { State.reset with inputs := [e] }

theorem witness_DecodeEncodeRoundTrip :
    (Instr.rdreg 255).wellFormed = true ∧ (Instr.push 15 0#32).wellFormed = true ∧
    (Instr.publ 65535).wellFormed = true ∧ (Instr.mrd 15 0xFFFFF).wellFormed = true := by decide

theorem witness_DecodedWordsAreTheEncoding :
    decode [0x51FFFFFF#32, 9#32, 8#32] = .ok (.mwr 15 0xFFFFF 9#32, [8#32]) := by decide

theorem witness_ReservedOpcodeIsIllegal :
    (awaiting (.word .p 0x05000000#32)).inputs = .word .p 0x05000000#32 :: [] ∧
    rxOf (awaiting (.word .p 0x05000000#32)) .p = [] ∧
    (0x05000000#32 : Word).toNat / 2 ^ 24 ∉ [0x00, 0x01, 0x02, 0x03, 0x04, 0x10, 0x11, 0x12, 0x13, 0x20, 0x21, 0x22,
      0x23, 0x24, 0x30, 0x31, 0x32, 0x40, 0x41, 0x42, 0x43, 0x50, 0x51] := by decide

/-- The seven forms of a must-be-zero refusal, each at a boundary bit; the words waiting and the last word. -/
theorem witness_MustBeZeroBitsAreIllegal :
    (let s := awaiting (.word .p 0x43000001#32)
     s.inputs = .word .p 0x43000001#32 :: [] ∧ rxOf s .p ++ [0x43000001#32] = 0x43000001#32 :: [] ∧
     (0x43000001#32 : Word).toNat / 2 ^ 24 = 0x43 ∧ (0x43000001#32 : Word).toNat % 2 ^ 24 ≠ 0) ∧
    (let s := { awaiting (.word .p 4#32) with rxP := [0x32800000#32, 1#32, 2#32, 3#32] }
     rxOf s .p ++ [4#32] = 0x32800000#32 :: [1#32, 2#32, 3#32, 4#32] ∧
     (0x32800000#32 : Word).toNat / 2 ^ 24 = 0x32 ∧ (0x32800000#32 : Word).toNat % 2 ^ 24 ≠ 0) ∧
    ((0x03000100#32 : Word).toNat / 2 ^ 24 = 0x03 ∧ (0x03000100#32 : Word).toNat / 2 ^ 8 % 2 ^ 16 ≠ 0) ∧
    (let s := { awaiting (.word .p 7#32) with rxP := [0x04800000#32] }
     rxOf s .p ++ [7#32] = 0x04800000#32 :: [7#32] ∧
     (0x04800000#32 : Word).toNat / 2 ^ 24 = 0x04 ∧ (0x04800000#32 : Word).toNat / 2 ^ 8 % 2 ^ 16 ≠ 0) ∧
    (let s := { awaiting (.word .p 7#32) with rxP := [0x10080000#32] }
     rxOf s .p ++ [7#32] = 0x10080000#32 :: [7#32] ∧
     (0x10080000#32 : Word).toNat / 2 ^ 24 = 0x10 ∧ (0x10080000#32 : Word).toNat % 2 ^ 20 ≠ 0) ∧
    ((0x13080000#32 : Word).toNat / 2 ^ 24 ∈ [0x11, 0x12, 0x13] ∧ (0x13080000#32 : Word).toNat % 2 ^ 20 ≠ 0) ∧
    ((0x22010000#32 : Word).toNat / 2 ^ 24 ∈ [0x21, 0x22] ∧ (0x22010000#32 : Word).toNat / 2 ^ 16 % 2 ^ 8 ≠ 0) ∧
    (0x50FFFFFF#32 : Word).toNat / 2 ^ 24 = 0x50 ∧ (0x51FFFFFF#32 : Word).toNat / 2 ^ 24 = 0x51 := by decide

theorem witness_StepRunsTheDecodedCommand :
    (awaiting (.word .c1 0#32)).inputs = .word .c1 0#32 :: [] ∧
    decode (rxOf (awaiting (.word .c1 0#32)) .c1 ++ [0#32]) = .ok (.nop, []) ∧ Instr.nop.wellFormed = true ∧
    decode (rxOf (awaiting (.word .p 0x04000008#32)) .p ++ [0x04000008#32]) = .error (.wordsToCome 1) := by decide

/-- SEQ at every place of a service, idle in `RUN` and not, with the list empty; and with either of SEQ's two events next.
A `REND` by access at a read, at a put, and at the publication; a pixel of each stage, at the edges of margins and overlay,
with what is left out beside it, and the two reads of a text cell. -/
theorem witness_SeqStepsThroughTheService :
    (∀ (v : Svc) (q : Seq), ({ State.reset with svc := v, seq := q } : State).inputs = [] ∧
      ({ State.reset with svc := v, seq := q } : State).svc = v ∧
      ({ State.reset with svc := v, seq := q } : State).seq = q) ∧
    (∀ e ∈ [Event.seq, .seqByAccess], (awaiting e).inputs = e :: State.reset.inputs ∧
      State.reset = { awaiting e with inputs := State.reset.inputs }) ∧
    (let s : State := { State.reset with act := { Conf.reset with src := .frame } }
     nextRead .moe s ⟨.source, 575, [], 0⟩ = some (.fb, 255) ∧ nextRead .moe s ⟨.source, 575, [9#32], 0⟩ = none ∧
     planPixel .moe s.act (stagePlan .moe s .source 575) [9#32] = some 9#32 ∧
     planPixel .moe s.act (stagePlan .moe s .source 639) [] = none) ∧
    (let s : State := { State.reset with
       ovlOk := true, act := { Conf.reset with ovlCtrl := 3#32, ovlPos := 1#32, ovlSize := 0x00010001#32 } }
     let f : State := { s with act := { s.act with src := .frame } }
     stagePlan .moe s .clear 0 = .fill 0#32 ∧ stagePlan .moe f .clear 0 = .skip ∧
     stagePlan .moe s .margin 63 = .fill 0#32 ∧ stagePlan .moe s .margin 64 = .skip ∧
     stagePlan .moe s .overlay 67 = .copy .ovl 0 ∧ stagePlan .moe s .overlay 68 = .skip ∧
     stagePlan .moe f .overlay 67 = .skip ∧ stagePlan .moe s .source 65 = .glyph 0 0 0 0 ∧
     stagePlan .moe s .source 67 = .skip ∧ stagePlan .moe f .source 67 = .copy .fb 1 ∧
     nextRead .moe s ⟨.source, 65, [], 0⟩ = some (.txt, 0) ∧ nextRead .moe s ⟨.source, 65, [9#32], 0⟩ = some (.txt, 1) ∧
     nextRead .moe s ⟨.source, 65, [9#32, 8#32], 0⟩ = none) := by
  refine ⟨fun _ _ => ⟨rfl, rfl, rfl⟩, ?_, by decide, by decide⟩
  intro e he
  simp only [List.mem_cons, List.not_mem_nil, or_false] at he
  rcases he with rfl | rfl <;> exact ⟨rfl, rfl⟩

theorem witness_RefusalsAndOutcomesChangeNothing :
    let s : State := { onP with xreq := true }
    exec .reqx s = .next (runReqx s) ∧ respOf (runReqx s) s.issuer = some ⟨.busy, []⟩ ∧
    Status.busy ≠ .ok ∧ Status.busy ≠ .notDue := by
  refine ⟨rfl, by decide, by decide, by decide⟩

theorem witness_PortRightsAreChecked :
    onC1.issuer ∉ portsOf .start ∧ Instr.xchk ∈ [Instr.rend, .tick, .pkt, .xchk] ∧ onP.issuer ≠ .seq := by decide

/-- Boundary fields of every clause: registers 0x14, 0x1F, 0x26; queue 3; bank 2; space 7; the first address beyond
each space and the last of a read-only one. -/
theorem witness_RangeAndReadOnlyRefusals :
    onP.issuer = .p ∧ (0x14 ≤ 0x14 ∧ 0x1F < 0x20 ∧ 0x26 ≤ 0x26) ∧
    0x25 ∈ [0x00, 0x01, 0x02, 0x03, 0x05, 0x09, 0x0F, 0x10, 0x11, 0x12, 0x13, 0x20, 0x21, 0x22, 0x23, 0x24, 0x25] ∧
    3 ≤ 3 ∧ 2 ≤ 2 ∧ 7 ≤ 7 ∧
    ((0, 1920) ∈ [(0, 1920), (1, 122880), (2, 512), (3, 61440), (4, 1280), (5, 1728), (6, 2048)] ∧ 1920 ≤ 1920) ∧
    ((6, 2048) ∈ [(4, 1280), (5, 1728), (6, 2048)] ∧ 2047 < 2048) := by decide

theorem witness_ConsumersReachOnlyTheirQueue :
    (onC1.issuer = .c1 ∧ 1 = 1 ∧ 3 ≤ 3 ∧ 0 < 3 ∧ 0 ≠ 1 ∧ 2 < 3 ∧ 2 ≠ 1) ∧
    (onC2.issuer = .c2 ∧ 2 = 2 ∧ 1 < 3 ∧ 1 ≠ 2) := by decide

theorem witness_NopOnlyAnswers : onP.issuer = .p ∧ onC1.issuer = .c1 ∧ onC2.issuer = .c2 := by decide

theorem witness_StartAndStopMoveTheRunRequest : onP.issuer = .p := rfl

theorem witness_RdregReadsEveryRegister :
    onP.issuer = .p ∧ (0x00, 256) ∈ [(0x00, seqCode onP.seq + 4 * onP.vsync.toNat + 256 * onP.txIdle.toNat)] := by decide

theorem witness_WrregWritesDefinedBits : onP.issuer = .p := rfl

/-- The last element of each space that stores elements, an element that has a value, and one that has none. -/
theorem witness_MrdAnswersTheElement :
    let s : State := { onP with txt := [(1919, 5#32)] }
    s.issuer = .p ∧ 1919 < 1920 ∧ memRead s.txt 1919 = some 5#32 ∧ memRead s.fb 122879 = none ∧ 122879 < 122880 ∧
    511 < 512 ∧ 61439 < 61440 ∧ 1279 < 1280 ∧ 47 < 48 ∧ 255 < 256 ∧ 7 < 8 := by decide

/-- The last element of each writable space, outside a line service and inside one. -/
theorem witness_MwrStoresOneElement :
    onP.issuer = .p ∧ onP.busy = false ∧ ({ onP with busy := true } : State).issuer = .p ∧
    1919 < 1920 ∧ 122879 < 122880 ∧ 511 < 512 ∧ 61439 < 61440 := by decide

/-- A ring of 1024 with one place left, and full, on either instance. -/
theorem witness_PushStoresOrAnswersFull :
    let room : State := { onP with q1 := ⟨1022, 0, []⟩, q2 := ⟨1023, 1, []⟩ }
    let full : State := { onP with q1 := ⟨1023, 0, []⟩, q2 := ⟨0, 1, []⟩ }
    room.issuer = .p ∧ (room.q1.head + 1) % 1024 ≠ room.q1.tail ∧ (room.q2.head + 1) % 1024 ≠ room.q2.tail ∧
    full.issuer = .p ∧ (full.q1.head + 1) % 1024 = full.q1.tail ∧ (full.q2.head + 1) % 1024 = full.q2.tail := by decide

theorem witness_PopTakesOrAnswersEmpty :
    let one : State := { onC1 with q1 := ⟨0, 1023, [(1023, 9#32)]⟩ }
    let two : State := { onC2 with q2 := ⟨1, 0, [(0, 8#32)]⟩ }
    (one.issuer = .c1 ∧ one.q1.head ≠ one.q1.tail ∧ memRead one.q1.buf one.q1.tail = some 9#32) ∧
    (onC1.issuer = .c1 ∧ onC1.q1.head = onC1.q1.tail) ∧
    (two.issuer = .c2 ∧ two.q2.head ≠ two.q2.tail ∧ memRead two.q2.buf two.q2.tail = some 8#32) ∧
    (onC2.issuer = .c2 ∧ onC2.q2.head = onC2.q2.tail) := by decide

/-- Tails at the last slot, each kind of issuer. -/
theorem witness_UsedAndFreeAddUp :
    let s : State := { onP with q0 := ⟨0, 255, []⟩, q1 := ⟨0, 1023, []⟩, q2 := ⟨5, 1023, []⟩ }
    s.q0.tail < 256 ∧ s.q1.tail < 1024 ∧ s.q2.tail < 1024 ∧ s.issuer = .p ∧ onC1.issuer = .c1 ∧ onC2.issuer = .c2 ∧
    (0, 256, 1) ∈ [(0, 256, (s.q0.head + 256 - s.q0.tail) % 256)] := by decide

/-- A ring buffer is sound when its five conditions can be computed. -/
theorem ringSound_of_check {n : Nat} {r : Machine.Ring Word} (h1 : r.head < n) (h2 : r.tail < n)
    (h3 : Memory.wf r.buf = true) (h4 : ∀ x ∈ r.buf, x.1 < n)
    (h5 : ∀ k ∈ List.range (occupied n r), (memRead r.buf ((r.tail + k) % n)).isSome = true) : RingSound n r :=
  ⟨h1, h2, h3, h4, fun k hk => h5 k (List.mem_range.2 hk)⟩

/-- An empty ring buffer is sound. -/
theorem ringSound_empty {α : Type} {n : Nat} (h : 0 < n) : RingSound n (Machine.Ring.reset : Machine.Ring α) :=
  ⟨h, h, rfl, fun _ hx => absurd hx List.not_mem_nil,
    fun k hk => absurd hk (by simp [occupied, Machine.Ring.reset])⟩

/-- A full, a partly filled and an empty ring of four slots, across the wrap. -/
theorem witness_RingBufferIsAQueue :
    2 ≤ 4 ∧ RingSound 4 (⟨0, 1, [(1, 1#32), (2, 2#32), (3, 3#32)]⟩ : Machine.Ring Word) ∧
    RingSound 4 (⟨1, 3, [(0, 4#32), (3, 3#32)]⟩ : Machine.Ring Word) ∧
    RingSound 4 (Machine.Ring.reset : Machine.Ring Word) :=
  ⟨by decide, ringSound_of_check (by decide) (by decide) (by decide) (by decide) (by decide),
    ringSound_of_check (by decide) (by decide) (by decide) (by decide) (by decide), ringSound_empty (by decide)⟩

theorem witness_PopsReturnPushesInOrder :
    RingSound 1024 onP.q1 ∧ onP.q1.head = onP.q1.tail ∧ RingSound 1024 onP.q2 ∧ onP.q2.head = onP.q2.tail :=
  ⟨ringSound_empty (by decide), rfl, ringSound_empty (by decide), rfl⟩

theorem witness_TickAdvancesTheAccumulator : State.reset.issuer = .seq := rfl

/-- One below the threshold; at it with an island waiting; at it with the queue empty. -/
theorem witness_PktEmitsWhenDue :
    let isl : Island := Vector.replicate 36 0#32
    let queued : State := { State.reset with acc := 0x40000#32, q0 := ⟨0, 255, [(255, isl)]⟩ }
    (({ State.reset with acc := 0x3FFFF#32 } : State).acc.toNat < 0x40000) ∧
    (queued.issuer = .seq ∧ 0x40000 ≤ queued.acc.toNat ∧ queued.q0.head ≠ queued.q0.tail ∧
      memRead queued.q0.buf queued.q0.tail = some isl) ∧
    (0x40000 ≤ ({ State.reset with acc := 0x40000#32 } : State).acc.toNat ∧
      State.reset.q0.head = State.reset.q0.tail) := by decide

/-- At the watermark; full with the watermark out of the way; with room, at the last encoder state. -/
theorem witness_AenqQueuesAnIsland :
    let high : State := { onP with q0 := ⟨200, 0, []⟩ }
    let full : State := { onP with q0 := ⟨255, 0, []⟩, hwm := 256#32 }
    let room : State := { onP with q0 := ⟨199, 0, []⟩, encEs := 47#8 }
    (high.issuer = .p ∧ high.hwm.toNat ≤ occupied 256 high.q0) ∧
    (full.issuer = .p ∧ occupied 256 full.q0 < full.hwm.toNat ∧ (full.q0.head + 1) % 256 = full.q0.tail) ∧
    (room.issuer = .p ∧ occupied 256 room.q0 < room.hwm.toNat ∧ (room.q0.head + 1) % 256 ≠ room.q0.tail ∧
      room.encEs.toNat < 48) := by decide

/-- The largest legal rate and the largest legal residue. -/
theorem witness_NoAudioDrift :
    let s : State := { State.reset with acc := 0x3FFFF#32, act := { Conf.reset with spl := 0x40000#32 } }
    s.act.spl.toNat ≤ 0x40000 ∧ s.acc.toNat < 0x40000 := by decide

/-- The last entry of the table, with an island due on the next line. -/
theorem witness_SilenceRotates :
    let s : State := { State.reset with silIdx := 47#8, act := { Conf.reset with spl := 0x40000#32 } }
    s.q0.head = s.q0.tail ∧ s.silIdx.toNat < 48 ∧ firedBySeq (audioLine (audioLines 0 s).2) = true := by decide

theorem witness_AudioComesOutInOrder :
    let s : State := { State.reset with encEs := 47#8 }
    RingSound 256 s.q0 ∧ s.q0.head = s.q0.tail ∧ s.encEs.toNat < 48 :=
  ⟨ringSound_empty (by decide), rfl, by decide⟩

theorem witness_PublishSelectsThePendingSource :
    onP.issuer = .p ∧ 65534 % 2 = 0 ∧ 65535 % 2 = 1 ∧ 1 < 2 := by decide

theorem witness_PollsAnswerTheirFlags : onP.issuer = .p := rfl

/-- Elements on either side of the slot filled, for both slots; a `REND` next on the last line. -/
theorem witness_RendFillsAndPublishesOneSlot :
    let s0 : State := State.reset
    let s1 : State := { State.reset with lbWr := true }
    (s0.issuer = .seq ∧ 640 * s0.lbWr.toNat + 640 ≤ 640) ∧
    (s1.issuer = .seq ∧ 639 < 640 * s1.lbWr.toNat ∧ 640 * s1.lbWr.toNat + 640 ≤ 1280) ∧
    ({ s0 with svc := .rend, ln := 479#16 } : State).svc = .rend := by decide

/-- This hardware's parameters in 1:1 mode, the first and the last drawn position of each direction. -/
theorem witness_OneToOneMaps :
    Params.moe.ok = true ∧ aspect Conf.reset = false ∧
    (64 < Params.moe.wOut ∧ inMargin (horizontal .moe Conf.reset) Params.moe.wOut 64 = false ∧
      inMargin (horizontal .moe Conf.reset) Params.moe.wOut 575 = false) ∧
    (479 < Params.moe.vActive ∧ inMargin (vertical .moe Conf.reset) Params.moe.vActive 0 = false ∧
      inMargin (vertical .moe Conf.reset) Params.moe.vActive 479 = false) ∧
    255 < Params.moe.wSrc ∧ 239 < Params.moe.hSrc := by decide

/-- An aspect setting drawn wider than the source, at the first and the last drawn pixel, and the vertical map. -/
theorem witness_ScalingMapsStayInTheSource :
    let c : Conf := { Conf.reset with mode := 1#32, marginH := 0x00200020#32 }
    let h := horizontal .moe c
    let v := vertical .moe c
    Params.moe.ok = true ∧ h = horizontal .moe c ∧ v = vertical .moe c ∧ 32 ≤ 607 ∧ 607 < Params.moe.wOut ∧
    inMargin h Params.moe.wOut 32 = false ∧ inMargin h Params.moe.wOut 607 = false ∧ 0 < h.drawn ∧
    Params.moe.wSrc ≤ h.drawn ∧ inMargin v Params.moe.vActive 479 = false ∧ Params.moe.hSrc ≤ v.drawn := by decide

/-- Aspect mode; the first and the last margin pixel in 1:1 mode; a margin line; margins that leave nothing. -/
theorem witness_MarginsAreMarginPix :
    let c : Conf := { Conf.reset with mode := 1#32, marginV := 0x00010001#32 }
    let none0 : Conf := { Conf.reset with mode := 1#32, marginH := 0x01400140#32 }
    c.mode.toNat % 2 = 1 ∧ State.reset.issuer = .seq ∧
    inMargin (horizontal .moe State.reset.act) 640 0 = true ∧ inMargin (horizontal .moe State.reset.act) 640 639 = true ∧
    inMargin (vertical .moe c) 480 0 = true ∧ none0.mode.toNat % 2 = 1 ∧
    640 ≤ none0.marginH.toNat % 65536 + none0.marginH.toNat / 65536 := by decide

/-- The framebuffer, bank 1, and the line-stream source, at the last drawn pixel of the last line. -/
theorem witness_RendShowsFrameAndLine :
    let f : State := { State.reset with
      ln := 479#16, act := { Conf.reset with src := .frame, bank := 1 }, fb := [(122879, 0xFFFF#32)] }
    let l : State := { State.reset with ln := 479#16, act := { Conf.reset with src := .line }, ls := [(511, 0xFFFF#32)] }
    let xs := sourceIndex (horizontal .moe f.act) 256 575
    let ys := sourceIndex (vertical .moe f.act) 240 f.ln.toNat
    (f.issuer = .seq ∧ f.raced = [] ∧ 575 < 640 ∧ f.ln.toNat < 480 ∧
      inMargin (vertical .moe f.act) 480 f.ln.toNat = false ∧ inMargin (horizontal .moe f.act) 640 575 = false ∧
      (0xFFFF#32 : Word).toNat < 65536 ∧ f.act.src = .frame ∧
      memRead f.fb (f.act.bank * 256 * 240 + ys * 256 + xs) = some 0xFFFF#32) ∧
    (l.issuer = .seq ∧ l.raced = [] ∧ l.act.src = .line ∧ memRead l.ls (ys % 2 * 256 + xs) = some 0xFFFF#32) := by
  decide

/-- The last cell of the grid, with the overlay off and with one that does not cover it. -/
theorem witness_RendShowsText :
    let s : State := { State.reset with ln := 479#16, txt := [(1918, 0xA5#32), (1919, 0x001FFFFF#32)] }
    let o : State := { s with ovlOk := true, act := { Conf.reset with ovlSize := 0x00F000F8#32 } }
    let xs := sourceIndex (horizontal .moe s.act) 256 575
    let ys := sourceIndex (vertical .moe s.act) 240 s.ln.toNat
    s.issuer = .seq ∧ s.raced = [] ∧ s.ln.toNat < 480 ∧ inMargin (vertical .moe s.act) 480 s.ln.toNat = false ∧
    inMargin (horizontal .moe s.act) 640 575 = false ∧ s.act.src = .text ∧ s.ovlOk = false ∧
    overlayCovers o.act ys xs = false ∧ o.act.src = .text ∧
    memRead s.txt (2 * (ys / 8 * 32 + xs / 8)) = some 0xA5#32 ∧
    memRead s.txt (2 * (ys / 8 * 32 + xs / 8) + 1) = some 0x001FFFFF#32 := by decide

/-- The last pixel of an overlay that fills the source. -/
theorem witness_RendShowsTheOverlay :
    let s : State := { State.reset with
      ln := 479#16, ovlOk := true, ovl := [(61439, 0x4444#32)]
      act := { Conf.reset with ovlCtrl := 1#32, ovlSize := 0x00F00100#32 } }
    let xs := sourceIndex (horizontal .moe s.act) 256 575
    let ys := sourceIndex (vertical .moe s.act) 240 s.ln.toNat
    s.issuer = .seq ∧ s.raced = [] ∧ s.ln.toNat < 480 ∧ inMargin (vertical .moe s.act) 480 s.ln.toNat = false ∧
    inMargin (horizontal .moe s.act) 640 575 = false ∧ s.act.src = .text ∧ s.ovlOk = true ∧
    xs < 0 + s.act.ovlSize.toNat % 65536 ∧ ys < 0 + s.act.ovlSize.toNat / 65536 ∧
    memRead s.ovl ((ys - 0) * (s.act.ovlSize.toNat % 65536) + (xs - 0)) = some 0x4444#32 := by decide

/-- Pixel 16 of S5 lies outside the text grid: no stage draws it. -/
theorem witness_UndrawnPixelsAreClearedOrKept :
    let s := stateS5 3#32 2#32
    let xs := sourceIndex (horizontal setO s.act) setO.wSrc 16
    16 < setO.wOut ∧ s.act.src = .text ∧ inMargin (vertical setO s.act) setO.vActive s.ln.toNat = false ∧
    inMargin (horizontal setO s.act) setO.wOut 16 = false ∧ s.act.ovlPos.toNat % 65536 + s.act.ovlSize.toNat % 65536 ≤ xs ∧
    setO.cols ≤ xs / setO.gw ∧ drawnPixel setO s s.ln.toNat 16 (s.draws + 4 * 16) = none ∧
    s.ovlOk = true ∧ s.act.ovlCtrl.toNat / 2 % 2 = 1 ∧ (stateS5 1#32 0#32).act.ovlCtrl.toNat / 2 % 2 = 0 := by decide

theorem witness_OverlayIgnoredWithoutText :
    let s : State := { State.reset with act := { Conf.reset with src := .line } }
    s.issuer = .seq ∧ s.act.src ≠ .text := by decide

theorem witness_DarkHalvesEveryChannel : (0xFFFF#32 : Word).toNat < 65536 := by decide

/-- For each source an element written twice while the line service is in progress, at the last drawn pixel of the last
line: framebuffer, line stream, text outside the overlay, and overlay. -/
theorem witness_RendReadsOldOrNew :
    let xs := sourceIndex (horizontal .moe Conf.reset) 256 575
    let ys := sourceIndex (vertical .moe Conf.reset) 240 479
    let on (sp : Space) (a : Nat) (c : Conf) : State := { State.reset with
      ln := 479#16, ovlOk := true, act := c, raced := [⟨sp, a, some 2#32⟩, ⟨sp, a, some 1#32⟩] }
    let f := on .fb (ys * 256 + xs) { Conf.reset with src := .frame }
    let l := on .ls (ys % 2 * 256 + xs) { Conf.reset with src := .line }
    let t := on .txt (2 * (ys / 8 * 32 + xs / 8)) Conf.reset
    let o := on .ovl 61439 { Conf.reset with ovlCtrl := 1#32, ovlSize := 0x00F00100#32 }
    (∀ s ∈ [f, l, t, o], s.issuer = .seq ∧ s.ln.toNat < 480 ∧ inMargin (vertical .moe s.act) 480 s.ln.toNat = false ∧
      inMargin (horizontal .moe s.act) 640 575 = false) ∧
    (f.act.src = .frame ∧ racedValues f .fb (f.act.bank * 256 * 240 + ys * 256 + xs) = [some 2#32, some 1#32]) ∧
    (l.act.src = .line ∧ racedValues l .ls (ys % 2 * 256 + xs) = [some 2#32, some 1#32]) ∧
    (t.act.src = .text ∧ overlayCovers t.act ys xs = false ∧
      racedValues t .txt (2 * (ys / 8 * 32 + xs / 8)) = [some 2#32, some 1#32]) ∧
    (o.act.src = .text ∧ o.ovlOk = true ∧ overlayCovers o.act ys xs = true ∧
      racedValues o .ovl ((ys - 0) * 256 + (xs - 0)) = [some 2#32, some 1#32]) := by decide

/-- A pixel written while the service is in progress goes out as the new value or as the old one, by the draw (20_memory
R89); with the counting draws, draw 0 takes the first candidate and draw 1 the second. -/
theorem test_rend_raced :
    let s : State := { State.reset with
      ln := 2#16, fb := [(4, 7#32)], act := { Conf.reset with src := .frame }, raced := [⟨.fb, 4, some 9#32⟩] }
    memRead (runRend setT s).lb 0 = some 7#32 ∧ memRead (runRend setT { s with draws := 1 }).lb 0 = some 9#32 := by decide

/-- The state of set T in which a `REND` by access has put pixel 0 of the framebuffer's line and not yet pixel 1. -/
def halfRendered : State :=
  { State.reset with
    seq := .run, busy := true, issuer := .p, fb := fbP4, lb := [(0, 0xF800#32), (1, 0xEEEE#32)]
    act := { Conf.reset with src := .frame }, svc := .rendering ⟨.source, 1, [], 0⟩ }

/-- A port P command between two accesses of `REND` sees a slot half filled: pixel 0 new, pixel 1 old (44 R251; 20_memory
R73); and a write that comes before a read is what the read may give. -/
theorem test_command_inside_rend :
    respOf (runMrd setT 4 0 halfRendered) .p = some ⟨.ok, [0xF800#32]⟩ ∧
    respOf (runMrd setT 4 1 halfRendered) .p = some ⟨.ok, [0xEEEE#32]⟩ ∧
    (rendStep setT ⟨.source, 1, [], 0⟩ (runMwr setT 1 0 7#32 halfRendered)).svc = .rendering ⟨.source, 1, [7#32], 0⟩ ∧
    memRead (rendStep setT ⟨.source, 1, [7#32], 0⟩ halfRendered).lb 1 = some 7#32 := by decide

theorem witness_ReqxOnlyFromIdle :
    (onP.issuer = .p ∧ onP.xreq = false ∧ onP.xgnt = false) ∧
    (({ onP with xreq := true } : State).xreq = true) ∧ (({ onP with xgnt := true } : State).xgnt = true) := by decide

theorem witness_RelxOnlyFromGranted :
    (onP.issuer = .p ∧ onP.xreq = false) ∧
    (({ onP with xreq := true, xgnt := true } : State).xreq = true ∧
      ({ onP with xreq := true, xgnt := true } : State).xgnt = true) := by decide

/-- Every combination of the flags `XCHK` reads. -/
theorem witness_XchkEvaluatesTheCoordinator :
    ∀ (q : Seq) (xreq runReq txIdle vsync : Bool),
      let s : State := { State.reset with seq := q, xreq := xreq, runReq := runReq, txIdle := txIdle, vsync := vsync }
      s.issuer = .seq ∧ s.seq = q ∧ s.xreq = xreq ∧ s.runReq = runReq ∧ s.txIdle = txIdle ∧ s.vsync = vsync :=
  fun _ _ _ _ _ => ⟨rfl, rfl, rfl, rfl, rfl, rfl⟩

theorem witness_LineReqEntersOrOverruns :
    let s : State := { awaiting .lineReq with seq := .run }
    s.inputs = .lineReq :: [] ∧ s.seq = .run ∧ s.busy = false ∧ ({ s with busy := true } : State).busy = true := by decide

theorem witness_LineReqIgnoredOutsideRun :
    (awaiting .lineReq).inputs = .lineReq :: [] ∧ (awaiting .lineReq).seq = .stopped ∧
    ({ awaiting .lineReq with seq := .quiesce } : State).seq = .quiesce ∧
    ({ awaiting .lineReq with seq := .parked } : State).seq = .parked := by decide

/-- The last blanking line and the first; the services of a whole blanking. -/
theorem witness_BlankingLineService :
    (let s : State := { State.reset with seq := .run, vsync := true, ln := 44#16, inputs := lineEvents 4 }
     s.inputs = lineEvents 4 ++ [] ∧ s.seq = .run ∧ s.busy = false ∧ s.vsync = true ∧ s.ln.toNat < 45) ∧
    (let s : State := { State.reset with
       seq := .run, vsync := true, inputs := (List.replicate 45 (lineEvents 4)).flatten }
     s.inputs = (List.replicate 45 (lineEvents 4)).flatten ∧ s.busy = false ∧ s.ln = 0#16 ∧ 45 ≤ 45) := by
  refine ⟨⟨rfl, rfl, rfl, rfl, by decide⟩, rfl, rfl, rfl, by decide⟩

/-- The last active line but one and the last. -/
theorem witness_ActiveLineService :
    (let s : State := { State.reset with seq := .run, ln := 478#16, inputs := lineEvents 5 }
     s.seq = .run ∧ s.busy = false ∧ s.vsync = false ∧ s.ln.toNat + 1 < 480 ∧ s.inputs = lineEvents 5 ++ []) ∧
    (let s : State := { State.reset with seq := .run, ln := 479#16, inputs := lineEvents 9 }
     s.seq = .run ∧ s.busy = false ∧ s.vsync = false ∧ s.ln.toNat < 480 ∧ s.ln.toNat + 1 = 480 ∧
     s.inputs = lineEvents 9 ++ []) := by decide

theorem witness_ResetLeavesTheResetState :
    ({ awaiting .reset with busy := true, seq := .run } : State).inputs = .reset :: [] := rfl

/-! #### Sound states other than reset -/

/-- A state with SEQ's position and the handshake flags set and everything else as after reset. -/
def positioned (q : Seq) (vsync xreq xgnt runReq txRun : Bool) (es : List Event) : State :=
  { State.reset with
    seq := q, vsync := vsync, xreq := xreq, xgnt := xgnt, runReq := runReq, txRun := txRun, inputs := es }

/-- Such a state is sound when the position and the flags agree. -/
theorem positioned_sound (q : Seq) (vsync xreq xgnt runReq txRun : Bool) (es : List Event)
    (h1 : q = .stopped → vsync = false) (h2 : q = .quiesce → vsync = true) (h3 : xgnt = true ↔ q = .parked)
    (h4 : txRun = true ↔ q = .run) : (positioned q vsync xreq xgnt runReq txRun es).Sound .moe where
  q0 := ringSound_empty (by decide)
  q1 := fun _ => ringSound_empty (by decide)
  q2 := fun _ => ringSound_empty (by decide)
  txt := ⟨rfl, fun _ h => absurd h List.not_mem_nil, fun _ h => absurd h List.not_mem_nil⟩
  fb := ⟨rfl, fun _ h => absurd h List.not_mem_nil, fun _ h => absurd h List.not_mem_nil⟩
  ls := ⟨rfl, fun _ h => absurd h List.not_mem_nil, fun _ h => absurd h List.not_mem_nil⟩
  ovl := ⟨rfl, fun _ h => absurd h List.not_mem_nil, fun _ h => absurd h List.not_mem_nil⟩
  lb := ⟨rfl, fun _ h => absurd h List.not_mem_nil, fun _ h => absurd h List.not_mem_nil⟩
  pend := ⟨BitVec.zero_and, BitVec.zero_and, BitVec.zero_and, (by decide : (0 : Nat) < 2)⟩
  act := ⟨BitVec.zero_and, BitVec.zero_and, BitVec.zero_and, (by decide : (0 : Nat) < 2)⟩
  position := by
    refine ⟨?_, ?_, ?_, ?_, ?_, ?_, ?_, ?_, ?_, ?_, ?_, ?_, ?_, ?_⟩ <;> simp [positioned, State.reset, State.resetAt] <;>
      first | exact h1 | exact h2 | exact fun _ => by decide | exact fun _ _ => by decide
  handshake := ⟨h3, h4⟩
  encEs := (by decide : (0#8).toNat < 48)
  silIdx := (by decide : (0#8).toNat < 48)
  fault := (by decide : (0#32 &&& 1#32) = 0#32)
  rxP := ⟨1, rfl⟩
  rxC1 := ⟨1, rfl⟩
  rxC2 := ⟨1, rfl⟩

/-- In `QUIESCE` with a request pending and TX idle: the next step grants. -/
def quiescing : State := positioned .quiesce true true false true false []

/-- Parked with the request still standing: the next step changes nothing. -/
def parked : State := positioned .parked true true true true false []

/-- Parked with the request gone: the next step resumes. -/
def releasing : State := positioned .parked true false true true false []

theorem witness_StepKeepsTheInvariant :
    quiescing.Sound .moe ∧ step quiescing = .next (nextOr (step quiescing) quiescing) :=
  ⟨positioned_sound _ _ _ _ _ _ _ (by decide) (by decide) (by decide) (by decide), rfl⟩

theorem witness_GrantRisesAndFallsSafely :
    (quiescing.Sound .moe ∧ step quiescing = .next (nextOr (step quiescing) quiescing) ∧ quiescing.xgnt = false ∧
      (nextOr (step quiescing) quiescing).xgnt = true) ∧
    (releasing.Sound .moe ∧ step releasing = .next (nextOr (step releasing) releasing) ∧ releasing.xgnt = true ∧
      (nextOr (step releasing) releasing).xgnt = false) :=
  ⟨⟨positioned_sound _ _ _ _ _ _ _ (by decide) (by decide) (by decide) (by decide), rfl, rfl, rfl⟩,
    positioned_sound _ _ _ _ _ _ _ (by decide) (by decide) (by decide) (by decide), rfl, rfl, rfl⟩

theorem witness_ParkingFreezesTheOutput :
    parked.Sound .moe ∧ step parked = .next (nextOr (step parked) parked) ∧ parked.xgnt = true ∧
    (nextOr (step parked) parked).xgnt = true :=
  ⟨positioned_sound _ _ _ _ _ _ _ (by decide) (by decide) (by decide) (by decide), rfl, rfl, rfl⟩

theorem witness_SeqTransitionTable : step quiescing = .next (nextOr (step quiescing) quiescing) := rfl

theorem witness_RequestCycle :
    step releasing = .next (nextOr (step releasing) releasing) ∧ releasing.inputs.head? ≠ some .reset :=
  ⟨rfl, by decide⟩

/-- A session start raises `vsync`; the end of blanking and the end of a session lower it. -/
theorem witness_VsyncTogglesAtTheFrameEdges :
    let start := positioned .stopped false false false true false []
    let stop := positioned .quiesce true false false false false []
    let last : State := { positioned .run true false false true true [] with busy := true, svc := .blank, ln := 44#16 }
    (start.vsync = false ∧ (nextOr (step start) start).vsync = true) ∧
    (stop.vsync = true ∧ (nextOr (step stop) stop).vsync = false) ∧
    (last.vsync = true ∧ (nextOr (step last) last).vsync = false) := by decide

/-- A session start with a configuration pending. -/
theorem witness_ConfigurationLatchesAtTheBoundary :
    let s : State := { positioned .stopped false false false true false [] with pend := { Conf.reset with spl := 7#32 } }
    step s = .next (nextOr (step s) s) ∧ (nextOr (step s) s).act ≠ s.act :=
  ⟨rfl, by decide⟩

theorem witness_OverrunIsStickyAndOnlyFromLineReq :
    let s : State := { awaiting .lineReq with seq := .run, busy := true }
    step s = .next (nextOr (step s) s) ∧ s.inputs.head? ≠ some .reset ∧ (nextOr (step s) s).fault ≠ s.fault :=
  ⟨rfl, by decide, by decide⟩

/-- Each kind of event to come. -/
theorem witness_EachPieceHasOneWriter :
    ∀ e ∈ [Event.word .p 0#32, .word .c1 0#32, .word .c2 0#32, .lineReq, .seq, .seqByAccess, .txIdle false],
      (awaiting e).inputs = e :: [] ∧ ∃ t, step (awaiting e) = .next t := by
  intro e he
  simp only [List.mem_cons, List.not_mem_nil, or_false] at he
  rcases he with rfl | rfl | rfl | rfl | rfl | rfl | rfl <;> exact ⟨rfl, _, rfl⟩

end Sys2Proof.Tests
end

section
/-! PROOFS. The scanline renderer's pure functions: the 1:1 extent and its map (41_scanline_renderer R153 to R157), and
`dark` bit by bit (R168). -/

namespace Sys2Proof.Machine

/-! ### Geometry in 1:1 mode (R153, R154, R157) -/

theorem sizes_of_params_ok {P : Params} (h : P.ok = true) :
    0 < P.wSrc ∧ P.wSrc ≤ P.wOut ∧ 0 < P.hSrc ∧ P.hSrc ≤ P.vActive := by
  simp only [Params.ok, Bool.and_eq_true, decide_eq_true_eq] at h
  omega

theorem horizontal_oneToOne {P : Params} {c : Conf} (h : aspect c = false) :
    horizontal P c = extentOneToOne P.wOut P.wSrc := by
  simp [horizontal, h]

theorem vertical_oneToOne {P : Params} {c : Conf} (h : aspect c = false) :
    vertical P c = extentOneToOne P.vActive P.hSrc := by
  simp [vertical, h]

/-- The positions of an interval that lie below `n`, counted. -/
theorem length_filter_range_interval (a b n : Nat) :
    ((List.range n).filter fun x => decide (a ≤ x ∧ x < b)).length = min n b - a := by
  induction n with
  | zero => simp
  | succ n ih =>
    rw [List.range_succ, List.filter_append, List.length_append, ih]
    by_cases hn : a ≤ n ∧ n < b <;> simp [hn] <;> omega

section OneToOne
variable {out src : Nat}

theorem extentOneToOne_drawn (hpos : 0 < src) (hle : src ≤ out) :
    (extentOneToOne out src).drawn = out / src * src := by
  have hused : out / src * src ≤ out := Nat.div_mul_le_self out src
  have hdrawn : 0 < out / src * src := Nat.mul_pos (Nat.div_pos hle hpos) hpos
  simp only [extentOneToOne, extentOf]
  rw [if_neg (by omega)]
  omega

/-- The positions outside the margins are `drawn` positions from `lead` on. -/
theorem inMargin_oneToOne_eq_false_iff (hpos : 0 < src) (hle : src ≤ out) (x : Nat) :
    inMargin (extentOneToOne out src) out x = false ↔
      (extentOneToOne out src).lead ≤ x ∧ x < (extentOneToOne out src).lead + out / src * src := by
  have hused : out / src * src ≤ out := Nat.div_mul_le_self out src
  have hdrawn : 0 < out / src * src := Nat.mul_pos (Nat.div_pos hle hpos) hpos
  simp only [inMargin, extentOneToOne_drawn hpos hle, Bool.or_eq_false_iff, decide_eq_false_iff_not]
  simp only [extentOneToOne, extentOf]
  omega

theorem oneToOne_drawn_within (out src : Nat) :
    (extentOneToOne out src).lead + out / src * src ≤ out := by
  have hused : out / src * src ≤ out := Nat.div_mul_le_self out src
  simp only [extentOneToOne, extentOf]
  omega

/-- The factor `src` cancels: the map divides by the duplication (R157). -/
theorem sourceIndex_oneToOne (hpos : 0 < src) (hle : src ≤ out) (x : Nat) :
    sourceIndex (extentOneToOne out src) src x = (x - (extentOneToOne out src).lead) / (out / src) := by
  rw [sourceIndex, extentOneToOne_drawn hpos hle, Nat.mul_div_mul_right _ _ hpos]

/-- The `i`-th run of `out / src` positions lies among the drawn ones. -/
theorem oneToOne_run_le {i : Nat} (hi : i < src) : i * (out / src) + out / src ≤ out / src * src := by
  rw [← Nat.succ_mul, Nat.mul_comm (out / src)]
  exact Nat.mul_le_mul_right _ hi

/-- The positions that show source position `i` are the run of `out / src` positions at `lead + i * (out / src)`. -/
theorem shows_oneToOne_iff (hpos : 0 < src) (hle : src ≤ out) {i : Nat} (hi : i < src) (x : Nat) :
    (inMargin (extentOneToOne out src) out x = false ∧ sourceIndex (extentOneToOne out src) src x = i) ↔
      (extentOneToOne out src).lead + i * (out / src) ≤ x ∧
        x < (extentOneToOne out src).lead + i * (out / src) + out / src := by
  have hdup : 0 < out / src := Nat.div_pos hle hpos
  have hrun : i * (out / src) + out / src ≤ out / src * src := oneToOne_run_le hi
  rw [inMargin_oneToOne_eq_false_iff hpos hle, sourceIndex_oneToOne hpos hle, Nat.div_eq_iff hdup]
  omega

/-- Every source position is shown `out / src` times (R157). -/
theorem count_shows_oneToOne (hpos : 0 < src) (hle : src ≤ out) {i : Nat} (hi : i < src) :
    ((List.range out).filter fun x => !inMargin (extentOneToOne out src) out x &&
      decide (sourceIndex (extentOneToOne out src) src x = i)).length = out / src := by
  have hend : (extentOneToOne out src).lead + i * (out / src) + out / src ≤ out := by
    have hrun : i * (out / src) + out / src ≤ out / src * src := oneToOne_run_le hi
    have hwithin := oneToOne_drawn_within out src
    omega
  have hpred : (fun x => !inMargin (extentOneToOne out src) out x &&
      decide (sourceIndex (extentOneToOne out src) src x = i)) =
      fun x => decide ((extentOneToOne out src).lead + i * (out / src) ≤ x ∧
        x < (extentOneToOne out src).lead + i * (out / src) + out / src) := by
    funext x
    rw [Bool.eq_iff_iff, decide_eq_true_iff, ← shows_oneToOne_iff hpos hle hi]
    simp
  rw [hpred, length_filter_range_interval, Nat.min_eq_right hend, Nat.add_sub_cancel_left]

end OneToOne

/-- Settles O33: both directions are the 1:1 extent, whose runs of `out / src` positions tile the drawn positions. -/
theorem oneToOneMaps : Obligations.OneToOneMaps := by
  unfold Obligations.OneToOneMaps
  refine ⟨fun P c hok hc => ?_, fun c hc => ?_⟩
  · obtain ⟨hw, hwle, hh, hhle⟩ := sizes_of_params_ok hok
    rw [horizontal_oneToOne hc, vertical_oneToOne hc]
    exact ⟨fun x _ _ => sourceIndex_oneToOne hw hwle x, fun y _ _ => sourceIndex_oneToOne hh hhle y,
      fun _ hxs => count_shows_oneToOne hw hwle hxs, fun _ hys => count_shows_oneToOne hh hhle hys⟩
  · rw [horizontal_oneToOne hc, vertical_oneToOne hc]
    exact ⟨rfl, rfl⟩

/-! ### Darkening bit by bit (R168) -/

theorem testBit_field (hi lo : Nat) (w : Word) (j : Nat) :
    (field hi lo w).testBit j = (decide (j ≤ hi - lo) && w.getLsbD (lo + j)) := by
  rw [field, Nat.testBit_mod_two_pow, Nat.testBit_div_two_pow, BitVec.getLsbD, Nat.add_comm j lo]
  simp only [Nat.lt_succ_iff]

/-- A halved channel at its place: the bits of the channel moved down by one, its top bit clear. -/
theorem getLsbD_halvedChannel (hi lo : Nat) (p : Word) (i : Nat) :
    (BitVec.ofNat 32 (field hi lo p / 2 * 2 ^ lo)).getLsbD i =
      (decide (lo ≤ i) && decide (i < hi) && p.getLsbD (i + 1)) := by
  rw [BitVec.getLsbD_ofNat, Nat.testBit_mul_two_pow, Nat.testBit_div_two, testBit_field]
  by_cases hlo : lo ≤ i
  · have hbit : lo + (i - lo + 1) = i + 1 := by omega
    have htop : i - lo + 1 ≤ hi - lo ↔ i < hi := by omega
    rw [hbit]
    by_cases hp : p.getLsbD (i + 1) = true
    · have hwidth : i + 1 < 32 := BitVec.lt_of_getLsbD hp
      have hi32 : i < 32 := by omega
      simp [hlo, htop, hi32]
    · simp [hp]
  · simp [hlo]

/-- The bits of `dark p` are those of `p >> 1` that have their left neighbour in a common channel. -/
theorem getLsbD_dark (P : Params) (p : Word) (i : Nat) :
    (dark P p).getLsbD i = ((P.ch.any fun c => decide (c.2 ≤ i) && decide (i < c.1)) && p.getLsbD (i + 1)) := by
  have hfold : ∀ (ch : List (Nat × Nat)) (acc : Word),
      (ch.foldl (fun acc c => acc ||| BitVec.ofNat 32 (field c.1 c.2 p / 2 * 2 ^ c.2)) acc).getLsbD i =
        (acc.getLsbD i || (ch.any fun c => decide (c.2 ≤ i) && decide (i < c.1)) && p.getLsbD (i + 1)) := by
    intro ch
    induction ch with
    | nil => simp
    | cons c ch ih =>
      intro acc
      rw [List.foldl_cons, ih, BitVec.getLsbD_or, getLsbD_halvedChannel, List.any_cons, Bool.and_or_distrib_right,
        Bool.or_assoc]
  rw [dark, hfold, BitVec.getLsbD_zero, Bool.false_or]

/-- A word whose bits in a channel are the next higher bits of `p` there, the top one clear, holds half of `p`'s value
in that channel. -/
theorem field_eq_half {hi lo : Nat} (hle : lo ≤ hi) {p q : Word}
    (hbits : ∀ i, lo ≤ i → i ≤ hi → q.getLsbD i = (decide (i < hi) && p.getLsbD (i + 1))) :
    field hi lo q = field hi lo p / 2 := by
  apply Nat.eq_of_testBit_eq
  intro j
  rw [Nat.testBit_div_two, testBit_field, testBit_field, ← Nat.add_assoc]
  by_cases hj : j ≤ hi - lo
  · have htop : lo + j < hi ↔ j + 1 ≤ hi - lo := by omega
    rw [hbits (lo + j) (by omega) (by omega)]
    simp [hj, htop]
  · have hj' : ¬ j + 1 ≤ hi - lo := by omega
    simp [hj, hj']

/-- The channels of a legal `CH` are disjoint: two that hold the same bit are one. -/
theorem channel_unique {P : Params} (hok : P.channelsOk = true) {c d : Nat × Nat} (hc : c ∈ P.ch) (hd : d ∈ P.ch)
    {i : Nat} (hci : c.2 ≤ i ∧ i ≤ c.1) (hdi : d.2 ≤ i ∧ i ≤ d.1) : c = d := by
  simp only [Params.channelsOk, Bool.and_eq_true, List.all_eq_true, List.mem_range, decide_eq_true_eq] at hok
  obtain ⟨hinside, honce⟩ := hok
  obtain ⟨_, hcpix⟩ := hinside c hc
  obtain ⟨a, ha⟩ := List.length_eq_one_iff.mp (honce i (by omega))
  have only : ∀ e ∈ P.ch, e.2 ≤ i ∧ i ≤ e.1 → e = a := fun e he hei => by
    have hmem : e ∈ P.ch.filter fun c => decide (c.2 ≤ i) && decide (i ≤ c.1) :=
      List.mem_filter.mpr ⟨he, by simpa using hei⟩
    rwa [ha, List.mem_singleton] at hmem
  rw [only c hc hci, only d hd hdi]

/-- `dark` halves every channel of any legal `CH` (R168). -/
theorem field_dark {P : Params} (hok : P.channelsOk = true) {c : Nat × Nat} (hc : c ∈ P.ch) (p : Word) :
    field c.1 c.2 (dark P p) = field c.1 c.2 p / 2 := by
  have hle : c.2 ≤ c.1 := by
    simp only [Params.channelsOk, Bool.and_eq_true, List.all_eq_true, decide_eq_true_eq] at hok
    exact (hok.1 c hc).1
  apply field_eq_half hle
  intro i hlo hhi
  rw [getLsbD_dark]
  congr 1
  rw [Bool.eq_iff_iff]
  simp only [List.any_eq_true, Bool.and_eq_true, decide_eq_true_eq]
  constructor
  · rintro ⟨d, hd, hdlo, hdhi⟩
    rwa [channel_unique hok hc hd ⟨hlo, hhi⟩ ⟨hdlo, hdhi.le⟩]
  · exact fun h => ⟨c, hc, hlo, h⟩

/-- The bits of the mask 0x7BEF are those below the top bit of a channel of this hardware. -/
theorem getLsbD_darkMask : ∀ i < 32,
    (0x7BEF#32).getLsbD i = Params.moe.ch.any fun c => decide (c.2 ≤ i) && decide (i < c.1) := by decide

theorem dark_moe_eq_shift_mask (p : Word) : dark .moe p = (p >>> 1) &&& 0x7BEF#32 := by
  apply BitVec.eq_of_getLsbD_eq
  intro i hi
  rw [getLsbD_dark, BitVec.getLsbD_and, BitVec.getLsbD_ushiftRight, getLsbD_darkMask i hi, Nat.add_comm 1 i,
    Bool.and_comm]

/-- Settles O41: the mask keeps the bits that stay in their channel, and `CH` of this hardware is legal. -/
theorem darkHalvesEveryChannel : Obligations.DarkHalvesEveryChannel := by
  unfold Obligations.DarkHalvesEveryChannel
  exact fun p _ => ⟨dark_moe_eq_shift_mask p, fun _ hc => field_dark (P := .moe) (by decide) hc p⟩

end Sys2Proof.Machine
end

section
/-! PROOFS. The encoding (30_encoding): the fields of a command word, what the decoder reads from it, decoder and
encoder as inverses, and the refusals of step 1 and 2 of R112. -/

namespace Sys2Proof

open Laws.EncodeShape (opcOf_commandWord)

/-! ### The fields of a command word (R101 to R106) -/

theorem commandWord_toNat {opc arg : Nat} (ho : opc < 256) (ha : arg < 0x1000000) :
    (commandWord opc arg).toNat = opc * 0x1000000 + arg := by
  rw [commandWord, BitVec.toNat_ofNat, Nat.mod_eq_of_lt (by omega)]

/-- A word is the command word of its two parts. -/
theorem eq_commandWord {w : Word} {opc arg : Nat} (ho : opcOf w = opc) (ha : argOf w = arg) :
    w = commandWord opc arg := by
  have hw := w.isLt
  unfold opcOf at ho
  unfold argOf at ha
  apply BitVec.eq_of_toNat_eq
  rw [commandWord_toNat (by omega) (by omega)]
  omega

theorem argOf_commandWord {opc arg : Nat} (ho : opc < 256) (ha : arg < 0x1000000) :
    argOf (commandWord opc arg) = arg := by
  rw [argOf, commandWord_toNat ho ha]; omega

theorem regField_eq (w : Word) : regField w = argOf w % 0x100 := by unfold regField argOf; omega
theorem idxField_eq (w : Word) : idxField w = argOf w % 0x10000 := by unfold idxField argOf; omega
theorem addrField_eq (w : Word) : addrField w = argOf w % 0x100000 := by unfold addrField argOf; omega
theorem nibbleField_eq (w : Word) : nibbleField w = argOf w / 0x100000 := by unfold nibbleField argOf; omega

theorem argOf_lt (w : Word) : argOf w < 0x1000000 := by unfold argOf; omega

/-! ### The decoder's answer -/

/-- The decoder reads a command exactly from a command word of the map, its must-be-zero bits clear, with all its
operand words there (R100, R107, R112 to R114). -/
theorem decode_eq_ok_iff (ws : List Word) (i : Instr) (rest : List Word) :
    decode ws = .ok (i, rest) ↔
      ∃ w ops f, ws = w :: ops ++ rest ∧ formatOf (opcOf w) = some f ∧ ops.length = operandWords (opcOf w) ∧
        mbzClear f w = true ∧ instrOf w ops = some i := by
  constructor
  · intro h
    cases ws with
    | nil => simp [decode] at h
    | cons w tail =>
      simp only [decode] at h
      split at h
      · simp at h
      · next f hf =>
        split at h
        · simp at h
        · next hlen =>
          split at h
          · next hm =>
            split at h
            · next j hj =>
              simp only [Except.ok.injEq, Prod.mk.injEq] at h
              obtain ⟨rfl, rfl⟩ := h
              exact ⟨w, tail.take (operandWords (opcOf w)), f, by simp, hf, by simp; omega, hm, hj⟩
            · simp at h
          · simp at h
  · rintro ⟨w, ops, f, rfl, hf, hlen, hm, hi⟩
    have htake : (ops ++ rest).take (operandWords (opcOf w)) = ops := by rw [← hlen]; simp
    have hdrop : (ops ++ rest).drop (operandWords (opcOf w)) = rest := by rw [← hlen]; simp
    have hnot : ¬ (ops ++ rest).length < operandWords (opcOf w) := by rw [List.length_append]; omega
    simp only [decode, List.cons_append, hf, hnot, hm, htake, hdrop, hi, if_true, if_false]

/-- A defined command word with a must-be-zero bit set, its operand words there, is refused (R114). -/
theorem decode_mustBeZero {w : Word} {ops : List Word} {f : Format} (hf : formatOf (opcOf w) = some f)
    (hlen : ops.length = operandWords (opcOf w)) (hm : mbzClear f w = false) :
    decode (w :: ops) = .error (.mustBeZero (opcOf w)) := by
  simp [decode, hf, hlen, hm]

/-- A reserved opcode is refused whatever follows (R113). -/
theorem decode_reserved {w : Word} (rest : List Word) (hf : formatOf (opcOf w) = none) :
    decode (w :: rest) = .error (.reservedOpcode (opcOf w)) := by
  simp [decode, hf]

/-- Words wait exactly when there are none, or a command word of the map with operand words to come (R100). -/
theorem rxWaiting_iff (ws : List Word) :
    Machine.rxWaiting ws ↔
      ws = [] ∨ ∃ w ops, ws = w :: ops ∧ (formatOf (opcOf w)).isSome = true ∧ ops.length < operandWords (opcOf w) := by
  unfold Machine.rxWaiting
  cases ws with
  | nil => simp [decode]
  | cons w tail =>
    cases hf : formatOf (opcOf w) with
    | none => simp [decode, hf]
    | some f =>
      by_cases hlen : tail.length < operandWords (opcOf w)
      · simp [decode, hf, hlen]
      · simp only [decode, hf, hlen, if_false]
        split <;> [split; skip] <;> simp [hf, hlen]

/-- The word that completes a waiting command leaves no word over. -/
theorem rest_eq_nil_of_waiting {ws : List Word} {x : Word} {i : Instr} {rest : List Word}
    (hw : Machine.rxWaiting ws) (h : decode (ws ++ [x]) = .ok (i, rest)) : rest = [] := by
  obtain ⟨w, ops, f, hws, -, hlen, -, -⟩ := (decode_eq_ok_iff _ _ _).1 h
  rcases (rxWaiting_iff ws).1 hw with rfl | ⟨w', ops', rfl, -, hshort⟩
  · simp only [List.nil_append, List.cons_append, List.cons.injEq] at hws
    simpa using (List.nil_eq_append_iff.1 hws.2).2
  · simp only [List.cons_append, List.cons.injEq] at hws
    obtain ⟨rfl, htail⟩ := hws
    have hcount := congrArg List.length htail
    simp only [List.length_append, List.length_singleton] at hcount
    exact List.eq_nil_of_length_eq_zero (by omega)

/-! ### Decoder and encoder -/

/-- The word form of a command: the command word and the operand words the decoder takes it from. -/
def HasForm (i : Instr) (w : Word) (ops : List Word) : Prop :=
  ∃ f, formatOf (opcOf w) = some f ∧ ops.length = operandWords (opcOf w) ∧ mbzClear f w = true ∧ instrOf w ops = some i

/-- A command word made of an opcode of the map and a fitting argument has the form the map gives it. -/
theorem hasForm_commandWord {i : Instr} {opc arg : Nat} {ops : List Word} (f : Format) (ho : opc < 256)
    (ha : arg < 0x1000000) (hf : formatOf opc = some f) (hlen : ops.length = operandWords opc)
    (hm : mbzClear f (commandWord opc arg) = true) (hi : instrOf (commandWord opc arg) ops = some i) :
    HasForm i (commandWord opc arg) ops :=
  ⟨f, by rw [opcOf_commandWord _ _ ho ha, hf], by rw [opcOf_commandWord _ _ ho ha, hlen], hm, hi⟩

/-- Format R: the argument is the register number (R103). -/
theorem hasForm_reg {i : Instr} {opc reg : Nat} {ops : List Word} (ho : opc < 256) (hr : reg < 256)
    (hf : formatOf opc = some .r) (hlen : ops.length = operandWords opc)
    (hi : ∀ w, opcOf w = opc → regField w = reg → instrOf w ops = some i) : HasForm i (commandWord opc reg) ops := by
  have harg : argOf (commandWord opc reg) = reg := argOf_commandWord ho (by omega)
  refine hasForm_commandWord .r ho (by omega) hf hlen ?_ (hi _ (opcOf_commandWord _ _ ho (by omega)) ?_)
  · rw [mbzClear, harg, decide_eq_true_eq]; omega
  · rw [regField_eq, harg]; omega

/-- Format Q: the queue stands in the high four bits of the argument (R104). -/
theorem hasForm_queue {i : Instr} {opc q : Nat} {ops : List Word} (ho : opc < 256) (hq : q < 16)
    (hf : formatOf opc = some .q) (hlen : ops.length = operandWords opc)
    (hi : ∀ w, opcOf w = opc → nibbleField w = q → instrOf w ops = some i) :
    HasForm i (commandWord opc (q * 0x100000)) ops := by
  have harg : argOf (commandWord opc (q * 0x100000)) = q * 0x100000 := argOf_commandWord ho (by omega)
  refine hasForm_commandWord .q ho (by omega) hf hlen ?_ (hi _ (opcOf_commandWord _ _ ho (by omega)) ?_)
  · rw [mbzClear, addrField_eq, harg, decide_eq_true_eq]; omega
  · rw [nibbleField_eq, harg]; omega

/-- Format I: the argument is the index (R105). -/
theorem hasForm_index {i : Instr} {opc idx : Nat} {ops : List Word} (ho : opc < 256) (hx : idx < 65536)
    (hf : formatOf opc = some .i) (hlen : ops.length = operandWords opc)
    (hi : ∀ w, opcOf w = opc → idxField w = idx → instrOf w ops = some i) : HasForm i (commandWord opc idx) ops := by
  have harg : argOf (commandWord opc idx) = idx := argOf_commandWord ho (by omega)
  refine hasForm_commandWord .i ho (by omega) hf hlen ?_ (hi _ (opcOf_commandWord _ _ ho (by omega)) ?_)
  · rw [mbzClear, harg, decide_eq_true_eq]; omega
  · rw [idxField_eq, harg]; omega

/-- Format M: the space above the address (R106). -/
theorem hasForm_memory {i : Instr} {opc space addr : Nat} {ops : List Word} (ho : opc < 256)
    (hs : space < 16 ∧ addr < 1048576) (hf : formatOf opc = some .m) (hlen : ops.length = operandWords opc)
    (hi : ∀ w, opcOf w = opc → nibbleField w = space → addrField w = addr → instrOf w ops = some i) :
    HasForm i (commandWord opc (space * 0x100000 + addr)) ops := by
  have harg : argOf (commandWord opc (space * 0x100000 + addr)) = space * 0x100000 + addr :=
    argOf_commandWord ho (by omega)
  refine hasForm_commandWord .m ho (by omega) hf hlen rfl (hi _ (opcOf_commandWord _ _ ho (by omega)) ?_ ?_)
  · rw [nibbleField_eq, harg]; omega
  · rw [addrField_eq, harg]; omega

/-- The words the encoder writes have the form of their command. -/
theorem encode_hasForm {i : Instr} (h : i.wellFormed = true) : ∃ w ops, encode i = w :: ops ∧ HasForm i w ops := by
  have bare : ∀ {j : Instr} {opc : Nat} {ops : List Word}, opc < 256 → formatOf opc = some .z →
      ops.length = operandWords opc → instrOf (commandWord opc 0) ops = some j → HasForm j (commandWord opc 0) ops :=
    fun ho hf hlen hi => hasForm_commandWord .z ho (by omega) hf hlen
      (by rw [mbzClear, argOf_commandWord ho (by omega)]; rfl) hi
  cases i with
  | nop => exact ⟨_, _, rfl, bare (by omega) rfl rfl rfl⟩
  | start => exact ⟨_, _, rfl, bare (by omega) rfl rfl rfl⟩
  | stop => exact ⟨_, _, rfl, bare (by omega) rfl rfl rfl⟩
  | rend => exact ⟨_, _, rfl, bare (by omega) rfl rfl rfl⟩
  | pubt => exact ⟨_, _, rfl, bare (by omega) rfl rfl rfl⟩
  | vstat => exact ⟨_, _, rfl, bare (by omega) rfl rfl rfl⟩
  | tick => exact ⟨_, _, rfl, bare (by omega) rfl rfl rfl⟩
  | pkt => exact ⟨_, _, rfl, bare (by omega) rfl rfl rfl⟩
  | aenq w0 w1 w2 w3 => exact ⟨_, _, rfl, bare (by omega) rfl rfl rfl⟩
  | reqx => exact ⟨_, _, rfl, bare (by omega) rfl rfl rfl⟩
  | relx => exact ⟨_, _, rfl, bare (by omega) rfl rfl rfl⟩
  | xstat => exact ⟨_, _, rfl, bare (by omega) rfl rfl rfl⟩
  | xchk => exact ⟨_, _, rfl, bare (by omega) rfl rfl rfl⟩
  | rdreg reg => exact ⟨_, _, rfl, hasForm_reg (by omega) (by simpa [Instr.wellFormed] using h) rfl rfl
      fun w => by simp +contextual [instrOf]⟩
  | wrreg reg w0 => exact ⟨_, _, rfl, hasForm_reg (by omega) (by simpa [Instr.wellFormed] using h) rfl rfl
      fun w => by simp +contextual [instrOf, operand]⟩
  | push q w0 => exact ⟨_, _, rfl, hasForm_queue (by omega) (by simpa [Instr.wellFormed] using h) rfl rfl
      fun w => by simp +contextual [instrOf, operand]⟩
  | pop q => exact ⟨_, _, rfl, hasForm_queue (by omega) (by simpa [Instr.wellFormed] using h) rfl rfl
      fun w => by simp +contextual [instrOf]⟩
  | free q => exact ⟨_, _, rfl, hasForm_queue (by omega) (by simpa [Instr.wellFormed] using h) rfl rfl
      fun w => by simp +contextual [instrOf]⟩
  | used q => exact ⟨_, _, rfl, hasForm_queue (by omega) (by simpa [Instr.wellFormed] using h) rfl rfl
      fun w => by simp +contextual [instrOf]⟩
  | publ idx => exact ⟨_, _, rfl, hasForm_index (by omega) (by simpa [Instr.wellFormed] using h) rfl rfl
      fun w => by simp +contextual [instrOf]⟩
  | pubf idx => exact ⟨_, _, rfl, hasForm_index (by omega) (by simpa [Instr.wellFormed] using h) rfl rfl
      fun w => by simp +contextual [instrOf]⟩
  | mrd space addr => exact ⟨_, _, rfl, hasForm_memory (by omega) (by simpa [Instr.wellFormed] using h) rfl rfl
      fun w => by simp +contextual [instrOf]⟩
  | mwr space addr w0 => exact ⟨_, _, rfl, hasForm_memory (by omega) (by simpa [Instr.wellFormed] using h) rfl rfl
      fun w => by simp +contextual [instrOf, operand]⟩

/-- The word of a form is the one the encoder writes, by format: the must-be-zero bits leave no other. -/
theorem words_z {w : Word} {opc : Nat} (ho : opcOf w = opc) (hm : mbzClear .z w = true) : commandWord opc 0 = w :=
  (eq_commandWord ho (by simpa [mbzClear] using hm)).symm

theorem words_r {w : Word} {opc : Nat} (ho : opcOf w = opc) (hm : mbzClear .r w = true) :
    commandWord opc (regField w) = w := by
  simp only [mbzClear, decide_eq_true_eq] at hm
  exact (eq_commandWord ho (by rw [regField_eq]; omega)).symm

theorem words_q {w : Word} {opc : Nat} (ho : opcOf w = opc) (hm : mbzClear .q w = true) :
    commandWord opc (nibbleField w * 0x100000) = w := by
  simp only [mbzClear, decide_eq_true_eq, addrField_eq] at hm
  exact (eq_commandWord ho (by rw [nibbleField_eq]; omega)).symm

theorem words_i {w : Word} {opc : Nat} (ho : opcOf w = opc) (hm : mbzClear .i w = true) :
    commandWord opc (idxField w) = w := by
  simp only [mbzClear, decide_eq_true_eq] at hm
  exact (eq_commandWord ho (by rw [idxField_eq]; omega)).symm

theorem words_m {w : Word} {opc : Nat} (ho : opcOf w = opc) :
    commandWord opc (nibbleField w * 0x100000 + addrField w) = w :=
  (eq_commandWord ho (by rw [nibbleField_eq, addrField_eq]; omega)).symm

theorem fields_fit (w : Word) : regField w < 256 ∧ nibbleField w < 16 ∧ idxField w < 65536 ∧ addrField w < 1048576 := by
  unfold regField nibbleField idxField addrField; omega

theorem operand_none {ops : List Word} (h : ops.length = 0) : [] = ops :=
  (List.eq_nil_of_length_eq_zero h).symm

theorem operand_singleton {ops : List Word} (h : ops.length = 1) : [operand ops 0] = ops := by
  obtain ⟨x, rfl⟩ := List.length_eq_one_iff.1 h; rfl

theorem operand_quadruple {ops : List Word} (h : ops.length = 4) :
    [operand ops 0, operand ops 1, operand ops 2, operand ops 3] = ops := by
  match ops, h with
  | [_, _, _, _], _ => rfl

/-- A word form determines its command's fields, and is what the encoder writes for it. -/
theorem HasForm.encode {i : Instr} {w : Word} {ops : List Word} (h : HasForm i w ops) :
    i.wellFormed = true ∧ encode i = w :: ops := by
  obtain ⟨f, hf, hlen, hm, hi⟩ := h
  obtain ⟨hreg, hnib, hidx, haddr⟩ := fields_fit w
  have hmem : (decide (nibbleField w < 16) && decide (addrField w < 1048576)) = true := by simp [hnib, haddr]
  unfold instrOf at hi
  split at hi <;> rename_i ho <;> cases hi <;> rw [ho] at hf hlen <;> cases hf
  · exact ⟨rfl, congrArg₂ _ (words_z ho hm) (operand_none hlen)⟩
  · exact ⟨rfl, congrArg₂ _ (words_z ho hm) (operand_none hlen)⟩
  · exact ⟨rfl, congrArg₂ _ (words_z ho hm) (operand_none hlen)⟩
  · exact ⟨decide_eq_true hreg, congrArg₂ _ (words_r ho hm) (operand_none hlen)⟩
  · exact ⟨decide_eq_true hreg, congrArg₂ _ (words_r ho hm) (operand_singleton hlen)⟩
  · exact ⟨decide_eq_true hnib, congrArg₂ _ (words_q ho hm) (operand_singleton hlen)⟩
  · exact ⟨decide_eq_true hnib, congrArg₂ _ (words_q ho hm) (operand_none hlen)⟩
  · exact ⟨decide_eq_true hnib, congrArg₂ _ (words_q ho hm) (operand_none hlen)⟩
  · exact ⟨decide_eq_true hnib, congrArg₂ _ (words_q ho hm) (operand_none hlen)⟩
  · exact ⟨rfl, congrArg₂ _ (words_z ho hm) (operand_none hlen)⟩
  · exact ⟨decide_eq_true hidx, congrArg₂ _ (words_i ho hm) (operand_none hlen)⟩
  · exact ⟨decide_eq_true hidx, congrArg₂ _ (words_i ho hm) (operand_none hlen)⟩
  · exact ⟨rfl, congrArg₂ _ (words_z ho hm) (operand_none hlen)⟩
  · exact ⟨rfl, congrArg₂ _ (words_z ho hm) (operand_none hlen)⟩
  · exact ⟨rfl, congrArg₂ _ (words_z ho hm) (operand_none hlen)⟩
  · exact ⟨rfl, congrArg₂ _ (words_z ho hm) (operand_none hlen)⟩
  · exact ⟨rfl, congrArg₂ _ (words_z ho hm) (operand_quadruple hlen)⟩
  · exact ⟨rfl, congrArg₂ _ (words_z ho hm) (operand_none hlen)⟩
  · exact ⟨rfl, congrArg₂ _ (words_z ho hm) (operand_none hlen)⟩
  · exact ⟨rfl, congrArg₂ _ (words_z ho hm) (operand_none hlen)⟩
  · exact ⟨rfl, congrArg₂ _ (words_z ho hm) (operand_none hlen)⟩
  · exact ⟨hmem, congrArg₂ _ (words_m ho) (operand_none hlen)⟩
  · exact ⟨hmem, congrArg₂ _ (words_m ho) (operand_singleton hlen)⟩

/-- Settles O1: the encoder's words have their command's form, and the decoder reads a form. -/
theorem decodeEncodeRoundTrip : Obligations.DecodeEncodeRoundTrip := by
  unfold Obligations.DecodeEncodeRoundTrip
  intro i rest h
  obtain ⟨w, ops, he, f, hf, hlen, hm, hi⟩ := encode_hasForm h
  rw [he]
  exact (decode_eq_ok_iff _ _ _).2 ⟨w, ops, f, rfl, hf, hlen, hm, hi⟩

/-- Settles O2: what decodes has a form, and a form is what the encoder writes. -/
theorem decodedWordsAreTheEncoding : Obligations.DecodedWordsAreTheEncoding := by
  unfold Obligations.DecodedWordsAreTheEncoding
  intro ws i rest h
  obtain ⟨w, ops, f, hws, hform⟩ := (decode_eq_ok_iff _ _ _).1 h
  obtain ⟨hwf, he⟩ := HasForm.encode ⟨f, hform⟩
  exact ⟨hwf, by rw [hws, he]⟩

/-- Settles O3: each is the encoding of its command. -/
theorem specWordsDecode : Obligations.SpecWordsDecode := by
  unfold Obligations.SpecWordsDecode
  exact ⟨decodeEncodeRoundTrip (.rdreg 10) [] rfl, decodeEncodeRoundTrip (.wrreg 8 0x00016666#32) [] rfl,
    decodeEncodeRoundTrip (.pop 1) [] rfl, decodeEncodeRoundTrip (.publ 5) [] rfl,
    decodeEncodeRoundTrip (.aenq 1#32 2#32 3#32 4#32) [] rfl, decodeEncodeRoundTrip .xchk [] rfl,
    decodeEncodeRoundTrip (.mwr 2 0x100 0x0000F800#32) [] rfl⟩

end Sys2Proof

namespace Sys2Proof.Machine

/-! ### Refused words (R113, R114) -/

/-- A word with which the port's words are no command and wait for none is answered `ILLEGAL`, and only that. -/
theorem step_illegal {s : State} {pt : Port} {x : Word} {es : List Event} {e : DecodeError}
    (hin : s.inputs = .word pt x :: es) (hd : decode (rxOf s pt ++ [x]) = .error e) (he : ∀ n, e ≠ .wordsToCome n) :
    ∃ t, step s = .next t ∧ respOf t pt.agent = some ⟨.illegal, []⟩ ∧ t.block = s.block ∧ rxOf t pt = [] ∧
      t.inputs = es ∧ (∀ a, a ≠ pt.agent → respOf t a = respOf s a) ∧ (∀ qt, qt ≠ pt → rxOf t qt = rxOf s qt) := by
  let u : State := { withRx { s with inputs := es } pt [] with issuer := pt.agent }
  have hstep : step s = .next (respond .illegal [] u) := by
    rw [step_word hin, takeWord]
    have hd' : decode (rxOf { s with inputs := es } pt ++ [x]) = .error e := by cases pt <;> exact hd
    rw [hd']
    cases e with
    | wordsToCome n => exact absurd rfl (he n)
    | reservedOpcode o => rfl
    | mustBeZero o => rfl
  have hrx : ∀ qt, rxOf (respond .illegal [] u) qt = rxOf u qt := by
    intro qt; cases qt <;> simp [rxOf]
  refine ⟨_, hstep, respOf_respond_issuer .illegal [] u, ?_, ?_, ?_, ?_, ?_⟩
  · rw [respond_block]; cases pt <;> rfl
  · rw [hrx]; cases pt <;> rfl
  · rw [respond_inputs]; cases pt <;> rfl
  · intro a ha
    rw [respOf_respond_other _ _ _ _ ha]; cases pt <;> cases a <;> rfl
  · intro qt hq
    rw [hrx]; exact rxOf_withRx_other { s with inputs := es } pt qt [] hq

/-- Settles O4: a reserved opcode is refused by its first word. -/
theorem reservedOpcodeIsIllegal : Obligations.ReservedOpcodeIsIllegal := by
  unfold Obligations.ReservedOpcodeIsIllegal
  intro s pt w es hin hrx hres
  have hf : formatOf (opcOf w) = none := by
    change opcOf w ∉ _ at hres
    unfold formatOf
    split <;> simp_all
  refine step_illegal hin (e := .reservedOpcode (opcOf w)) ?_ (fun n h => by cases h)
  rw [hrx]
  exact decode_reserved [] hf

/-- Any word whose opcode has format M decodes: the format has no must-be-zero bit. -/
theorem decode_memory {w : Word} {ops : List Word} {i : Instr} (hf : formatOf (opcOf w) = some .m)
    (hlen : ops.length = operandWords (opcOf w)) (hi : instrOf w ops = some i) : decode (w :: ops) = .ok (i, []) :=
  (decode_eq_ok_iff _ _ _).2 ⟨w, ops, .m, by simp, hf, hlen, rfl, hi⟩

/-- Settles O5: each form is a format of the map with one of its must-be-zero bits set. -/
theorem mustBeZeroBitsAreIllegal : Obligations.MustBeZeroBitsAreIllegal := by
  unfold Obligations.MustBeZeroBitsAreIllegal
  refine ⟨?_, fun w x => ⟨fun hw => ?_, fun hw => ?_⟩⟩
  · intro s pt w ops x es hin hws hform
    suffices h : ∃ f, formatOf (opcOf w) = some f ∧ ops.length = operandWords (opcOf w) ∧ mbzClear f w = false by
      obtain ⟨f, hf, hlen, hm⟩ := h
      refine step_illegal hin (e := .mustBeZero (opcOf w)) ?_ (fun n h => by cases h)
      rw [hws]
      exact decode_mustBeZero hf hlen hm
    have hopc : w.toNat / 2 ^ 24 = opcOf w := rfl
    rw [hopc] at hform
    have harg : w.toNat % 2 ^ 24 = argOf w := rfl
    have hr : w.toNat / 2 ^ 8 % 2 ^ 16 = argOf w / 0x100 := by unfold argOf; omega
    have hx : w.toNat / 2 ^ 16 % 2 ^ 8 = argOf w / 0x10000 := by unfold argOf; omega
    have hq : w.toNat % 2 ^ 20 = addrField w := rfl
    rw [harg, hr, hx, hq] at hform
    rcases hform with ⟨ho, hlen, hb⟩ | ⟨ho, hlen, hb⟩ | ⟨ho, hlen, hb⟩ | ⟨ho, hlen, hb⟩ | ⟨ho, hlen, hb⟩ |
      ⟨ho, hlen, hb⟩ | ⟨ho, hlen, hb⟩
    · have formats : ∀ o ∈ [0x00, 0x01, 0x02, 0x20, 0x23, 0x24, 0x30, 0x31, 0x40, 0x41, 0x42, 0x43],
          formatOf o = some .z ∧ operandWords o = 0 := by decide
      obtain ⟨hf, hn⟩ := formats _ ho
      exact ⟨.z, hf, by rw [hn]; exact hlen, decide_eq_false hb⟩
    · exact ⟨.z, by rw [ho]; rfl, by rw [ho]; exact hlen, decide_eq_false hb⟩
    · exact ⟨.r, by rw [ho]; rfl, by rw [ho]; exact hlen, decide_eq_false hb⟩
    · exact ⟨.r, by rw [ho]; rfl, by rw [ho]; exact hlen, decide_eq_false hb⟩
    · exact ⟨.q, by rw [ho]; rfl, by rw [ho]; exact hlen, decide_eq_false hb⟩
    · have formats : ∀ o ∈ [0x11, 0x12, 0x13], formatOf o = some .q ∧ operandWords o = 0 := by decide
      obtain ⟨hf, hn⟩ := formats _ ho
      exact ⟨.q, hf, by rw [hn]; exact hlen, decide_eq_false hb⟩
    · have formats : ∀ o ∈ [0x21, 0x22], formatOf o = some .i ∧ operandWords o = 0 := by decide
      obtain ⟨hf, hn⟩ := formats _ ho
      exact ⟨.i, hf, by rw [hn]; exact hlen, decide_eq_false hb⟩
  · have ho : opcOf w = 0x50 := hw
    exact decode_memory (by rw [ho]; rfl) (by rw [ho]; rfl) (by rw [instrOf, ho]; rfl)
  · have ho : opcOf w = 0x51 := hw
    exact decode_memory (by rw [ho]; rfl) (by rw [ho]; rfl) (by rw [instrOf, ho]; rfl)

/-- Settles O6: by the decoder's answer to the port's words with the one that arrives. -/
theorem stepRunsTheDecodedCommand : Obligations.StepRunsTheDecodedCommand := by
  unfold Obligations.StepRunsTheDecodedCommand
  intro s pt w es hin
  have hrx : rxOf { s with inputs := es } pt = rxOf s pt := by cases pt <;> rfl
  constructor
  · intro i rest hd _
    rw [step_word hin, takeWord, hrx, hd]
  · intro n hd
    rw [step_word hin, takeWord, hrx, hd]

end Sys2Proof.Machine
end

section
/-! PROOFS. What a command can do: one relation for the state it leaves besides its response, one lemma that every command
has it, and the frames that follow (30_encoding R108 to R110; 60_exceptions R272, R290). -/

namespace Sys2Proof.Machine

/-! ### Shared operations as record updates -/

theorem noteRace_eq (s : State) (sp : Space) (addr : Nat) :
    noteRace s sp addr = { s with raced := (noteRace s sp addr).raced } := by
  unfold noteRace; split <;> rfl

/-- A write to a writable space: the element there, the race note, nothing else. -/
theorem writeElement_eq (P : Params) {sp : Space} (h : spaceWritable sp = true) (addr : Nat) (v : Word) (s : State) :
    writeElement P sp addr v s =
      { s with
        raced := (noteRace s sp addr).raced
        txt := if sp = .txt then memWrite s.txt addr (trunc (spaceWidth P .txt) v) else s.txt
        fb := if sp = .fb then memWrite s.fb addr (trunc (spaceWidth P .fb) v) else s.fb
        ls := if sp = .ls then memWrite s.ls addr (trunc (spaceWidth P .ls) v) else s.ls
        ovl := if sp = .ovl then memWrite s.ovl addr (trunc (spaceWidth P .ovl) v) else s.ovl } := by
  unfold writeElement
  rw [noteRace_eq]
  cases sp with
  | txt => rfl
  | fb => rfl
  | ls => rfl
  | ovl => rfl
  | lb => cases h
  | sil => cases h
  | font => cases h

theorem regWrite_eq (s : State) (r : Reg) (w : Word) :
    regWrite s r w = { s with pend := (regWrite s r w).pend, hwm := (regWrite s r w).hwm } := by
  cases r <;> rfl

theorem tagSlot_eq (P : Params) (idx : Nat) (s : State) :
    tagSlot P idx s = { s with ls0 := (tagSlot P idx s).ls0, ls1 := (tagSlot P idx s).ls1 } := by
  unfold tagSlot; split <;> rfl

/-- A register write keeps the undefined bits 0. -/
theorem regWrite_confSound {P : Params} {s : State} (r : Reg) (w : Word) (h : ConfSound P s.pend) :
    ConfSound P (regWrite s r w).pend := by
  obtain ⟨hmode, hsel, hovl, hbank⟩ := h
  have masked : ∀ d : Word, w &&& d &&& d = w &&& d := fun d => by rw [BitVec.and_assoc, BitVec.and_self]
  cases r with
  | mode => exact ⟨masked _, hsel, hovl, hbank⟩
  | selrow => exact ⟨hmode, masked _, hovl, hbank⟩
  | ovlCtrl => exact ⟨hmode, hsel, masked _, hbank⟩
  | _ => exact ⟨hmode, hsel, hovl, hbank⟩

/-! ### What a command may write -/

/-- What a command may do to the state besides its response, and who may make it do so (30_encoding R110; 60_exceptions
R290): nothing, or the writes of one command. -/
inductive Effect (P : Params) (s : State) : State → Prop where
  | nothing : Effect P s s
  | drawn (hp : s.issuer = .p) : Effect P s { s with draws := s.draws + 1 }
  | runRequest (hp : s.issuer = .p) (b : Bool) : Effect P s { s with runReq := b }
  | settings (hp : s.issuer = .p) (c : Conf) (mark : Word) (l0 l1 : LsTag)
      (hc : ConfSound P s.pend → ConfSound P c) : Effect P s { s with pend := c, hwm := mark, ls0 := l0, ls1 := l1 }
  | pushed1 (hp : s.issuer = .p) (hq : 1 < P.nq) (w : Word) (r : Ring Word) (hr : rbPush (P.rbN 1) s.q1 w = some r) :
      Effect P s { s with q1 := r }
  | pushed2 (hp : s.issuer = .p) (hq : 2 < P.nq) (w : Word) (r : Ring Word) (hr : rbPush (P.rbN 2) s.q2 w = some r) :
      Effect P s { s with q2 := r }
  | popped1 (hc : s.issuer = .c1) (hq : 1 < P.nq) (v : Option Word) (r : Ring Word) (d : Nat)
      (hr : rbPop (P.rbN 1) s.q1 = some (v, r)) : Effect P s { s with q1 := r, draws := d }
  | popped2 (hc : s.issuer = .c2) (hq : 2 < P.nq) (v : Option Word) (r : Ring Word) (d : Nat)
      (hr : rbPop (P.rbN 2) s.q2 = some (v, r)) : Effect P s { s with q2 := r, draws := d }
  | queued (hp : s.issuer = .p) (isl : Island) (r : Ring Island) (hr : rbPush (P.rbN 0) s.q0 isl = some r) :
      Effect P s { s with q0 := r, encEs := countMod P.esPeriod s.encEs }
  | requested (hp : s.issuer = .p) (b : Bool) (h : s.xreq = s.xgnt) (hb : b = !s.xgnt) : Effect P s { s with xreq := b }
  | written (hp : s.issuer = .p) (sp : Space) (addr : Nat) (w : Word) (hw : spaceWritable sp = true)
      (ha : addr < spaceSize P sp) : Effect P s (writeElement P sp addr w s)
  | ticked (hs : s.issuer = .seq) : Effect P s { s with acc := s.acc + s.act.spl }
  | emitted (hs : s.issuer = .seq) : Effect P s (fetchIsland P { s with acc := s.acc - thresh, diValid := true })
  | notDue (hs : s.issuer = .seq) : Effect P s { s with diValid := false }
  | rendered (hs : s.issuer = .seq) : Effect P s (renderLine P s)
  | evaluated (hs : s.issuer = .seq) : Effect P s (evaluate P s)

/-- The end of a command: its effect and one response, with the value words of R110 on `OK` and none else, and no effect
on any status but `OK` and `NOTDUE` (R109; 60_exceptions R272). -/
def Answered (P : Params) (i : Instr) (s u : State) : Prop :=
  ∃ st vs t, u = respond st vs t ∧ Effect P s t ∧ vs.length = (if st = .ok then valueWords i else 0) ∧
    (st = .ok ∨ st = .notDue ∨ t = s)

section
variable {P : Params} {i : Instr} {s t : State}

theorem answered_ok {vs : List Word} (he : Effect P s t) (hv : vs.length = valueWords i) :
    Answered P i s (respond .ok vs t) :=
  ⟨.ok, vs, t, rfl, he, hv, .inl rfl⟩

/-- An answer other than `OK` that changes nothing: an outcome or a refusal. -/
theorem answered_unchanged {st : Status} (h : st ≠ .ok) : Answered P i s (respond st [] s) :=
  ⟨st, [], s, rfl, .nothing, by rw [if_neg h]; rfl, .inr (.inr rfl)⟩

theorem answered_onPorts {run : State → State} (h : s.issuer ∈ portsOf i → Answered P i s (run s)) :
    Answered P i s (onPorts (portsOf i) run s) := by
  by_cases hi : s.issuer ∈ portsOf i
  · rw [onPorts_of_mem hi]; exact h hi
  · rw [onPorts_of_not_mem hi]; exact answered_unchanged (by decide)

theorem issuer_eq {a : Agent} (h : s.issuer ∈ [a]) : s.issuer = a := List.mem_singleton.1 h

theorem answered_pushInto {n width : Nat} {r : Ring Word} {w0 : Word} {store : Ring Word → State} {q : Nat}
    (h : ∀ r', rbPush n r (trunc width w0) = some r' → Effect P s (store r')) :
    Answered P (.push q w0) s (pushInto n width r w0 store s) := by
  unfold pushInto
  cases hr : rbPush n r (trunc width w0) with
  | none => exact answered_unchanged (by decide)
  | some r' => exact answered_ok (h r' hr) rfl

theorem answered_popFrom {n width : Nat} {r : Ring Word} {store : Ring Word → State} {q : Nat}
    (h : ∀ v r' d, rbPop n r = some (v, r') → Effect P s { store r' with draws := d })
    (hd : ∀ r', (store r').draws = s.draws) :
    Answered P (.pop q) s (popFrom P n width r store s) := by
  unfold popFrom
  rcases hr : rbPop n r with _ | ⟨_ | v, r'⟩
  · exact answered_unchanged (by decide)
  · exact answered_ok (h _ _ _ hr) rfl
  · have he := h _ _ s.draws hr
    rw [← hd r'] at he
    exact answered_ok he rfl

end

/-- Every command ends with its effect and one response. -/
theorem runCommand_answered (P : Params) (i : Instr) (s : State) : Answered P i s (runCommand P i s) := by
  unfold runCommand
  cases i with
  | nop => exact answered_onPorts fun _ => answered_ok .nothing rfl
  | start => exact answered_onPorts fun h => answered_ok (.runRequest (issuer_eq h) true) rfl
  | stop => exact answered_onPorts fun h => answered_ok (.runRequest (issuer_eq h) false) rfl
  | rdreg reg =>
    refine answered_onPorts fun _ => ?_
    split
    · exact answered_unchanged (by decide)
    · exact answered_ok .nothing rfl
  | wrreg reg w0 =>
    refine answered_onPorts fun h => ?_
    have write : ∀ r, Answered P (.wrreg reg w0) s (respond .ok [] (regWrite s r w0)) := fun r => by
      rw [regWrite_eq]
      exact answered_ok (.settings (issuer_eq h) _ _ s.ls0 s.ls1 (regWrite_confSound r w0)) rfl
    split
    · exact answered_unchanged (by decide)
    · next r _ =>
      split
      · exact answered_unchanged (by decide)
      · exact write r
      · exact write r
  | push q w0 =>
    refine answered_onPorts fun h => ?_
    split
    · exact answered_unchanged (by decide)
    · next hq =>
      split
      · exact answered_unchanged (by decide)
      · exact answered_pushInto fun r hr => .pushed1 (issuer_eq h) (by omega) _ r hr
      · exact answered_pushInto fun r hr => .pushed2 (issuer_eq h) (by omega) _ r hr
      · exact answered_unchanged (by decide)
  | pop q =>
    refine answered_onPorts fun h => ?_
    split
    · exact answered_unchanged (by decide)
    · next hq =>
      split
      · exact answered_unchanged (by decide)
      · next hown =>
        split
        · exact answered_unchanged (by decide)
        · have hc : s.issuer = .c1 := by cases hi : s.issuer <;> simp_all [ownsPop]
          exact answered_popFrom (fun v r d hr => .popped1 hc (by omega) v r d hr) fun _ => rfl
        · have hc : s.issuer = .c2 := by cases hi : s.issuer <;> simp_all [ownsPop]
          exact answered_popFrom (fun v r d hr => .popped2 hc (by omega) v r d hr) fun _ => rfl
        · exact answered_unchanged (by decide)
  | free q =>
    refine answered_onPorts fun _ => ?_
    split <;> [skip; split]
    · exact answered_unchanged (by decide)
    · exact answered_unchanged (by decide)
    · exact answered_ok .nothing rfl
  | used q =>
    refine answered_onPorts fun _ => ?_
    split <;> [skip; split]
    · exact answered_unchanged (by decide)
    · exact answered_unchanged (by decide)
    · exact answered_ok .nothing rfl
  | rend => exact answered_onPorts fun h => answered_ok (.rendered (issuer_eq h)) rfl
  | publ idx =>
    refine answered_onPorts fun h => ?_
    dsimp only
    rw [tagSlot_eq]
    refine answered_ok (.settings (issuer_eq h) _ s.hwm _ _ ?_) rfl
    exact fun ⟨hmode, hsel, hovl, hbank⟩ => ⟨hmode, hsel, hovl, hbank⟩
  | pubf idx =>
    refine answered_onPorts fun h => ?_
    split
    · exact answered_unchanged (by decide)
    · next hb =>
      refine answered_ok (.settings (issuer_eq h) _ s.hwm s.ls0 s.ls1 ?_) rfl
      exact fun ⟨hmode, hsel, hovl, _⟩ => ⟨hmode, hsel, hovl, Nat.lt_of_not_le hb⟩
  | pubt =>
    refine answered_onPorts fun h => answered_ok (.settings (issuer_eq h) _ s.hwm s.ls0 s.ls1 ?_) rfl
    exact fun ⟨hmode, hsel, hovl, hbank⟩ => ⟨hmode, hsel, hovl, hbank⟩
  | vstat => exact answered_onPorts fun _ => answered_ok .nothing rfl
  | tick => exact answered_onPorts fun h => answered_ok (.ticked (issuer_eq h)) rfl
  | pkt =>
    refine answered_onPorts fun h => ?_
    dsimp only
    split
    · exact answered_ok (.emitted (issuer_eq h)) (by simp [valueWords, islWords])
    · exact ⟨.notDue, [], _, rfl, .notDue (issuer_eq h), rfl, .inr (.inl rfl)⟩
  | aenq w0 w1 w2 w3 =>
    refine answered_onPorts fun h => ?_
    split
    · exact answered_unchanged (by decide)
    · split
      · exact answered_unchanged (by decide)
      · next r hr => exact answered_ok (.queued (issuer_eq h) _ r hr) rfl
  | reqx =>
    refine answered_onPorts fun h => ?_
    split
    · next hx =>
      obtain ⟨hreq, hgnt⟩ := hx
      exact answered_ok (.requested (issuer_eq h) _ (hreq.trans hgnt.symm) (by rw [hgnt]; rfl)) rfl
    · exact answered_unchanged (by decide)
  | relx =>
    refine answered_onPorts fun h => ?_
    split
    · next hx =>
      obtain ⟨hreq, hgnt⟩ := hx
      exact answered_ok (.requested (issuer_eq h) _ (hreq.trans hgnt.symm) (by rw [hgnt]; rfl)) rfl
    · exact answered_unchanged (by decide)
  | xstat => exact answered_onPorts fun _ => answered_ok .nothing rfl
  | xchk => exact answered_onPorts fun h => answered_ok (.evaluated (issuer_eq h)) rfl
  | mrd space addr =>
    refine answered_onPorts fun h => ?_
    split
    · exact answered_unchanged (by decide)
    · split
      · exact answered_ok .nothing rfl
      · exact answered_ok (.drawn (issuer_eq h)) rfl
  | mwr space addr w0 =>
    refine answered_onPorts fun h => ?_
    split
    · exact answered_unchanged (by decide)
    · next sp hsp =>
      have ha : addr < spaceSize P sp := by
        unfold elementOf at hsp
        split at hsp
        · split at hsp <;> simp_all
        · cases hsp
      split
      · next hw => exact answered_ok (.written (issuer_eq h) sp addr w0 hw ha) rfl
      · exact answered_unchanged (by decide)

/-! ### What no command touches (60_exceptions R290) -/

/-- What lies at the block's boundary and is not a response: issuer, waiting words, `tx_idle`, the events to come. -/
def State.boundary (s : State) : Agent × List Word × List Word × List Word × Bool × List Event :=
  (s.issuer, s.rxP, s.rxC1, s.rxC2, s.txIdle, s.inputs)

/-- The responses standing on the ports. -/
def State.responses (s : State) : Option Response × Option Response × Option Response × Option Response :=
  (s.respP, s.respC1, s.respC2, s.respS)

section
variable (P : Params) (s : State)

theorem fetchIsland_boundary : (fetchIsland P s).boundary = s.boundary ∧ (fetchIsland P s).responses = s.responses := by
  rcases fetchIsland_cases P s with ⟨-, h⟩ | ⟨-, _, -, h⟩ | ⟨-, -, h⟩ <;> rw [h] <;> exact ⟨rfl, rfl⟩

theorem evaluate_boundary : (evaluate P s).boundary = s.boundary ∧ (evaluate P s).responses = s.responses := by
  rcases evaluate_cases P s with h | ⟨-, -, h⟩ | ⟨-, -, -, h⟩ | ⟨-, -, -, -, h⟩ | ⟨-, -, -, -, h⟩ | ⟨-, -, -, h⟩ |
    ⟨-, -, -, -, h⟩ | ⟨-, -, -, -, h⟩ | ⟨-, -, -, h⟩ <;> rw [h] <;> exact ⟨rfl, rfl⟩

end

theorem Effect.boundary {P : Params} {s t : State} (h : Effect P s t) :
    t.boundary = s.boundary ∧ t.responses = s.responses := by
  cases h with
  | written _ sp addr w hw => rw [writeElement_eq P hw]; exact ⟨rfl, rfl⟩
  | emitted => exact fetchIsland_boundary P _
  | evaluated => exact evaluate_boundary P s
  | _ => exact ⟨rfl, rfl⟩

theorem Effect.issuer {P : Params} {s t : State} (h : Effect P s t) : t.issuer = s.issuer :=
  congrArg (·.1) h.boundary.1

theorem Effect.respOf {P : Params} {s t : State} (h : Effect P s t) (a : Agent) : respOf t a = respOf s a := by
  have hr := h.boundary.2
  simp only [State.responses, Prod.mk.injEq] at hr
  obtain ⟨hp, hc1, hc2, hs⟩ := hr
  cases a <;> assumption

/-- What every command does, at this hardware's parameters: its effect and its response to the issuer. -/
theorem exec_answered {i : Instr} {s u : State} (h : exec i s = .next u) : Answered .moe i s u := by
  rw [exec_shape] at h
  cases h
  exact runCommand_answered .moe i s

/-- The response of an answered command stands at its issuer. -/
theorem respOf_answer {P : Params} {s t : State} (h : Effect P s t) (st : Status) (vs : List Word) :
    Machine.respOf (respond st vs t) s.issuer = some ⟨st, vs⟩ := by
  rw [← h.issuer]; exact respOf_respond_issuer st vs t

/-- SEQ's internal command at a place of the service completes, and SEQ moves on. -/
theorem seqIssue_exec (i : Instr) (next : State → Svc) (s : State) :
    seqIssue exec i next s =
      .next { runCommand .moe i { s with issuer := .seq } with
        svc := next (runCommand .moe i { s with issuer := .seq }) } := by
  simp only [seqIssue, exec_shape]

theorem seqStep_completes (s : State) : ∃ t, seqStep .moe exec s = .next t := by
  unfold seqStep
  cases s.svc with
  | idle =>
    rw [seqStepAt]
    split <;> exact ⟨_, rfl⟩
  | _ => exact ⟨_, rfl⟩

theorem takeWord_completes (pt : Port) (w : Word) (s : State) : ∃ t, takeWord exec pt w s = .next t := by
  rcases takeWord_cases exec pt w s with ⟨_, -, h⟩ | ⟨_, -, h⟩ | ⟨_, _, -, h⟩
  · exact ⟨_, h⟩
  · exact ⟨_, h⟩
  · exact ⟨_, h.trans (exec_shape ..)⟩

theorem step_completes (s : State) : ∃ t, step s = .next t := by
  rcases step_cases s with ⟨-, h⟩ | ⟨e, es, -, h⟩ <;> rw [h]
  · exact seqStep_completes s
  · cases e with
    | word pt w => exact takeWord_completes pt w _
    | lineReq => exact ⟨_, rfl⟩
    | txIdle level => exact ⟨_, rfl⟩
    | reset => exact ⟨_, rfl⟩
    | seq => exact seqStep_completes _
    | seqByAccess =>
      rw [handle, seqAccessStep]
      split
      · exact ⟨_, rfl⟩
      · exact seqStep_completes _

/-- Settles O8: every command is answered, and every step completes. -/
theorem everyCommandAnswersAndNothingIsFatal : Obligations.EveryCommandAnswersAndNothingIsFatal := by
  unfold Obligations.EveryCommandAnswersAndNothingIsFatal
  refine ⟨fun i s => ?_, step_completes⟩
  obtain ⟨st, vs, t, hu, he, hlen, -⟩ := runCommand_answered .moe i s
  refine ⟨_, ⟨st, vs⟩, exec_shape i s, ?_, hlen, fun a ha => ?_⟩
  · rw [hu]; exact respOf_answer he st vs
  · rw [hu, respOf_respond_other _ _ _ _ (by rw [he.issuer]; exact ha)]; exact he.respOf a

/-- Settles O9: without `OK` and `NOTDUE` the effect is none. -/
theorem refusalsAndOutcomesChangeNothing : Obligations.RefusalsAndOutcomesChangeNothing := by
  unfold Obligations.RefusalsAndOutcomesChangeNothing
  intro i s u r hx hr hok hdue
  obtain ⟨st, vs, t, rfl, he, hlen, hsame⟩ := exec_answered hx
  rw [respOf_answer he, Option.some.injEq] at hr
  subst hr
  rw [if_neg hok] at hlen
  have hvs : vs = [] := List.eq_nil_of_length_eq_zero hlen
  obtain rfl : t = s := (hsame.resolve_left hok).resolve_left hdue
  exact ⟨hvs, by rw [hvs]⟩

/-! ### The ports column (R110) and what a command answers there -/

/-- Every command checks its ports column first. -/
theorem runCommand_onPorts (P : Params) (i : Instr) (s : State) :
    ∃ run, runCommand P i s = onPorts (portsOf i) run s := by
  unfold runCommand
  cases i <;> exact ⟨_, rfl⟩

/-- Settles O10: the ports column is checked before anything else. -/
theorem portRightsAreChecked : Obligations.PortRightsAreChecked := by
  unfold Obligations.PortRightsAreChecked
  have refused : ∀ (i : Instr) (s : State), s.issuer ∉ portsOf i → exec i s = .next (respond .port [] s) := by
    intro i s h
    obtain ⟨run, hrun⟩ := runCommand_onPorts .moe i s
    rw [exec_shape, hrun, onPorts_of_not_mem h, refuse]
  refine ⟨refused, fun i s hi hs => refused i s ?_⟩
  simp only [List.mem_cons, List.not_mem_nil, or_false] at hi
  rcases hi with rfl | rfl | rfl | rfl <;> simpa [portsOf] using hs

section
variable {s : State} (st : Status) (vs : List Word)

theorem respond_of_p (h : s.issuer = .p) : respond st vs s = { s with respP := some ⟨st, vs⟩ } := by
  simp [respond, h]
theorem respond_of_c1 (h : s.issuer = .c1) : respond st vs s = { s with respC1 := some ⟨st, vs⟩ } := by
  simp [respond, h]
theorem respond_of_c2 (h : s.issuer = .c2) : respond st vs s = { s with respC2 := some ⟨st, vs⟩ } := by
  simp [respond, h]
theorem respond_of_seq (h : s.issuer = .seq) : respond st vs s = { s with respS := some ⟨st, vs⟩ } := by
  simp [respond, h]

end

/-- A command of an agent of its ports column runs; `u` is its meaning by name. -/
theorem exec_allowed (i : Instr) {s : State} (u : State) {allowed : List Agent} {run : State → State}
    (hu : runCommand .moe i s = u) (hrun : u = onPorts allowed run s) (h : s.issuer ∈ allowed) :
    exec i s = .next (run s) := by
  rw [exec_shape, hu, hrun, onPorts_of_mem h]

/-! #### System commands, polls and publishing -/

/-- Settles O13. -/
theorem nopOnlyAnswers : Obligations.NopOnlyAnswers := by
  unfold Obligations.NopOnlyAnswers
  intro s
  refine ⟨fun h => ?_, fun h => ?_, fun h => ?_⟩
  · rw [exec_allowed .nop (runNop s) rfl rfl (by simp [h]), respond_of_p _ _ h]
  · rw [exec_allowed .nop (runNop s) rfl rfl (by simp [h]), respond_of_c1 _ _ h]
  · rw [exec_allowed .nop (runNop s) rfl rfl (by simp [h]), respond_of_c2 _ _ h]

section PortP
variable {s : State} (h : s.issuer = .p)
include h

theorem exec_start : exec .start s = .next { s with runReq := true, respP := some ⟨.ok, []⟩ } := by
  rw [exec_allowed .start (runStart s) rfl rfl (by simp [h])]; exact congrArg _ (respond_of_p _ _ h)

theorem exec_stop : exec .stop s = .next { s with runReq := false, respP := some ⟨.ok, []⟩ } := by
  rw [exec_allowed .stop (runStop s) rfl rfl (by simp [h])]; exact congrArg _ (respond_of_p _ _ h)

theorem exec_rdreg {reg : Nat} {r : Reg} (hr : regOf .moe reg = some r) :
    exec (.rdreg reg) s = .next { s with respP := some ⟨.ok, [regValue .moe s r]⟩ } := by
  rw [exec_allowed (.rdreg reg) (runRdreg .moe reg s) rfl rfl (by simp [h]), hr]; exact congrArg _ (respond_of_p _ _ h)

theorem exec_rdreg_range {reg : Nat} (hr : regOf .moe reg = none) :
    exec (.rdreg reg) s = .next (respond .range [] s) := by
  rw [exec_allowed (.rdreg reg) (runRdreg .moe reg s) rfl rfl (by simp [h]), hr, refuse]

theorem exec_wrreg {reg : Nat} {r : Reg} {w : Word} (hr : regOf .moe reg = some r) (ha : accessOf r ≠ .ro) :
    exec (.wrreg reg w) s = .next { regWrite s r w with respP := some ⟨.ok, []⟩ } := by
  have hp : (regWrite s r w).issuer = .p := by rw [regWrite_eq]; exact h
  rw [exec_allowed (.wrreg reg w) (runWrreg .moe reg w s) rfl rfl (by simp [h]), hr, ← respond_of_p _ _ hp]
  cases haccess : accessOf r with
  | ro => exact absurd haccess ha
  | rw => simp only [haccess]
  | rwd => simp only [haccess]

theorem exec_wrreg_range {reg : Nat} {w : Word} (hr : regOf .moe reg = none) :
    exec (.wrreg reg w) s = .next (respond .range [] s) := by
  rw [exec_allowed (.wrreg reg w) (runWrreg .moe reg w s) rfl rfl (by simp [h]), hr, refuse]

theorem exec_wrreg_ro {reg : Nat} {r : Reg} {w : Word} (hr : regOf .moe reg = some r) (ha : accessOf r = .ro) :
    exec (.wrreg reg w) s = .next (respond .ro [] s) := by
  rw [exec_allowed (.wrreg reg w) (runWrreg .moe reg w s) rfl rfl (by simp [h]), hr]; simp only [ha, refuse]

theorem exec_mrd_range {space addr : Nat} (he : elementOf .moe space addr = none) :
    exec (.mrd space addr) s = .next (respond .range [] s) := by
  rw [exec_allowed (.mrd space addr) (runMrd .moe space addr s) rfl rfl (by simp [h]), he, refuse]

theorem exec_mrd_value {space addr : Nat} {sp : Space} {v : Word} (he : elementOf .moe space addr = some sp)
    (hv : elementValue .moe s sp addr = some v) :
    exec (.mrd space addr) s = .next { s with respP := some ⟨.ok, [v]⟩ } := by
  rw [exec_allowed (.mrd space addr) (runMrd .moe space addr s) rfl rfl (by simp [h]), he]
  simp only [hv]
  exact congrArg _ (respond_of_p _ _ h)

theorem exec_mrd_drawn {space addr : Nat} {sp : Space} (he : elementOf .moe space addr = some sp)
    (hv : elementValue .moe s sp addr = none) :
    exec (.mrd space addr) s =
      .next { s with
        draws := s.draws + 1, respP := some ⟨.ok, [drawAt .moe (spaceWidth .moe sp) s.draws]⟩ } := by
  rw [exec_allowed (.mrd space addr) (runMrd .moe space addr s) rfl rfl (by simp [h]), he]
  simp only [hv]
  exact congrArg _ (respond_of_p _ _ h)

theorem exec_mwr_range {space addr : Nat} {w : Word} (he : elementOf .moe space addr = none) :
    exec (.mwr space addr w) s = .next (respond .range [] s) := by
  rw [exec_allowed (.mwr space addr w) (runMwr .moe space addr w s) rfl rfl (by simp [h]), he, refuse]

theorem exec_mwr_ro {space addr : Nat} {w : Word} {sp : Space} (he : elementOf .moe space addr = some sp)
    (hw : spaceWritable sp = false) : exec (.mwr space addr w) s = .next (respond .ro [] s) := by
  rw [exec_allowed (.mwr space addr w) (runMwr .moe space addr w s) rfl rfl (by simp [h]), he]
  simp [hw, refuse]

theorem exec_mwr {space addr : Nat} {w : Word} {sp : Space} (he : elementOf .moe space addr = some sp)
    (hw : spaceWritable sp = true) :
    exec (.mwr space addr w) s = .next { writeElement .moe sp addr w s with respP := some ⟨.ok, []⟩ } := by
  have hp : (writeElement .moe sp addr w s).issuer = .p := by rw [writeElement_eq _ hw]; exact h
  rw [exec_allowed (.mwr space addr w) (runMwr .moe space addr w s) rfl rfl (by simp [h]), he, ← respond_of_p _ _ hp]
  simp [hw]

end PortP

/-- Settles O14. -/
theorem startAndStopMoveTheRunRequest : Obligations.StartAndStopMoveTheRunRequest := by
  unfold Obligations.StartAndStopMoveTheRunRequest
  exact fun s h => ⟨exec_start h, exec_stop h⟩

/-- Settles O16: the mask of each register is that of the map; a register with every bit defined keeps the operand. -/
theorem wrregWritesDefinedBits : Obligations.WrregWritesDefinedBits := by
  unfold Obligations.WrregWritesDefinedBits
  intro s w h
  have whole : w &&& 0xFFFFFFFF#32 = w := BitVec.and_allOnes
  refine ⟨exec_wrreg (r := .mode) h rfl (by decide), ?_, ?_, ?_, ?_, exec_wrreg (r := .selrow) h rfl (by decide),
    exec_wrreg (r := .ovlCtrl) h rfl (by decide), ?_, ?_⟩
  · rw [exec_wrreg (r := .marginH) h rfl (by decide)]; simp only [regWrite, definedBits, whole]
  · rw [exec_wrreg (r := .marginV) h rfl (by decide)]; simp only [regWrite, definedBits, whole]
  · rw [exec_wrreg (r := .spl) h rfl (by decide)]; simp only [regWrite, definedBits, whole]
  · rw [exec_wrreg (r := .hwm) h rfl (by decide)]; simp only [regWrite, definedBits, whole]
  · rw [exec_wrreg (r := .ovlPos) h rfl (by decide)]; simp only [regWrite, definedBits, whole]
  · rw [exec_wrreg (r := .ovlSize) h rfl (by decide)]; simp only [regWrite, definedBits, whole]

/-- Settles O31. -/
theorem pollsAnswerTheirFlags : Obligations.PollsAnswerTheirFlags := by
  unfold Obligations.PollsAnswerTheirFlags
  intro s h
  constructor
  · rw [exec_allowed .vstat (runVstat s) rfl rfl (by simp [h]), respond_of_p _ _ h]; rfl
  · rw [exec_allowed .xstat (runXstat s) rfl rfl (by simp [h]), respond_of_p _ _ h]
    cases s.xreq <;> cases s.xgnt <;> rfl

/-- Settles O30. -/
theorem publishSelectsThePendingSource : Obligations.PublishSelectsThePendingSource := by
  unfold Obligations.PublishSelectsThePendingSource
  intro s h
  refine ⟨fun idx hi => ?_, fun idx hi => ?_, fun idx hi => ?_, ?_⟩
  · have htag : tagSlot .moe idx s = { s with ls0 := ⟨BitVec.ofNat 16 idx, true⟩ } := if_pos hi
    rw [exec_allowed (.publ idx) (runPubl .moe idx s) rfl rfl (by simp [h]), htag]
    exact congrArg _ (respond_of_p _ _ h)
  · have htag : tagSlot .moe idx s = { s with ls1 := ⟨BitVec.ofNat 16 idx, true⟩ } :=
      if_neg (show ¬ idx % 2 = 0 by omega)
    rw [exec_allowed (.publ idx) (runPubl .moe idx s) rfl rfl (by simp [h]), htag]
    exact congrArg _ (respond_of_p _ _ h)
  · rw [exec_allowed (.pubf idx) (runPubf .moe idx s) rfl rfl (by simp [h]),
      if_neg (show ¬ Params.moe.fbBanks ≤ idx from Nat.not_le.2 hi)]
    exact congrArg _ (respond_of_p _ _ h)
  · rw [exec_allowed .pubt (runPubt s) rfl rfl (by simp [h])]; exact congrArg _ (respond_of_p _ _ h)

/-! #### The registers (10_state R50 to R69) -/

/-- A flag above the bits of a number adds its place value. -/
theorem ofNat_or_flagBit {a i : Nat} (b : Bool) (ha : a < 2 ^ i) :
    BitVec.ofNat 32 a ||| flagBit b i = BitVec.ofNat 32 (a + 2 ^ i * b.toNat) := by
  cases b with
  | false => simp [flagBit]
  | true =>
    have hor : a ||| 2 ^ i = a + 2 ^ i := by
      have h := Nat.two_pow_add_eq_or_of_lt ha 1
      rw [Nat.mul_one] at h
      rw [Nat.or_comm, ← h, Nat.add_comm]
    simp only [flagBit, if_true, Bool.toNat_true, Nat.mul_one]
    rw [← hor, ← BitVec.ofNat_or]

theorem flagBit_zero (b : Bool) : flagBit b 0 = BitVec.ofNat 32 b.toNat := by cases b <;> rfl

theorem seqCode_lt (q : Seq) : seqCode q < 4 := by cases q <;> decide

theorem sourceCode_lt (r : Source) : sourceCode r < 4 := by cases r <;> decide

theorem toNat_decide_mod_two (n : Nat) : (decide (n % 2 = 1)).toNat = n % 2 := by
  rcases Nat.mod_two_eq_zero_or_one n with h | h <;> simp [h]

theorem statusWord_eq (s : State) :
    statusWord s = BitVec.ofNat 32 (seqCode s.seq + 4 * s.vsync.toNat + 8 * s.busy.toNat + 16 * s.xreq.toNat +
      32 * s.xgnt.toNat + 64 * s.runReq.toNat + 128 * s.txRun.toNat + 256 * s.txIdle.toNat + 512 * s.ovlOk.toNat +
      1024 * s.diValid.toNat) := by
  have hq := seqCode_lt s.seq
  have h2 := s.vsync.toNat_le
  have h3 := s.busy.toNat_le
  have h4 := s.xreq.toNat_le
  have h5 := s.xgnt.toNat_le
  have h6 := s.runReq.toNat_le
  have h7 := s.txRun.toNat_le
  have h8 := s.txIdle.toNat_le
  have h9 := s.ovlOk.toNat_le
  rw [statusWord, ofNat_or_flagBit _ (by omega), ofNat_or_flagBit _ (by omega), ofNat_or_flagBit _ (by omega),
    ofNat_or_flagBit _ (by omega), ofNat_or_flagBit _ (by omega), ofNat_or_flagBit _ (by omega),
    ofNat_or_flagBit _ (by omega), ofNat_or_flagBit _ (by omega), ofNat_or_flagBit _ (by omega)]
  rfl

theorem setWidth_half_eq (w : Half) : w.setWidth 32 = BitVec.ofNat 32 w.toNat :=
  (BitVec.ofNat_toNat 32 w).symm

theorem lineWord_eq (s : State) : lineWord s = BitVec.ofNat 32 (s.ln.toNat + 65536 * s.vsync.toNat) := by
  rw [lineWord, setWidth_half_eq, ofNat_or_flagBit _ s.ln.isLt]
  rfl

theorem srcWord_eq (s : State) :
    srcWord s = BitVec.ofNat 32 (sourceCode s.act.src + 4 * sourceCode s.pend.src + 16 * (s.act.bank % 2) +
      32 * (s.pend.bank % 2)) := by
  have ha := sourceCode_lt s.act.src
  have hp := sourceCode_lt s.pend.src
  have hb := (decide (s.act.bank % 2 = 1)).toNat_le
  rw [srcWord, ofNat_or_flagBit _ (by omega), ofNat_or_flagBit _ (by omega), toNat_decide_mod_two,
    toNat_decide_mod_two]
  rfl

theorem lbstatWord_eq (s : State) :
    lbstatWord s = BitVec.ofNat 32 (s.lbWr.toNat + 2 * s.lbPub.toNat + 65536 * s.lbSeq.toNat) := by
  have hw := s.lbWr.toNat_le
  have hp := s.lbPub.toNat_le
  have hlow : s.lbWr.toNat + 2 ^ 1 * s.lbPub.toNat < 2 ^ 16 := by omega
  rw [lbstatWord, flagBit_zero, ofNat_or_flagBit _ (by omega), ← BitVec.ofNat_or, Nat.or_comm,
    Nat.mul_comm s.lbSeq.toNat]
  have hor := Nat.two_pow_add_eq_or_of_lt hlow s.lbSeq.toNat
  rw [show (65536 : Nat) = 2 ^ 16 from rfl, ← hor, Nat.add_comm]
  rfl

theorem lstagWord_eq (t : LsTag) : lstagWord t = BitVec.ofNat 32 (t.tag.toNat + 2147483648 * t.seen.toNat) := by
  have ht := t.tag.isLt
  rw [lstagWord, setWidth_half_eq, ofNat_or_flagBit _ (by omega)]
  rfl

/-- `FAULT` shows its one defined bit (10_state R52). -/
theorem fault_low_bit (w : Word) : w &&& 1#32 = BitVec.ofNat 32 (w.toNat % 2) := by
  have hbit : (w &&& 1#32).toNat = w.toNat % 2 := Nat.and_one_is_mod w.toNat
  rw [← hbit, BitVec.ofNat_toNat, BitVec.setWidth_eq]

/-- Settles O15: register by register. -/
theorem rdregReadsEveryRegister : Obligations.RdregReadsEveryRegister := by
  unfold Obligations.RdregReadsEveryRegister
  intro s h
  have read : ∀ {reg v : Nat} (r : Reg), regOf .moe reg = some r → regValue .moe s r = BitVec.ofNat 32 v →
      exec (.rdreg reg) s = .next { s with respP := some ⟨.ok, [BitVec.ofNat 32 v]⟩ } := fun r hr hv => by
    rw [exec_rdreg h hr, hv]
  have self : ∀ w : Word, w = BitVec.ofNat 32 w.toNat := fun w => by simp
  simp only [List.forall_mem_cons]
  exact ⟨read .status rfl (statusWord_eq s), read .fault rfl (fault_low_bit _), read .line rfl (lineWord_eq s),
    read .framecnt rfl (self _), read .mode rfl (self _), read .src rfl (srcWord_eq s), read .marginH rfl (self _),
    read .marginV rfl (self _), read .spl rfl (self _), read .acc rfl (self _), read .hwm rfl (self _),
    read .selrow rfl (self _), read .ovlCtrl rfl (self _), read .ovlPos rfl (self _), read .ovlSize rfl (self _),
    read .encstate rfl (BitVec.ofNat_toNat 32 _).symm, read .silidx rfl (BitVec.ofNat_toNat 32 _).symm,
    read .lbstat rfl (lbstatWord_eq s), read .lstag0 rfl (lstagWord_eq _), read .lstag1 rfl (lstagWord_eq _),
    read (.head 0) rfl rfl, read (.tail 0) rfl rfl, read (.head 1) rfl rfl, read (.tail 1) rfl rfl,
    read (.head 2) rfl rfl, read (.tail 2) rfl rfl, fun _ hx => absurd hx List.not_mem_nil⟩

/-! #### Fields that name nothing (R112 steps 4 to 5) -/

theorem regOf_eq_none {reg : Nat} (h0 : 0x14 ≤ reg) (h : reg < 0x20 ∨ 0x26 ≤ reg) : regOf .moe reg = none := by
  unfold regOf
  split <;> first | omega | exact if_pos h

theorem spaceOf_eq_none {space : Nat} (h : 7 ≤ space) : spaceOf space = none := by
  unfold spaceOf
  split <;> first | omega | rfl

theorem elementOf_of_no_space {space : Nat} (addr : Nat) (h : spaceOf space = none) :
    elementOf .moe space addr = none := by
  simp [elementOf, h]

theorem elementOf_inside {space addr : Nat} {sp : Space} (hs : spaceOf space = some sp)
    (ha : addr < spaceSize .moe sp) : elementOf .moe space addr = some sp := by
  simp [elementOf, hs, ha]

theorem elementOf_outside {space addr : Nat} {sp : Space} (hs : spaceOf space = some sp)
    (ha : spaceSize .moe sp ≤ addr) : elementOf .moe space addr = none := by
  simp [elementOf, hs, ha]

/-- A queue that does not exist is `RANGE` for every agent of the command's ports column. -/
theorem exec_queue_range {s : State} {q : Nat} (hq : 3 ≤ q) (w : Word) :
    (s.issuer ∈ portsOf (.push q w) → exec (.push q w) s = .next (respond .range [] s)) ∧
    (s.issuer ∈ portsOf (.pop q) → exec (.pop q) s = .next (respond .range [] s)) ∧
    (s.issuer ∈ portsOf (.free q) → exec (.free q) s = .next (respond .range [] s)) ∧
    (s.issuer ∈ portsOf (.used q) → exec (.used q) s = .next (respond .range [] s)) := by
  have hnq : Params.moe.nq ≤ q := hq
  refine ⟨fun h => ?_, fun h => ?_, fun h => ?_, fun h => ?_⟩
  · rw [exec_allowed (.push q w) (runPush .moe q w s) rfl rfl h, if_pos hnq, refuse]
  · rw [exec_allowed (.pop q) (runPop .moe q s) rfl rfl h, if_pos hnq, refuse]
  · rw [exec_allowed (.free q) (runFree .moe q s) rfl rfl h, if_pos hnq, refuse]
  · rw [exec_allowed (.used q) (runUsed .moe q s) rfl rfl h, if_pos hnq, refuse]

/-- Settles O11: what each field names, by the maps. -/
theorem rangeAndReadOnlyRefusals : Obligations.RangeAndReadOnlyRefusals := by
  unfold Obligations.RangeAndReadOnlyRefusals
  intro s w h
  refine ⟨fun reg h0 hreg => ?_, ?_, fun q hq => ?_, ?_, fun idx hi => ?_, fun space addr hs => ?_, ?_, ?_⟩
  · have hr := regOf_eq_none h0 hreg
    exact ⟨exec_rdreg_range h hr, exec_wrreg_range h hr⟩
  · have ro : ∀ {reg : Nat} (r : Reg), regOf .moe reg = some r → accessOf r = .ro →
        exec (.wrreg reg w) s = .next (respond .ro [] s) := fun _ hr ha => exec_wrreg_ro h hr ha
    simp only [List.forall_mem_cons]
    exact ⟨ro .status rfl rfl, ro .fault rfl rfl, ro .line rfl rfl, ro .framecnt rfl rfl, ro .src rfl rfl,
      ro .acc rfl rfl,
      ro .encstate rfl rfl, ro .silidx rfl rfl, ro .lbstat rfl rfl, ro .lstag0 rfl rfl, ro .lstag1 rfl rfl,
      ro (.head 0) rfl rfl, ro (.tail 0) rfl rfl, ro (.head 1) rfl rfl, ro (.tail 1) rfl rfl, ro (.head 2) rfl rfl,
      ro (.tail 2) rfl rfl, fun _ hx => absurd hx List.not_mem_nil⟩
  · obtain ⟨hpush, -, hfree, hused⟩ := exec_queue_range (s := s) hq w
    exact ⟨hpush (by simp [portsOf, h]), hfree (by simp [portsOf, h]), hused (by simp [portsOf, h])⟩
  · rw [exec_allowed (.push 0 w) (runPush .moe 0 w s) rfl rfl (by simp [h])]; rfl
  · rw [exec_allowed (.pubf idx) (runPubf .moe idx s) rfl rfl (by simp [h]),
      if_pos (show Params.moe.fbBanks ≤ idx from hi), refuse]
  · have he := elementOf_of_no_space addr (spaceOf_eq_none hs)
    exact ⟨exec_mrd_range h he, exec_mwr_range h he⟩
  · have range : ∀ {n size : Nat} (sp : Space), spaceOf n = some sp → spaceSize .moe sp = size → ∀ addr, size ≤ addr →
        exec (.mrd n addr) s = .next (respond .range [] s) ∧ exec (.mwr n addr w) s = .next (respond .range [] s) :=
      fun sp hn hsize addr ha => by
        have he := elementOf_outside hn (hsize.trans_le ha)
        exact ⟨exec_mrd_range h he, exec_mwr_range h he⟩
    simp only [List.forall_mem_cons]
    exact ⟨range .txt rfl rfl, range .fb rfl rfl, range .ls rfl rfl, range .ovl rfl rfl, range .lb rfl rfl,
      range .sil rfl rfl, range .font rfl rfl, fun _ hx => absurd hx List.not_mem_nil⟩
  · have ro : ∀ {n size : Nat} (sp : Space), spaceOf n = some sp → spaceSize .moe sp = size →
        spaceWritable sp = false → ∀ addr, addr < size → exec (.mwr n addr w) s = .next (respond .ro [] s) :=
      fun sp hn hsize hw addr ha => exec_mwr_ro h (elementOf_inside hn (ha.trans_eq hsize.symm)) hw
    simp only [List.forall_mem_cons]
    exact ⟨ro .lb rfl rfl rfl, ro .sil rfl rfl rfl, ro .font rfl rfl rfl, fun _ hx => absurd hx List.not_mem_nil⟩

/-- A consumer that neither owns nor watches a queue that exists is refused `PORT`. -/
theorem exec_queue_port {s : State} {q : Nat} (hq : q < 3) (hc : s.issuer = .c1 ∨ s.issuer = .c2)
    (hown : ownsPop s.issuer q = false) (hwatch : mayWatch s.issuer q = false) :
    exec (.pop q) s = .next (respond .port [] s) ∧ exec (.free q) s = .next (respond .port [] s) ∧
      exec (.used q) s = .next (respond .port [] s) := by
  have hnq : ¬ Params.moe.nq ≤ q := Nat.not_le.2 hq
  have hmem : s.issuer ∈ [Agent.c1, .c2] := by simpa using hc
  have hmem' : s.issuer ∈ [Agent.p, .c1, .c2] := List.mem_cons_of_mem _ hmem
  refine ⟨?_, ?_, ?_⟩
  · rw [exec_allowed (.pop q) (runPop .moe q s) rfl rfl hmem, if_neg hnq, if_pos hown, refuse]
  · rw [exec_allowed (.free q) (runFree .moe q s) rfl rfl hmem', if_neg hnq, if_pos hwatch, refuse]
  · rw [exec_allowed (.used q) (runUsed .moe q s) rfl rfl hmem', if_neg hnq, if_pos hwatch, refuse]

/-- Settles O12. -/
theorem consumersReachOnlyTheirQueue : Obligations.ConsumersReachOnlyTheirQueue := by
  unfold Obligations.ConsumersReachOnlyTheirQueue
  intro s own q h
  have hc : s.issuer = .c1 ∨ s.issuer = .c2 := h.imp And.left And.left
  constructor
  · intro hq
    obtain ⟨-, hpop, hfree, hused⟩ := exec_queue_range (s := s) hq 0#32
    rcases hc with hc | hc <;>
      exact ⟨hpop (by simp [portsOf, hc]), hfree (by simp [portsOf, hc]), hused (by simp [portsOf, hc])⟩
  · intro hq hne
    refine exec_queue_port hq hc ?_ ?_ <;> rcases h with ⟨h, rfl⟩ | ⟨h, rfl⟩ <;> simp [h, ownsPop, mayWatch, hne]

/-! #### Memory commands (44 R246, R247) -/

theorem spaceOf_stored : spaceOf 0 = some .txt ∧ spaceOf 1 = some .fb ∧ spaceOf 2 = some .ls ∧ spaceOf 3 = some .ovl ∧
    spaceOf 4 = some .lb := ⟨rfl, rfl, rfl, rfl, rfl⟩

/-- `MRD` of an element of a space: its value, or a free value that fits. -/
theorem exec_mrd {s : State} (h : s.issuer = .p) {space addr : Nat} {sp : Space} (hs : spaceOf space = some sp)
    (ha : addr < spaceSize .moe sp) :
    ∃ v d, exec (.mrd space addr) s = .next { s with draws := d, respP := some ⟨.ok, [v]⟩ } ∧
      (∀ x, elementValue .moe s sp addr = some x → v = x ∧ d = s.draws) ∧
      (elementValue .moe s sp addr = none → v.toNat < 2 ^ spaceWidth .moe sp) := by
  have he := elementOf_inside hs ha
  cases hv : elementValue .moe s sp addr with
  | some v => exact ⟨v, s.draws, exec_mrd_value h he hv, fun x hx => ⟨Option.some.inj hx, rfl⟩, fun hn => by cases hn⟩
  | none => exact ⟨_, _, exec_mrd_drawn h he hv, fun x hx => (by cases hx), fun _ => trunc_lt _ _⟩

/-- Settles O17: a stored element, a word of the silence table, a glyph row. -/
theorem mrdAnswersTheElement : Obligations.MrdAnswersTheElement := by
  unfold Obligations.MrdAnswersTheElement
  intro s addr h
  refine ⟨?_, fun i k hi => ?_, fun ch gy hch hgy => ?_⟩
  · simp only [List.forall_mem_cons]
    exact ⟨fun ha => exec_mrd (sp := .txt) h rfl ha, fun ha => exec_mrd (sp := .fb) h rfl ha,
      fun ha => exec_mrd (sp := .ls) h rfl ha, fun ha => exec_mrd (sp := .ovl) h rfl ha,
      fun ha => exec_mrd (sp := .lb) h rfl ha, fun _ hx => absurd hx List.not_mem_nil⟩
  · have hk := k.isLt
    have hdiv : (36 * i + k.val) / islWords = i := by unfold islWords; omega
    have hmod : (36 * i + k.val) % islWords = k.val := by unfold islWords; omega
    refine exec_mrd_value (sp := .sil) h (elementOf_inside rfl (show 36 * i + k.val < 1728 by omega)) ?_
    rw [elementValue, hdiv, hmod, List.getD_eq_getElem?_getD, List.getElem?_eq_getElem (by simp), Option.getD_some]
    rfl
  · have hdiv : (8 * ch + gy) / Params.moe.gh = ch := show (8 * ch + gy) / 8 = ch by omega
    have hmod : (8 * ch + gy) % Params.moe.gh = gy := show (8 * ch + gy) % 8 = gy by omega
    refine exec_mrd_value (sp := .font) h (elementOf_inside rfl (show 8 * ch + gy < 2048 by omega)) ?_
    rw [elementValue, hdiv, hmod]
    rfl

theorem trunc_32 (w : Word) : trunc 32 w = w := by
  rw [trunc, Nat.mod_eq_of_lt w.isLt, BitVec.ofNat_toNat, BitVec.setWidth_eq]

theorem trunc_16 (w : Word) : trunc 16 w = w &&& 0xFFFF#32 := by
  apply BitVec.eq_of_toNat_eq
  have hmask : (w &&& 0xFFFF#32).toNat = w.toNat % 2 ^ 16 := Nat.and_two_pow_sub_one_eq_mod w.toNat 16
  rw [hmask, trunc, BitVec.toNat_ofNat]
  omega

/-- Settles O18: each writable space's element, and every other element of it. -/
theorem mwrStoresOneElement : Obligations.MwrStoresOneElement := by
  unfold Obligations.MwrStoresOneElement
  intro s addr w h
  have frame : ∀ (m : Mem Word) (v : Word) (a : Nat), a ≠ addr → memRead (memWrite m addr v) a = memRead m a :=
    fun m v a ha => by rw [memRead_memWrite, if_neg (Ne.symm ha)]
  have raced : ∀ sp, (noteRace s sp addr).raced =
      if s.busy then ⟨sp, addr, memRead (storeOf s sp) addr⟩ :: s.raced else s.raced := fun sp => by
    unfold noteRace; split <;> rfl
  refine ⟨fun ha => ⟨memWrite s.txt addr w, ?_, memRead_memWrite_same .., frame _ _⟩,
    fun ha => ⟨memWrite s.fb addr (w &&& 0xFFFF#32), ?_, memRead_memWrite_same .., frame _ _⟩,
    fun ha => ⟨memWrite s.ls addr (w &&& 0xFFFF#32), ?_, memRead_memWrite_same .., frame _ _⟩,
    fun ha => ⟨memWrite s.ovl addr (w &&& 0xFFFF#32), ?_, memRead_memWrite_same .., frame _ _⟩⟩
  · rw [exec_mwr h (elementOf_inside (sp := .txt) rfl ha) rfl, writeElement_eq _ rfl, raced,
      show spaceWidth .moe .txt = 32 from rfl, trunc_32]
    rfl
  · rw [exec_mwr h (elementOf_inside (sp := .fb) rfl ha) rfl, writeElement_eq _ rfl, raced, ← trunc_16]
    rfl
  · rw [exec_mwr h (elementOf_inside (sp := .ls) rfl ha) rfl, writeElement_eq _ rfl, raced, ← trunc_16]
    rfl
  · rw [exec_mwr h (elementOf_inside (sp := .ovl) rfl ha) rfl, writeElement_eq _ rfl, raced, ← trunc_16]
    rfl

/-! #### Ring buffer and multiplexer (40 R134 to R137; 42 R195 to R198) -/

section PortP
variable {s : State} (h : s.issuer = .p) (w : Word)
include h

/-- `PUSH` with room, and full, on the two queues port P may push to. -/
theorem exec_push1 :
    exec (.push 1 w) s = .next (pushInto 1024 32 s.q1 w (fun r => { s with q1 := r }) s) := by
  rw [exec_allowed (.push 1 w) (runPush .moe 1 w s) rfl rfl (by simp [h])]; rfl

theorem exec_push2 :
    exec (.push 2 w) s = .next (pushInto 1024 32 s.q2 w (fun r => { s with q2 := r }) s) := by
  rw [exec_allowed (.push 2 w) (runPush .moe 2 w s) rfl rfl (by simp [h])]; rfl

end PortP

theorem pushInto_room {n : Nat} {r : Ring Word} {w : Word} {store : Ring Word → State} {s : State}
    (h : (r.head + 1) % n ≠ r.tail) :
    pushInto n 32 r w store s = respond .ok [] (store ⟨(r.head + 1) % n, r.tail, memWrite r.buf r.head w⟩) := by
  simp [pushInto, rbPush, h, trunc_32]

theorem pushInto_full {n : Nat} {r : Ring Word} {w : Word} {store : Ring Word → State} {s : State}
    (h : (r.head + 1) % n = r.tail) : pushInto n 32 r w store s = respond .full [] s := by
  simp [pushInto, rbPush, h]

/-- A write leaves every other element. -/
theorem memRead_memWrite_other {α : Type} (m : Mem α) {a k : Nat} (v : α) (h : k ≠ a) :
    memRead (memWrite m a v) k = memRead m k := by
  rw [memRead_memWrite, if_neg (Ne.symm h)]

/-- Settles O19. -/
theorem pushStoresOrAnswersFull : Obligations.PushStoresOrAnswersFull := by
  unfold Obligations.PushStoresOrAnswersFull
  intro s w h
  refine ⟨fun hroom => ⟨memWrite s.q1.buf s.q1.head w, ?_, memRead_memWrite_same .., fun k hk =>
      memRead_memWrite_other _ _ hk⟩, fun hfull => ?_,
    fun hroom => ⟨memWrite s.q2.buf s.q2.head w, ?_, memRead_memWrite_same .., fun k hk =>
      memRead_memWrite_other _ _ hk⟩, fun hfull => ?_⟩
  · rw [exec_push1 h, pushInto_room hroom]; exact congrArg _ (respond_of_p _ _ h)
  · rw [exec_push1 h, pushInto_full hfull, respond_of_p _ _ h]
  · rw [exec_push2 h, pushInto_room hroom]; exact congrArg _ (respond_of_p _ _ h)
  · rw [exec_push2 h, pushInto_full hfull, respond_of_p _ _ h]

theorem exec_pop1 {s : State} (h : s.issuer = .c1) :
    exec (.pop 1) s = .next (popFrom .moe 1024 32 s.q1 (fun r => { s with q1 := r }) s) := by
  rw [exec_allowed (.pop 1) (runPop .moe 1 s) rfl rfl (by simp [h]), if_neg (by decide), if_neg (by simp [h, ownsPop])]
  rfl

theorem exec_pop2 {s : State} (h : s.issuer = .c2) :
    exec (.pop 2) s = .next (popFrom .moe 1024 32 s.q2 (fun r => { s with q2 := r }) s) := by
  rw [exec_allowed (.pop 2) (runPop .moe 2 s) rfl rfl (by simp [h]), if_neg (by decide), if_neg (by simp [h, ownsPop])]
  rfl

/-- `POP` of a queue that is not empty: the oldest element, or a free value where the slot was never written. -/
theorem popFrom_waiting {P : Params} {n width : Nat} {r : Ring Word} {store : Ring Word → State} {s : State}
    (hd : ∀ r', (store r').draws = s.draws) (h : r.head ≠ r.tail) :
    ∃ v d, popFrom P n width r store s = respond .ok [v] { store ⟨r.head, (r.tail + 1) % n, r.buf⟩ with draws := d } ∧
      ∀ x, memRead r.buf r.tail = some x → v = x ∧ d = s.draws := by
  unfold popFrom rbPop
  rw [if_neg h]
  cases hv : memRead r.buf r.tail with
  | some v =>
    refine ⟨v, s.draws, ?_, fun x hx => ⟨Option.some.inj hx, rfl⟩⟩
    rw [← hd ⟨r.head, (r.tail + 1) % n, r.buf⟩]
  | none => exact ⟨_, _, rfl, fun x hx => by cases hx⟩

theorem popFrom_empty {P : Params} {n width : Nat} {r : Ring Word} {store : Ring Word → State} {s : State}
    (h : r.head = r.tail) : popFrom P n width r store s = respond .empty [] s := by
  simp [popFrom, rbPop, h]

/-- Settles O20. -/
theorem popTakesOrAnswersEmpty : Obligations.PopTakesOrAnswersEmpty := by
  unfold Obligations.PopTakesOrAnswersEmpty
  refine fun s => ⟨fun h hne => ?_, fun h heq => ?_, fun h hne => ?_, fun h heq => ?_⟩
  · obtain ⟨v, d, hpop, hv⟩ := popFrom_waiting (P := .moe) (n := 1024) (width := 32)
      (store := fun r => { s with q1 := r }) (fun _ => rfl) hne
    exact ⟨v, d, by rw [exec_pop1 h, hpop]; exact congrArg _ (respond_of_c1 _ _ h), hv⟩
  · rw [exec_pop1 h, popFrom_empty heq, respond_of_c1 _ _ h]
  · obtain ⟨v, d, hpop, hv⟩ := popFrom_waiting (P := .moe) (n := 1024) (width := 32)
      (store := fun r => { s with q2 := r }) (fun _ => rfl) hne
    exact ⟨v, d, by rw [exec_pop2 h, hpop]; exact congrArg _ (respond_of_c2 _ _ h), hv⟩
  · rw [exec_pop2 h, popFrom_empty heq, respond_of_c2 _ _ h]

/-- `USED` and `FREE` of a queue the agent may watch. -/
theorem exec_used_free {s : State} {q : Nat} (hq : q < 3) (hmem : s.issuer ∈ [Agent.p, .c1, .c2])
    (hwatch : mayWatch s.issuer q = true) :
    exec (.used q) s = .next (respond .ok [BitVec.ofNat 32 (ringUsed .moe s q)] s) ∧
    exec (.free q) s = .next (respond .ok [BitVec.ofNat 32 (Params.moe.rbN q - 1 - ringUsed .moe s q)] s) := by
  have hnq : ¬ Params.moe.nq ≤ q := Nat.not_le.2 hq
  have hw : ¬ mayWatch s.issuer q = false := by simp [hwatch]
  constructor
  · rw [exec_allowed (.used q) (runUsed .moe q s) rfl rfl hmem, if_neg hnq, if_neg hw]
  · rw [exec_allowed (.free q) (runFree .moe q s) rfl rfl hmem, if_neg hnq, if_neg hw]

theorem occupied_eq_sub {α : Type} {n : Nat} {r : Ring α} (ht : r.tail < n) :
    occupied n r = (r.head + n - r.tail) % n := by
  rw [occupied, Nat.add_sub_assoc ht.le]

/-- Settles O21. -/
theorem usedAndFreeAddUp : Obligations.UsedAndFreeAddUp := by
  unfold Obligations.UsedAndFreeAddUp
  intro s h0 h1 h2
  have answer : ∀ {n : Nat} (q : Nat), q < 3 → 0 < n → Params.moe.rbN q = n → ∀ u, ringUsed .moe s q = u → u < n →
      (s.issuer = .p ∨ s.issuer = .c1 ∧ q = 1 ∨ s.issuer = .c2 ∧ q = 2) →
      ∃ u' f, u' = u ∧ u' + f = n - 1 ∧ exec (.used q) s = .next (respond .ok [BitVec.ofNat 32 u'] s) ∧
        exec (.free q) s = .next (respond .ok [BitVec.ofNat 32 f] s) := by
    intro n q hq hn hN u hu hlt hw
    have hmem : s.issuer ∈ [Agent.p, .c1, .c2] := by rcases hw with h | ⟨h, -⟩ | ⟨h, -⟩ <;> simp [h]
    have hwatch : mayWatch s.issuer q = true := by rcases hw with h | ⟨h, hq⟩ | ⟨h, hq⟩ <;> simp [mayWatch, *]
    obtain ⟨hused, hfree⟩ := exec_used_free hq hmem hwatch
    rw [hu] at hused
    rw [hu, hN] at hfree
    exact ⟨u, n - 1 - u, rfl, by omega, hused, hfree⟩
  exact List.forall_mem_cons.2 ⟨answer 0 (by decide) (by decide) rfl _ (occupied_eq_sub h0) (Nat.mod_lt _ (by decide)),
    List.forall_mem_cons.2 ⟨answer 1 (by decide) (by decide) rfl _ (occupied_eq_sub h1) (Nat.mod_lt _ (by decide)),
    List.forall_mem_cons.2 ⟨answer 2 (by decide) (by decide) rfl _ (occupied_eq_sub h2) (Nat.mod_lt _ (by decide)),
    fun _ hx => absurd hx List.not_mem_nil⟩⟩⟩

theorem exec_tick {s : State} (h : s.issuer = .seq) :
    exec .tick s = .next { s with acc := s.acc + s.act.spl, respS := some ⟨.ok, []⟩ } := by
  rw [exec_allowed .tick (runTick s) rfl rfl (by simp [h])]; exact congrArg _ (respond_of_seq _ _ h)

/-- Settles O24. -/
theorem tickAdvancesTheAccumulator : Obligations.TickAdvancesTheAccumulator := by
  unfold Obligations.TickAdvancesTheAccumulator
  intro s h
  have hadd : s.acc + s.act.spl = BitVec.ofNat 32 ((s.acc.toNat + s.act.spl.toNat) % 2 ^ 32) :=
    BitVec.eq_of_toNat_eq (by simp [BitVec.toNat_add])
  rw [exec_tick h, hadd]

theorem exec_pkt_notDue {s : State} (h : s.issuer = .seq) (hd : ¬ thresh ≤ s.acc) :
    exec .pkt s = .next { s with diValid := false, respS := some ⟨.notDue, []⟩ } := by
  rw [exec_allowed .pkt (runPkt .moe s) rfl rfl (by simp [h]), if_neg hd]; exact congrArg _ (respond_of_seq _ _ h)

theorem exec_pkt_due {s : State} (h : s.issuer = .seq) (hd : thresh ≤ s.acc) :
    let t := fetchIsland .moe { s with acc := s.acc - thresh, diValid := true }
    exec .pkt s = .next { t with respS := some ⟨.ok, t.diOut.toList⟩ } := by
  intro t
  have ht : t.issuer = .seq := h ▸ congrArg (·.1) (fetchIsland_boundary .moe _).1
  rw [exec_allowed .pkt (runPkt .moe s) rfl rfl (by simp [h]), if_pos hd, ← respond_of_seq _ _ ht]

theorem thresh_le_iff (w : Word) : thresh ≤ w ↔ 0x40000 ≤ w.toNat := BitVec.le_def

theorem sub_thresh {w : Word} (h : 0x40000 ≤ w.toNat) : w - thresh = BitVec.ofNat 32 (w.toNat - 0x40000) := by
  have hle : thresh ≤ w := (thresh_le_iff w).2 h
  apply BitVec.eq_of_toNat_eq
  have hw := w.isLt
  rw [BitVec.toNat_sub_of_le hle, BitVec.toNat_ofNat, Nat.mod_eq_of_lt (by omega)]
  rfl

/-- Settles O25. -/
theorem pktEmitsWhenDue : Obligations.PktEmitsWhenDue := by
  unfold Obligations.PktEmitsWhenDue
  intro s h
  refine ⟨fun hlow => exec_pkt_notDue h (fun hle => absurd ((thresh_le_iff _).1 hle) (by omega)), fun hdue hne => ?_,
    fun hdue heq => ?_⟩
  · rw [← sub_thresh hdue, exec_pkt_due h ((thresh_le_iff _).2 hdue)]
    rcases fetchIsland_cases .moe { s with acc := s.acc - thresh, diValid := true } with
      ⟨hq, -⟩ | ⟨-, isl, hisl, hf⟩ | ⟨-, hisl, hf⟩
    · exact absurd hq hne
    · refine ⟨isl, s.draws, ?_, fun x hx => ⟨Option.some.inj (hisl.symm.trans hx), rfl⟩⟩
      rw [hf]; rfl
    · refine ⟨drawIsland .moe s.draws, s.draws + islWords, ?_, fun x hx => absurd (hisl.symm.trans hx) nofun⟩
      rw [hf]; rfl
  · rw [← sub_thresh hdue, exec_pkt_due h ((thresh_le_iff _).2 hdue)]
    rcases fetchIsland_cases .moe { s with acc := s.acc - thresh, diValid := true } with ⟨-, hf⟩ | ⟨hne, -⟩ | ⟨hne, -⟩
    · exact ⟨_, rfl, by rw [hf]; rfl⟩
    · exact absurd heq hne
    · exact absurd heq hne

/-- What `AENQ` does, case by case (42 R198). -/
theorem exec_aenq_hwm {s : State} (h : s.issuer = .p) {w0 w1 w2 w3 : Word} (hw : s.hwm.toNat ≤ occupied 256 s.q0) :
    exec (.aenq w0 w1 w2 w3) s = .next { s with respP := some ⟨.hwm, []⟩ } := by
  rw [exec_allowed (.aenq w0 w1 w2 w3) (runAenq .moe w0 w1 w2 w3 s) rfl rfl (by simp [h]),
    if_pos (show s.hwm.toNat ≤ occupied (Params.moe.rbN 0) s.q0 from hw),
    respond_of_p _ _ h]

theorem exec_aenq_full {s : State} (h : s.issuer = .p) {w0 w1 w2 w3 : Word} (hw : occupied 256 s.q0 < s.hwm.toNat)
    (hfull : (s.q0.head + 1) % 256 = s.q0.tail) :
    exec (.aenq w0 w1 w2 w3) s = .next { s with respP := some ⟨.full, []⟩ } := by
  have hpush : rbPush (Params.moe.rbN 0) s.q0 (Params.moe.encoder.enc w0 w1 w2 w3 s.encEs.toNat) = none := if_pos hfull
  rw [exec_allowed (.aenq w0 w1 w2 w3) (runAenq .moe w0 w1 w2 w3 s) rfl rfl (by simp [h]),
    if_neg (show ¬ s.hwm.toNat ≤ occupied (Params.moe.rbN 0) s.q0 from Nat.not_le.2 hw), hpush]
  exact congrArg _ (respond_of_p _ _ h)

theorem exec_aenq_room {s : State} (h : s.issuer = .p) {w0 w1 w2 w3 : Word} (hw : occupied 256 s.q0 < s.hwm.toNat)
    (hroom : (s.q0.head + 1) % 256 ≠ s.q0.tail) :
    exec (.aenq w0 w1 w2 w3) s = .next { s with
      q0 := ⟨(s.q0.head + 1) % 256, s.q0.tail,
        memWrite s.q0.buf s.q0.head (Config.encoder.enc w0 w1 w2 w3 s.encEs.toNat)⟩
      encEs := countMod 48 s.encEs, respP := some ⟨.ok, []⟩ } := by
  have hpush : rbPush (Params.moe.rbN 0) s.q0 (Params.moe.encoder.enc w0 w1 w2 w3 s.encEs.toNat) =
    some ⟨(s.q0.head + 1) % 256, s.q0.tail,
      memWrite s.q0.buf s.q0.head (Config.encoder.enc w0 w1 w2 w3 s.encEs.toNat)⟩ := if_neg hroom
  rw [exec_allowed (.aenq w0 w1 w2 w3) (runAenq .moe w0 w1 w2 w3 s) rfl rfl (by simp [h]),
    if_neg (show ¬ s.hwm.toNat ≤ occupied (Params.moe.rbN 0) s.q0 from Nat.not_le.2 hw), hpush]
  exact congrArg _ (respond_of_p _ _ h)

/-- Settles O26: the samples and the flag are laws E2 and E3 of the encoder. -/
theorem aenqQueuesAnIsland : Obligations.AenqQueuesAnIsland := by
  unfold Obligations.AenqQueuesAnIsland
  intro s w0 w1 w2 w3 h
  exact ⟨exec_aenq_hwm h, exec_aenq_full h, fun hw hroom => ⟨_, exec_aenq_room h hw hroom, memRead_memWrite_same ..,
      fun k hk => memRead_memWrite_other _ _ hk⟩,
    fun hes => ⟨Config.encoder.flag_enc _ _ _ _ _ hes (by omega), Config.encoder.dec_enc _ _ _ _ _ hes (by omega)⟩⟩

end Sys2Proof.Machine
end

section
/-! PROOFS. Queues: a sound ring buffer is a bounded queue (40_ring_buffer R138), and the traffic through the three of them
keeps its order (R138 d, e; 42_av_multiplexer R201, R205). -/

namespace Sys2Proof.Machine

/-! ### A ring buffer as a queue -/

section Ring
variable {α : Type} {n : Nat} {r : Ring α}

theorem ringItems_length : (ringItems n r).length = occupied n r := by simp [ringItems]

/-- The index after an index below N. -/
theorem succ_mod_eq {i : Nat} (h : i < n) : (i + 1) % n = if i + 1 = n then 0 else i + 1 := by
  split
  · next heq => rw [heq, Nat.mod_self]
  · exact Nat.mod_eq_of_lt (by omega)

/-- Full is N - 1 waiting (R138 c). -/
theorem full_iff (hh : r.head < n) (ht : r.tail < n) : (r.head + 1) % n = r.tail ↔ occupied n r = n - 1 := by
  rw [succ_mod_eq hh, occupied_eq hh ht]
  split <;> split <;> omega

theorem occupied_after_push (hh : r.head < n) (ht : r.tail < n) (hroom : (r.head + 1) % n ≠ r.tail) (b : Mem α) :
    occupied n { head := (r.head + 1) % n, tail := r.tail, buf := b : Ring α } = occupied n r + 1 := by
  have hnew := occupied_eq (r := ⟨(r.head + 1) % n, r.tail, b⟩) (Nat.mod_lt _ (by omega)) ht
  rw [hnew, occupied_eq hh ht]
  rw [succ_mod_eq hh] at hroom
  simp only [succ_mod_eq hh]
  by_cases hwrap : r.head + 1 = n <;> simp only [hwrap, if_true, if_false] at hroom ⊢ <;> split <;> split <;> omega

theorem occupied_before_pop (hh : r.head < n) (ht : r.tail < n) (hne : r.head ≠ r.tail) :
    occupied n r = occupied n { head := r.head, tail := (r.tail + 1) % n, buf := r.buf : Ring α } + 1 := by
  have hnew := occupied_eq (r := ⟨r.head, (r.tail + 1) % n, r.buf⟩) hh (Nat.mod_lt _ (by omega))
  rw [hnew, occupied_eq hh ht]
  simp only [succ_mod_eq ht]
  by_cases hwrap : r.tail + 1 = n <;> simp only [hwrap, if_true, if_false] <;> split <;> split <;> omega

/-- No waiting element stands in the slot of the head. -/
theorem waiting_slot_ne_head (hh : r.head < n) (ht : r.tail < n) {k : Nat} (hk : k < occupied n r) :
    (r.tail + k) % n ≠ r.head := by
  have hlt := occupied_lt (by omega) r (n := n)
  rw [slot_eq ht (by omega)]
  rw [occupied_eq hh ht] at hk
  split at hk <;> split <;> omega

/-- The slots behind the tail, seen from the tail after it. -/
theorem slot_after_pop (k : Nat) : ((r.tail + 1) % n + k) % n = (r.tail + (k + 1)) % n := by
  rw [Nat.mod_add_mod, Nat.add_assoc, Nat.add_comm 1 k]

/-- A push that finds room keeps the buffer sound and appends its element. -/
theorem RingSound.push (h : RingSound n r) (x : α) (hroom : (r.head + 1) % n ≠ r.tail) :
    RingSound n { head := (r.head + 1) % n, tail := r.tail, buf := memWrite r.buf r.head x } ∧
      ringItems n { head := (r.head + 1) % n, tail := r.tail, buf := memWrite r.buf r.head x } =
        ringItems n r ++ [some x] := by
  obtain ⟨hh, ht, hwf, hslots, hwritten⟩ := h
  have hocc := occupied_after_push hh ht hroom (memWrite r.buf r.head x)
  have hnew : memRead (memWrite r.buf r.head x) ((r.tail + occupied n r) % n) = some x := by
    rw [slot_occupied hh ht, memRead_memWrite_same]
  have hold : ∀ k, k < occupied n r →
      memRead (memWrite r.buf r.head x) ((r.tail + k) % n) = memRead r.buf ((r.tail + k) % n) :=
    fun k hk => memRead_memWrite_other _ _ (waiting_slot_ne_head hh ht hk)
  refine ⟨⟨Nat.mod_lt _ (by omega), ht, memWrite_wf _ _ hwf, ?_, ?_⟩, ?_⟩
  · intro y hy
    rcases mem_memWrite hy with rfl | hy
    · exact hh
    · exact hslots y hy
  · intro k hk
    rw [hocc] at hk
    rcases Nat.lt_succ_iff_lt_or_eq.1 hk with hk | rfl
    · exact (congrArg Option.isSome (hold k hk)).trans (hwritten k hk)
    · exact congrArg Option.isSome hnew
  · unfold ringItems
    rw [hocc, List.range_succ, List.map_append, List.map_singleton, hnew]
    congr 1
    exact List.map_congr_left fun k hk => hold k (List.mem_range.1 hk)

/-- A pop that finds an element keeps the buffer sound and takes the oldest. -/
theorem RingSound.pop (h : RingSound n r) (hne : r.head ≠ r.tail) :
    RingSound n { head := r.head, tail := (r.tail + 1) % n, buf := r.buf } ∧ (memRead r.buf r.tail).isSome = true ∧
      ringItems n r = memRead r.buf r.tail :: ringItems n { head := r.head, tail := (r.tail + 1) % n, buf := r.buf } := by
  obtain ⟨hh, ht, hwf, hslots, hwritten⟩ := h
  have hocc := occupied_before_pop hh ht hne
  have htail : (r.tail + 0) % n = r.tail := Nat.mod_eq_of_lt ht
  refine ⟨⟨hh, Nat.mod_lt _ (by omega), hwf, hslots, fun k hk => ?_⟩, ?_, ?_⟩
  · rw [slot_after_pop]
    exact hwritten (k + 1) (by rw [hocc]; exact Nat.succ_lt_succ hk)
  · have h0 := hwritten 0 (by omega)
    rwa [htail] at h0
  · unfold ringItems
    rw [hocc, List.range_succ_eq_map, List.map_cons, List.map_map, htail]
    congr 1
    exact List.map_congr_left fun k _ => by simp only [Function.comp_apply, slot_after_pop]

theorem RingSound.rbPush {r' : Ring α} {x : α} (h : RingSound n r) (hp : rbPush n r x = some r') :
    RingSound n r' ∧ ringItems n r' = ringItems n r ++ [some x] ∧ r'.tail = r.tail := by
  rcases rbPush_cases n r x with ⟨-, he⟩ | ⟨hroom, he⟩ <;> rw [he] at hp <;> cases hp
  obtain ⟨hsound, hitems⟩ := h.push x hroom
  exact ⟨hsound, hitems, rfl⟩

theorem RingSound.rbPop {r' : Ring α} {o : Option α} (h : RingSound n r) (hp : rbPop n r = some (o, r')) :
    RingSound n r' ∧ o.isSome = true ∧ ringItems n r = o :: ringItems n r' := by
  rcases rbPop_cases n r with ⟨-, he⟩ | ⟨hne, he⟩ <;> rw [he] at hp <;> cases hp
  exact h.pop hne

theorem ringItems_eq_nil_iff (hh : r.head < n) (ht : r.tail < n) : ringItems n r = [] ↔ r.head = r.tail := by
  rw [← List.length_eq_zero_iff, ringItems_length, occupied_eq_zero hh ht]

end Ring

/-- Settles O22. -/
theorem ringBufferIsAQueue : Obligations.RingBufferIsAQueue := by
  unfold Obligations.RingBufferIsAQueue
  intro α n r x _ h
  refine ⟨?_, fun r' hp => ?_, ?_, fun o r' hp => h.rbPop hp⟩
  · rw [ringItems_length, ← full_iff h.head_lt h.tail_lt]
    rcases rbPush_cases n r x with ⟨hfull, he⟩ | ⟨hroom, he⟩ <;> simp [*]
  · obtain ⟨hsound, hitems, -⟩ := h.rbPush hp
    exact ⟨hsound, hitems⟩
  · rw [ringItems_eq_nil_iff h.head_lt h.tail_lt]
    rcases rbPop_cases n r with ⟨heq, he⟩ | ⟨hne, he⟩ <;> simp [*]

/-! ### Traffic through queues 1 and 2 -/

/-- What `PUSH` does to a ring and answers: it fails, or the element goes in (R134). -/
def PushAnswer (ring : State → Ring Word) (w : Word) (s t : State) : Prop :=
  (ring t = ring s ∧ okValues (respOf t .p) = none) ∨
    (rbPush 1024 (ring s) w = some (ring t) ∧ okValues (respOf t .p) = some [])

/-- What `POP` does to a ring and answers: it fails, or the oldest element goes out (R135). -/
def PopAnswer (consumer : Agent) (ring : State → Ring Word) (s t : State) : Prop :=
  (ring t = ring s ∧ okValues (respOf t consumer) = none) ∨
    ∃ v, rbPop 1024 (ring s) = some (some v, ring t) ∧ okValues (respOf t consumer) = some [v]

/-- The two commands of a queue, as far as its ring and the answers go. -/
structure QueueStep (q : Nat) (consumer : Agent) (ring : State → Ring Word) : Prop where
  push : ∀ s w, PushAnswer ring w s (nextOr (exec (.push q w) { s with issuer := .p }) s)
  pop : ∀ s, RingSound 1024 (ring s) → PopAnswer consumer ring s (nextOr (exec (.pop q) { s with issuer := consumer }) s)

/-- `PUSH` fails on a full ring, and stores otherwise. -/
theorem pushInto_elim {C : State → Prop} {n : Nat} {r : Ring Word} {w : Word} {store : Ring Word → State} {s : State}
    (full : rbPush n r w = none → C (respond .full [] s))
    (room : ∀ r', rbPush n r w = some r' → C (respond .ok [] (store r'))) : C (pushInto n 32 r w store s) := by
  unfold pushInto
  rw [trunc_32]
  cases h : rbPush n r w with
  | none => exact full h
  | some r' => exact room r' h

/-- `POP` fails on an empty ring, and answers the oldest element of a sound one otherwise. -/
theorem popFrom_elim {C : State → Prop} {P : Params} {n width : Nat} {r : Ring Word} {store : Ring Word → State}
    {s : State} (hs : RingSound n r) (empty : rbPop n r = none → C (respond .empty [] s))
    (some : ∀ v r', rbPop n r = some (some v, r') → C (respond .ok [v] (store r'))) :
    C (popFrom P n width r store s) := by
  unfold popFrom
  rcases h : rbPop n r with _ | ⟨_ | v, r'⟩
  · exact empty h
  · exact absurd (hs.rbPop h).2.1 (by decide)
  · exact some v r' h

theorem queueStep_one : QueueStep 1 .c1 State.q1 where
  push s w := by
    rw [exec_push1 (s := { s with issuer := .p }) rfl]
    exact pushInto_elim (C := PushAnswer State.q1 w s) (fun _ => .inl ⟨rfl, rfl⟩) fun r' h => .inr ⟨h, rfl⟩
  pop s hs := by
    rw [exec_pop1 (s := { s with issuer := .c1 }) rfl]
    exact popFrom_elim (C := PopAnswer .c1 State.q1 s) hs (fun _ => .inl ⟨rfl, rfl⟩) fun v r' h => .inr ⟨v, h, rfl⟩

theorem queueStep_two : QueueStep 2 .c2 State.q2 where
  push s w := by
    rw [exec_push2 (s := { s with issuer := .p }) rfl]
    exact pushInto_elim (C := PushAnswer State.q2 w s) (fun _ => .inl ⟨rfl, rfl⟩) fun r' h => .inr ⟨h, rfl⟩
  pop s hs := by
    rw [exec_pop2 (s := { s with issuer := .c2 }) rfl]
    exact popFrom_elim (C := PopAnswer .c2 State.q2 s) hs (fun _ => .inl ⟨rfl, rfl⟩) fun v r' h => .inr ⟨v, h, rfl⟩

/-- What waits before some traffic and what is pushed in it are what is popped in it and what waits after it. -/
theorem queueRun_fifo {q : Nat} {consumer : Agent} {ring : State → Ring Word} (step : QueueStep q consumer ring)
    (ops : List QueueOp) (s : State) (hs : RingSound 1024 (ring s)) :
    ringItems 1024 (ring s) ++ (queueRun q consumer ops s).pushed.map some =
      (queueRun q consumer ops s).popped.map some ++ ringItems 1024 (ring (queueRun q consumer ops s).after) := by
  induction ops generalizing s with
  | nil => simp [queueRun]
  | cons op ops ih =>
    cases op with
    | push w =>
      simp only [queueRun]
      rcases step.push s w with ⟨hring, hresp⟩ | ⟨hpush, hresp⟩ <;> rw [hresp]
      · have ht := ih _ (hring ▸ hs)
        rwa [hring] at ht
      · obtain ⟨hsound, hitems, -⟩ := hs.rbPush hpush
        have ht := ih _ hsound
        rw [hitems] at ht
        simpa using ht
    | pop =>
      simp only [queueRun]
      rcases step.pop s hs with ⟨hring, hresp⟩ | ⟨v, hpop, hresp⟩ <;> rw [hresp]
      · have ht := ih _ (hring ▸ hs)
        rwa [hring] at ht
      · obtain ⟨hsound, -, hitems⟩ := hs.rbPop hpop
        have ht := ih _ hsound
        rw [hitems]
        simpa using ht

/-- First in, first out, from an empty queue. -/
theorem queueRun_fifo_from_empty {q : Nat} {consumer : Agent} {ring : State → Ring Word}
    (step : QueueStep q consumer ring) (ops : List QueueOp) (s : State) (hs : RingSound 1024 (ring s))
    (hempty : (ring s).head = (ring s).tail) :
    let r := queueRun q consumer ops s
    r.pushed.map some = r.popped.map some ++ ringItems 1024 (ring r.after) ∧
      r.pushed.length = r.popped.length + occupied 1024 (ring r.after) := by
  have h := queueRun_fifo step ops s hs
  rw [(ringItems_eq_nil_iff hs.head_lt hs.tail_lt).2 hempty, List.nil_append] at h
  refine ⟨h, ?_⟩
  have hlen := congrArg List.length h
  simpa [ringItems_length] using hlen

/-- Settles O23. -/
theorem popsReturnPushesInOrder : Obligations.PopsReturnPushesInOrder := by
  unfold Obligations.PopsReturnPushesInOrder
  exact fun ops s => ⟨queueRun_fifo_from_empty queueStep_one ops s, queueRun_fifo_from_empty queueStep_two ops s⟩

/-! ### The audio path -/

/-- One serviced line as the Multiplexer sees it: no island due; the oldest of the queue; or the next silence island. -/
theorem audioLine_cases (s : State) :
    (firedBySeq (audioLine s) = false ∧ (audioLine s).q0 = s.q0 ∧ (audioLine s).silIdx = s.silIdx ∧
      (audioLine s).encEs = s.encEs) ∨
    (s.q0.head ≠ s.q0.tail ∧ firedBySeq (audioLine s) = true ∧
      (audioLine s).q0 = { s.q0 with tail := (s.q0.tail + 1) % 256 } ∧ (audioLine s).encEs = s.encEs ∧
      ∀ isl, memRead s.q0.buf s.q0.tail = some isl → (audioLine s).diOut = isl) ∨
    (s.q0.head = s.q0.tail ∧ firedBySeq (audioLine s) = true ∧ (audioLine s).q0 = s.q0 ∧
      (audioLine s).diOut = silence .moe s.silIdx.toNat ∧ (audioLine s).silIdx = countMod 48 s.silIdx ∧
      (audioLine s).encEs = s.encEs) := by
  let u : State := { s with acc := s.acc + s.act.spl, issuer := .seq, respS := some ⟨.ok, []⟩ }
  have hline : audioLine s = nextOr (exec .pkt u) u := by
    rw [audioLine, exec_tick (s := { s with issuer := .seq }) rfl]; rfl
  rw [hline]
  by_cases hd : thresh ≤ u.acc
  · rw [exec_pkt_due (s := u) rfl hd]
    rcases fetchIsland_cases .moe { u with acc := u.acc - thresh, diValid := true } with
      ⟨hq, hf⟩ | ⟨hq, isl, hisl, hf⟩ | ⟨hq, hisl, hf⟩ <;> rw [hf]
    · exact .inr (.inr ⟨hq, rfl, rfl, rfl, rfl, rfl⟩)
    · exact .inr (.inl ⟨hq, rfl, rfl, rfl, fun x hx => Option.some.inj (hisl.symm.trans hx)⟩)
    · exact .inr (.inl ⟨hq, rfl, rfl, rfl, fun x hx => absurd (hisl.symm.trans hx) nofun⟩)
  · rw [exec_pkt_notDue (s := u) rfl hd]; exact .inl ⟨rfl, rfl, rfl, rfl⟩

theorem countMod_48 (c : Octet) : (countMod 48 c).toNat = (c.toNat + 1) % 48 :=
  countMod_toNat (by decide) (by decide) c

/-- With the queue empty the silence index counts the islands emitted, round the table, and the queue stays empty. -/
theorem audioLines_silence (s : State) (hq : s.q0.head = s.q0.tail) (hi : s.silIdx.toNat < 48) (L : Nat) :
    (audioLines L s).2.q0 = s.q0 ∧ (audioLines L s).2.silIdx.toNat = (s.silIdx.toNat + (audioLines L s).1) % 48 := by
  induction L with
  | zero => exact ⟨rfl, (Nat.mod_eq_of_lt hi).symm⟩
  | succ L ih =>
    obtain ⟨hq', hi'⟩ := ih
    simp only [audioLines]
    rcases audioLine_cases (audioLines L s).2 with ⟨hf, hring, hsil, -⟩ | ⟨hne, -⟩ | ⟨-, hf, hring, -, hsil, -⟩
    · rw [hf, hring, hsil]
      exact ⟨hq', by simpa using hi'⟩
    · exact absurd (hq' ▸ hq) hne
    · rw [hf, hring, hsil, countMod_48, hi']
      exact ⟨hq', by rw [if_pos rfl]; omega⟩

/-- Settles O28: the island of a line that emits is the entry the silence index names. -/
theorem silenceRotates : Obligations.SilenceRotates := by
  unfold Obligations.SilenceRotates
  intro s L hq hi
  obtain ⟨hq', hi'⟩ := audioLines_silence s hq hi L
  refine ⟨hi', fun hfired => ?_⟩
  have hlt : (s.silIdx.toNat + (audioLines L s).1) % 48 < 48 := Nat.mod_lt _ (by decide)
  have hout : (audioLine (audioLines L s).2).diOut =
      Config.encoder.enc 0#32 0#32 0#32 0#32 ((s.silIdx.toNat + (audioLines L s).1) % 48) := by
    rcases audioLine_cases (audioLines L s).2 with ⟨hf, -⟩ | ⟨hne, -⟩ | ⟨-, -, -, hout, -⟩
    · rw [hf] at hfired; cases hfired
    · exact absurd (hq' ▸ hq) hne
    · rw [hout, hi']; rfl
  refine ⟨hout, ?_⟩
  rw [hout, Config.encoder.flag_enc _ _ _ _ _ hlt (by omega), Nat.mod_mod_of_dvd _ (by decide)]

/-- What `AENQ` does to the queue of a sound state and answers: it fails, or the island of its samples goes in. -/
theorem aenq_cases (s : State) (w0 w1 w2 w3 : Word) :
    let t := nextOr (exec (.aenq w0 w1 w2 w3) { s with issuer := .p }) s
    (t.q0 = s.q0 ∧ t.encEs = s.encEs ∧ okValues (respOf t .p) = none) ∨
      (rbPush 256 s.q0 (Config.encoder.enc w0 w1 w2 w3 s.encEs.toNat) = some t.q0 ∧ t.encEs = countMod 48 s.encEs ∧
        okValues (respOf t .p) = some []) := by
  let u : State := { s with issuer := .p }
  have hp : u.issuer = .p := rfl
  by_cases hw : u.hwm.toNat ≤ occupied 256 u.q0
  · rw [exec_aenq_hwm hp hw]; exact .inl ⟨rfl, rfl, rfl⟩
  · by_cases hfull : (u.q0.head + 1) % 256 = u.q0.tail
    · rw [exec_aenq_full hp (Nat.not_le.1 hw) hfull]; exact .inl ⟨rfl, rfl, rfl⟩
    · rw [exec_aenq_room hp (Nat.not_le.1 hw) hfull]; exact .inr ⟨if_neg hfull, rfl, rfl⟩

/-- The samples waiting in the queue before some traffic and those accepted in it are those of the islands emitted from the
queue in it and those waiting after it. -/
theorem audioRun_fifo (ops : List AudioOp) (s : State) (hs : RingSound 256 s.q0) (hes : s.encEs.toNat < 48) :
    (ringItems 256 s.q0).map (Option.map Config.encoder.dec) ++ (audioRun ops s).enqueued.map some =
      (audioRun ops s).emitted.map (fun isl => some (Config.encoder.dec isl)) ++
        (ringItems 256 (audioRun ops s).after.q0).map (Option.map Config.encoder.dec) := by
  induction ops generalizing s with
  | nil => simp [audioRun]
  | cons op ops ih =>
    cases op with
    | enqueue w0 w1 w2 w3 =>
      simp only [audioRun]
      rcases aenq_cases s w0 w1 w2 w3 with ⟨hring, hencEs, hresp⟩ | ⟨hpush, hencEs, hresp⟩ <;> rw [hresp]
      · have ht := ih _ (by rwa [hring]) (by rwa [hencEs])
        rwa [hring] at ht
      · obtain ⟨hsound, hitems, -⟩ := hs.rbPush hpush
        have ht := ih _ hsound (by rw [hencEs, countMod_48]; omega)
        rw [hitems, List.map_append, List.map_singleton, Option.map_some,
          Config.encoder.dec_enc _ _ _ _ _ hes (by omega)] at ht
        simpa using ht
    | line =>
      simp only [audioRun]
      rcases audioLine_cases s with ⟨hf, hring, -, hencEs⟩ | ⟨hne, hf, hring, hencEs, hout⟩ |
        ⟨heq, hf, hring, -, -, hencEs⟩ <;> rw [hf]
      · have ht := ih _ (by rwa [hring]) (by rwa [hencEs])
        rw [hring] at ht
        simpa using ht
      · obtain ⟨hsound, hsome, hitems⟩ := hs.pop hne
        obtain ⟨isl, hisl⟩ := Option.isSome_iff_exists.1 hsome
        have ht := ih _ (by rwa [hring]) (by rwa [hencEs])
        rw [hring] at ht
        rw [hitems, hisl]
        simpa [hne, hout isl hisl] using ht
      · have ht := ih _ (by rwa [hring]) (by rwa [hencEs])
        rw [hring] at ht
        simpa [heq] using ht

/-- Settles O29. -/
theorem audioComesOutInOrder : Obligations.AudioComesOutInOrder := by
  unfold Obligations.AudioComesOutInOrder
  intro ops s hs hempty hes
  have h := audioRun_fifo ops s hs hes
  rwa [(ringItems_eq_nil_iff hs.head_lt hs.tail_lt).2 hempty, List.map_nil, List.nil_append] at h

end Sys2Proof.Machine
end

section
/-! PROOFS. What one step of the block can do: SEQ's steps case by case, the words of a port, and the statements about every
step that follow (10_state R20 to R32, 43_cross_core R220 to R228, 44_system_and_memory_ops R251 to R260). -/

namespace Sys2Proof.Machine

/-! ### SEQ's internal commands -/

section SeqCommands
variable {s : State} (h : s.issuer = .seq)
include h

theorem runCommand_tick :
    runCommand .moe .tick s = { s with acc := s.acc + s.act.spl, respS := some ⟨.ok, []⟩ } := by
  simpa [exec_shape] using exec_tick h

/-- `PKT` moves the tail of the island queue, its own registers, the count of draws and its response, no more. -/
theorem runCommand_pkt :
    ∃ tail a sil out valid d r, runCommand .moe .pkt s =
      { s with
        q0 := { s.q0 with tail := tail }, acc := a, silIdx := sil, diOut := out, diValid := valid, draws := d, respS := r } ∧
      (RingSound 256 s.q0 → RingSound 256 { s.q0 with tail := tail }) ∧
      (s.silIdx.toNat < 48 → sil.toNat < 48) ∧ a = (if thresh ≤ s.acc then s.acc - thresh else s.acc) := by
  by_cases hd : thresh ≤ s.acc
  · have he := exec_pkt_due h hd
    simp only [exec_shape, Host.Outcome.next.injEq] at he
    rw [he, if_pos hd]
    rcases fetchIsland_cases .moe { s with acc := s.acc - thresh, diValid := true } with
      ⟨-, hf⟩ | ⟨hne, isl, -, hf⟩ | ⟨hne, -, hf⟩ <;> rw [hf]
    · exact ⟨_, _, _, _, _, _, _, rfl, id, fun _ => by rw [show Params.moe.silK = 48 from rfl, countMod_48]; omega, rfl⟩
    · exact ⟨_, _, _, _, _, _, _, rfl, fun hs => (hs.pop hne).1, id, rfl⟩
    · exact ⟨_, _, _, _, _, _, _, rfl, fun hs => (hs.pop hne).1, id, rfl⟩
  · have he := exec_pkt_notDue h hd
    simp only [exec_shape, Host.Outcome.next.injEq] at he
    rw [he, if_neg hd]
    exact ⟨_, _, _, _, _, _, _, rfl, id, id, rfl⟩

theorem exec_rend : exec .rend s = .next { renderLine .moe s with respS := some ⟨.ok, []⟩ } := by
  rw [exec_allowed .rend (runRend .moe s) rfl rfl (by simp [h])]; exact congrArg _ (respond_of_seq _ _ h)

theorem runCommand_rend : runCommand .moe .rend s = { renderLine .moe s with respS := some ⟨.ok, []⟩ } := by
  simpa [exec_shape] using exec_rend h

theorem exec_xchk : exec .xchk s = .next { evaluate .moe s with respS := some ⟨.ok, []⟩ } := by
  have he : (evaluate .moe s).issuer = .seq := (congrArg (·.1) (evaluate_boundary .moe s).1).trans h
  rw [exec_allowed .xchk (runXchk .moe s) rfl rfl (by simp [h]), respond_of_seq _ _ he]

theorem runCommand_xchk : runCommand .moe .xchk s = { evaluate .moe s with respS := some ⟨.ok, []⟩ } := by
  simpa [exec_shape] using exec_xchk h

end SeqCommands

/-! ### Memories stay sound -/

section Memories
variable {P : Params} {sp : Space} {m : Mem Word}

theorem memSound_nil : MemSound P sp [] :=
  ⟨rfl, fun _ h => absurd h List.not_mem_nil, fun _ h => absurd h List.not_mem_nil⟩

theorem MemSound.write (h : MemSound P sp m) {a : Nat} (v : Word) (ha : a < spaceSize P sp) :
    MemSound P sp (memWrite m a (trunc (spaceWidth P sp) v)) := by
  refine ⟨memWrite_wf _ _ h.wf, fun x hx => ?_, fun x hx => ?_⟩ <;> rcases mem_memWrite hx with rfl | hx
  · exact ha
  · exact h.inside x hx
  · exact trunc_lt _ _
  · exact h.fits x hx

/-- The line slots lie in `LB`. -/
theorem slot_inside {P : Params} (b : Bool) {x : Nat} (hx : x < P.wOut) :
    slotIndex b * P.wOut + x < spaceSize P .lb := by
  cases b <;> simp only [slotIndex, spaceSize, if_true, if_false, Bool.false_eq_true] <;> omega

/-- A line rendered leaves the line slots sound. -/
theorem MemSound.renderLine {s : State} (h : MemSound P .lb s.lb) : MemSound P .lb (renderLine P s).lb := by
  refine ⟨memWriteRow_wf _ _ _ h.wf, fun x hx => ?_, fun x hx => ?_⟩ <;>
    rcases mem_memWriteRow hx with hx | ⟨k, hk, hxk, hv⟩
  · exact h.inside x hx
  · rw [hxk]; exact slot_inside s.lbWr hk
  · exact h.fits x hx
  · obtain ⟨p, -, hp⟩ := Option.map_eq_some_iff.1 hv
    rw [← hp]; exact trunc_lt _ _

theorem MemSound.putPixel {s : State} {r : RendPos} (h : MemSound P .lb s.lb) (hx : r.x < P.wOut) :
    MemSound P .lb (putPixel P s r).lb := by
  rcases putPixel_cases P s r with he | ⟨p, he⟩ <;> rw [he]
  · exact h
  · exact h.write _ (slot_inside s.lbWr hx)

end Memories

/-! ### SEQ's step, case by case -/

/-- What a step of SEQ can do, by the place of the service it stands at (44 R251 to R257). -/
inductive SeqStep (s : State) : State → Prop where
  | wait (h : s.svc = .idle) (hr : s.seq = .run) : SeqStep s s
  | poll (h : s.svc = .idle) (hr : s.seq ≠ .run) :
      SeqStep s { evaluate .moe { s with issuer := .seq } with respS := some ⟨.ok, []⟩, svc := .idle }
  | tick (h : s.svc = .tick) :
      SeqStep s { s with issuer := .seq, acc := s.acc + s.act.spl, respS := some ⟨.ok, []⟩, svc := .pkt }
  | pkt (h : s.svc = .pkt) (tail : Nat) (a : Word) (sil : Octet) (out : Island) (valid : Bool) (d : Nat)
      (r : Option Response) (hq : RingSound 256 s.q0 → RingSound 256 { s.q0 with tail := tail })
      (hsil : s.silIdx.toNat < 48 → sil.toNat < 48) :
      SeqStep s { s with
        issuer := .seq, q0 := { s.q0 with tail := tail }, acc := a, silIdx := sil, diOut := out, diValid := valid
        draws := d, respS := r, svc := if s.vsync then .blank else .rend }
  | blank (h : s.svc = .blank) : SeqStep s { afterBlank .moe s with svc := .finish }
  | rend (h : s.svc = .rend) :
      SeqStep s { renderLine .moe { s with issuer := .seq } with
        respS := some ⟨.ok, []⟩, svc := afterRend .moe s }
  | begin (h : s.svc = .rend) : SeqStep s (beginRend .moe s)
  | read (r : RendPos) (h : s.svc = .rendering r) (held : List Word) :
      SeqStep s { s with svc := .rendering { r with held := held } }
  | put (r : RendPos) (h : s.svc = .rendering r) (m : Mem Word)
      (hm : r.x < 640 → MemSound .moe .lb s.lb → MemSound .moe .lb m) :
      SeqStep s { s with lb := m, svc := .rendering (r.after .moe) }
  | publish (r : RendPos) (h : s.svc = .rendering r) :
      SeqStep s { publishSlot s with issuer := .seq, respS := some ⟨.ok, []⟩, svc := afterRend .moe s }
  | advance (h : s.svc = .advance) : SeqStep s { afterActive s with svc := .finish }
  | enter (h : s.svc = .enter) : SeqStep s { enterBlanking s with svc := .count }
  | count (h : s.svc = .count) : SeqStep s { countFrame s with svc := .latch }
  | latch (h : s.svc = .latch) : SeqStep s { latch s with svc := .check }
  | check (h : s.svc = .check) : SeqStep s { latchOverlay .moe s with svc := .xchk }
  | xchk (h : s.svc = .xchk) :
      SeqStep s { evaluate .moe { s with issuer := .seq } with respS := some ⟨.ok, []⟩, svc := .finish }
  | finish (h : s.svc = .finish) : SeqStep s (leaveService s)

theorem rendStep_seqStep {s : State} {r : RendPos} (h : s.svc = .rendering r) : SeqStep s (rendStep .moe r s) := by
  unfold rendStep
  split
  · exact .publish r h
  · rcases accessStep_cases .moe r s with ⟨sp, addr, -, he⟩ | ⟨-, he⟩ <;> rw [he]
    · exact .read r h _
    · have hput : { putPixel .moe s r with svc := .rendering (r.after .moe) } =
          { s with lb := (putPixel .moe s r).lb, svc := .rendering (r.after .moe) } := by
        rcases putPixel_cases .moe s r with hp | ⟨p, hp⟩ <;> rw [hp]
      rw [hput]
      exact .put r h _ fun hx hm => hm.putPixel hx

/-- SEQ's next enabled step is one of the cases. -/
theorem seqStep_cases {s t : State} (h : seqStep .moe exec s = .next t) : SeqStep s t := by
  unfold seqStep at h
  cases hsvc : s.svc with
  | idle =>
    rw [hsvc, seqStepAt] at h
    split at h
    · next hr => cases h; exact .wait hsvc hr
    · next hr =>
      rw [seqIssue_exec, runCommand_xchk rfl] at h
      cases h; exact .poll hsvc hr
  | tick =>
    rw [hsvc, seqStepAt, seqIssue_exec, runCommand_tick rfl] at h
    cases h; exact .tick hsvc
  | pkt =>
    obtain ⟨tail, a, sil, out, valid, d, r, he, hq, hsil, -⟩ := runCommand_pkt (s := { s with issuer := .seq }) rfl
    rw [hsvc, seqStepAt, seqIssue_exec, he] at h
    cases h; exact .pkt hsvc tail a sil out valid d r hq hsil
  | rend =>
    rw [hsvc, seqStepAt, seqIssue_exec, runCommand_rend rfl] at h
    cases h; exact .rend hsvc
  | rendering r =>
    rw [hsvc, seqStepAt] at h
    cases h; exact rendStep_seqStep hsvc
  | xchk =>
    rw [hsvc, seqStepAt, seqIssue_exec, runCommand_xchk rfl] at h
    cases h; exact .xchk hsvc
  | blank => rw [hsvc, seqStepAt] at h; cases h; exact .blank hsvc
  | advance => rw [hsvc, seqStepAt] at h; cases h; exact .advance hsvc
  | enter => rw [hsvc, seqStepAt] at h; cases h; exact .enter hsvc
  | count => rw [hsvc, seqStepAt] at h; cases h; exact .count hsvc
  | latch => rw [hsvc, seqStepAt] at h; cases h; exact .latch hsvc
  | check => rw [hsvc, seqStepAt] at h; cases h; exact .check hsvc
  | finish => rw [hsvc, seqStepAt] at h; cases h; exact .finish hsvc

/-- The step of SEQ that takes a `REND` that is next access by access is one of the cases too. -/
theorem seqAccessStep_cases {s t : State} (h : seqAccessStep .moe exec s = .next t) : SeqStep s t := by
  unfold seqAccessStep at h
  split at h
  · next hsvc => cases h; exact .begin hsvc
  · exact seqStep_cases h

/-! ### A word on a port -/

/-- A word waits with those before it, or is answered with the effect of a command of its port; what waits after it is the
beginning of a command where the words before it were. -/
theorem takeWord_effect {s t : State} {pt : Port} {w : Word} (h : takeWord exec pt w s = .next t) :
    (∃ ws, t = withRx s pt ws ∧ rxWaiting ws) ∨
    ∃ ws st vs u, Effect .moe { withRx s pt ws with issuer := pt.agent } u ∧ t = respond st vs u ∧
      (rxWaiting (rxOf s pt) → rxWaiting ws) := by
  have none_waits : rxWaiting [] := ⟨1, rfl⟩
  rcases takeWord_cases exec pt w s with ⟨n, hd, he⟩ | ⟨e, -, he⟩ | ⟨i, rest, hd, he⟩ <;> rw [he] at h
  · cases h; exact .inl ⟨_, rfl, n, hd⟩
  · cases h; exact .inr ⟨[], .illegal, [], _, .nothing, rfl, fun _ => none_waits⟩
  · obtain ⟨st, vs, u, hu, heff, -⟩ := exec_answered h
    exact .inr ⟨rest, st, vs, u, heff, hu, fun hw => by rw [rest_eq_nil_of_waiting hw hd]; exact none_waits⟩

/-! ### Who writes what (10_state R20; 60_exceptions R290) -/

/-- What SEQ alone writes. -/
def State.seqSide (s : State) : Nat × Word × Octet × Island × Bool × Seq × Bool × Half × Bool × Word × Bool × Bool ×
    Word × Bool × Conf × Bool × Bool × Half × Mem Word × Svc :=
  (s.q0.tail, s.acc, s.silIdx, s.diOut, s.diValid, s.seq, s.vsync, s.ln, s.busy, s.framecnt, s.txRun, s.xgnt, s.fault,
    s.ovlOk, s.act, s.lbWr, s.lbPub, s.lbSeq, s.lb, s.svc)

/-- What the ports and TX alone write. -/
def State.portSide (s : State) : Nat × Mem Island × Ring Word × Ring Word × Octet × Word × Bool × Bool × Conf × LsTag ×
    LsTag × Mem Word × Mem Word × Mem Word × Mem Word × Bool :=
  (s.q0.head, s.q0.buf, s.q1, s.q2, s.encEs, s.hwm, s.runReq, s.xreq, s.pend, s.ls0, s.ls1, s.txt, s.fb, s.ls, s.ovl,
    s.txIdle)

theorem sameSeq_iff (s t : State) : sameSeq s t ↔ t.seqSide = s.seqSide := by
  simp only [sameSeq, State.seqSide, Prod.mk.injEq]

theorem samePortP_of_portSide {s t : State} (h : t.portSide = s.portSide) :
    samePortP s t ∧ t.q1 = s.q1 ∧ t.q2 = s.q2 ∧ t.txIdle = s.txIdle := by
  simp only [State.portSide, Prod.mk.injEq] at h
  obtain ⟨hhead, hbuf, hq1, hq2, hencEs, hhwm, hrun, hreq, hpend, hls0, hls1, htxt, hfb, hls, hovl, hidle⟩ := h
  simp only [samePortP, hhead, hbuf, hq1, hq2, hencEs, hhwm, hrun, hreq, hpend, hls0, hls1, htxt, hfb, hls, hovl, hidle,
    and_self]

@[simp] theorem respond_seqSide (st : Status) (vs : List Word) (s : State) :
    (respond st vs s).seqSide = s.seqSide := by simp [State.seqSide]

@[simp] theorem withRx_seqSide (s : State) (pt : Port) (ws : List Word) : (withRx s pt ws).seqSide = s.seqSide := by
  cases pt <;> rfl

theorem rbPush_tail {α : Type} {n : Nat} {r r' : Ring α} {x : α} (h : rbPush n r x = some r') : r'.tail = r.tail := by
  rcases rbPush_cases n r x with ⟨-, he⟩ | ⟨-, he⟩ <;> rw [he] at h <;> cases h
  rfl

theorem rbPop_frame {α : Type} {n : Nat} {r r' : Ring α} {o : Option α} (h : rbPop n r = some (o, r')) :
    r'.head = r.head ∧ r'.buf = r.buf := by
  rcases rbPop_cases n r with ⟨-, he⟩ | ⟨-, he⟩ <;> rw [he] at h <;> cases h
  exact ⟨rfl, rfl⟩

/-- A command of a port writes nothing of SEQ's. -/
theorem Effect.seqSide {P : Params} {s t : State} (h : Effect P s t) (hs : s.issuer ≠ .seq) :
    t.seqSide = s.seqSide := by
  cases h with
  | queued _ isl r hr => simp only [State.seqSide, rbPush_tail hr]
  | written _ sp addr w hw => rw [writeElement_eq P hw]; rfl
  | ticked h => exact absurd h hs
  | emitted h => exact absurd h hs
  | notDue h => exact absurd h hs
  | rendered h => exact absurd h hs
  | evaluated h => exact absurd h hs
  | _ => rfl

theorem Port.agent_ne_seq (pt : Port) : pt.agent ≠ .seq := by cases pt <;> decide

/-- A word on a port writes nothing of SEQ's, and not `tx_idle`. -/
theorem takeWord_seqSide {s t : State} {pt : Port} {w : Word} (h : takeWord exec pt w s = .next t) :
    t.seqSide = s.seqSide ∧ t.txIdle = s.txIdle := by
  rcases takeWord_effect h with ⟨ws, rfl, -⟩ | ⟨ws, st, vs, u, heff, rfl, -⟩
  · exact ⟨withRx_seqSide s pt ws, withRx_txIdle s pt ws⟩
  · have hidle := congrArg (fun b => b.2.2.2.2.1) heff.boundary.1
    have hside := heff.seqSide pt.agent_ne_seq
    rw [respond_seqSide, hside, respond_txIdle]
    exact ⟨withRx_seqSide s pt ws, hidle.trans (withRx_txIdle s pt ws)⟩

theorem evaluate_portSide (P : Params) (s : State) : (evaluate P s).portSide = s.portSide := by
  rcases evaluate_cases P s with h | ⟨-, -, h⟩ | ⟨-, -, -, h⟩ | ⟨-, -, -, -, h⟩ | ⟨-, -, -, -, h⟩ | ⟨-, -, -, h⟩ |
    ⟨-, -, -, -, h⟩ | ⟨-, -, -, -, h⟩ | ⟨-, -, -, h⟩ <;> rw [h] <;> rfl

theorem afterBlank_portSide (P : Params) (s : State) : (afterBlank P s).portSide = s.portSide := by
  unfold afterBlank; split <;> rfl

/-- SEQ writes nothing of the ports' and of TX's. -/
theorem SeqStep.portSide {s t : State} (h : SeqStep s t) : t.portSide = s.portSide := by
  cases h with
  | poll => exact evaluate_portSide .moe { s with issuer := .seq }
  | xchk => exact evaluate_portSide .moe { s with issuer := .seq }
  | blank => exact afterBlank_portSide .moe s
  | _ => rfl

theorem takeLineReq_portSide (s : State) : (takeLineReq s).portSide = s.portSide := by
  unfold takeLineReq
  split <;> [split; skip; skip; skip] <;> rfl

/-- A consumer's command writes nothing of port P's, and of the queues at most its own tail. -/
theorem Effect.consumer {P : Params} {s t : State} (h : Effect P s t) (hc : s.issuer = .c1 ∨ s.issuer = .c2) :
    samePortP s t ∧ (s.issuer = .c1 → t.q2 = s.q2) ∧ (s.issuer = .c2 → t.q1 = s.q1) := by
  have hp : s.issuer ≠ .p := by rcases hc with h | h <;> rw [h] <;> decide
  have hs : s.issuer ≠ .seq := by rcases hc with h | h <;> rw [h] <;> decide
  cases h with
  | nothing => exact ⟨by simp [samePortP], fun _ => rfl, fun _ => rfl⟩
  | popped1 hi _ v r d hr =>
    obtain ⟨hhead, hbuf⟩ := rbPop_frame hr
    exact ⟨by simp [samePortP, hhead, hbuf], fun _ => rfl, fun h2 => absurd (hi.symm.trans h2) (by decide)⟩
  | popped2 hi _ v r d hr =>
    obtain ⟨hhead, hbuf⟩ := rbPop_frame hr
    exact ⟨by simp [samePortP, hhead, hbuf], fun h1 => absurd (hi.symm.trans h1) (by decide), fun _ => rfl⟩
  | drawn h => exact absurd h hp
  | runRequest h => exact absurd h hp
  | settings h => exact absurd h hp
  | pushed1 h => exact absurd h hp
  | pushed2 h => exact absurd h hp
  | queued h => exact absurd h hp
  | requested h => exact absurd h hp
  | written h => exact absurd h hp
  | ticked h => exact absurd h hs
  | emitted h => exact absurd h hs
  | notDue h => exact absurd h hs
  | rendered h => exact absurd h hs
  | evaluated h => exact absurd h hs

/-- A command of port P moves no tail of the consumers' queues. -/
theorem Effect.producer_tails {P : Params} {s t : State} (h : Effect P s t) (hp : s.issuer = .p) :
    t.q1.tail = s.q1.tail ∧ t.q2.tail = s.q2.tail := by
  cases h with
  | pushed1 _ _ w r hr => exact ⟨rbPush_tail hr, rfl⟩
  | pushed2 _ _ w r hr => exact ⟨rfl, rbPush_tail hr⟩
  | popped1 hi => exact absurd (hi.symm.trans hp) (by decide)
  | popped2 hi => exact absurd (hi.symm.trans hp) (by decide)
  | written _ sp addr w hw => rw [writeElement_eq P hw]; exact ⟨rfl, rfl⟩
  | emitted hs => exact absurd (hs.symm.trans hp) (by decide)
  | evaluated hs => exact absurd (hs.symm.trans hp) (by decide)
  | _ => exact ⟨rfl, rfl⟩

theorem samePortP_respond {s t : State} {st : Status} {vs : List Word} : samePortP s (respond st vs t) ↔ samePortP s t := by
  simp only [samePortP, respond_q0, respond_q1, respond_q2, respond_encEs, respond_hwm, respond_runReq, respond_xreq,
    respond_pend, respond_ls0, respond_ls1, respond_txt, respond_fb, respond_ls, respond_ovl]

/-- A word on a consumer's port. -/
theorem takeWord_consumer {s t : State} {pt : Port} {w : Word} (h : takeWord exec pt w s = .next t)
    (hc : pt = .c1 ∨ pt = .c2) : samePortP s t ∧ (pt = .c1 → t.q2 = s.q2) ∧ (pt = .c2 → t.q1 = s.q1) := by
  rcases takeWord_effect h with ⟨ws, rfl, -⟩ | ⟨ws, st, vs, u, heff, rfl, -⟩
  · exact ⟨by simp [samePortP], fun _ => by simp, fun _ => by simp⟩
  · have hcons := heff.consumer (by rcases hc with rfl | rfl <;> simp [Port.agent])
    simp only [samePortP_respond, respond_q1, respond_q2]
    rcases hc with rfl | rfl
    · exact ⟨hcons.1, fun _ => hcons.2.1 rfl, fun h => by cases h⟩
    · exact ⟨hcons.1, (fun h => by cases h), fun _ => hcons.2.2 rfl⟩

/-- Settles O60. -/
theorem eachPieceHasOneWriter : Obligations.EachPieceHasOneWriter := by
  unfold Obligations.EachPieceHasOneWriter
  intro s t e es hin hstep
  refine ⟨?_, ?_, ?_, ?_, ?_⟩
  · rintro w rfl
    rw [step_word hin] at hstep
    obtain ⟨hside, hidle⟩ := takeWord_seqSide hstep
    refine ⟨(sameSeq_iff s t).2 hside, ?_⟩
    rcases takeWord_effect hstep with ⟨ws, rfl, -⟩ | ⟨ws, st, vs, u, heff, rfl, -⟩
    · exact ⟨rfl, rfl, rfl⟩
    · obtain ⟨hq1, hq2⟩ := heff.producer_tails rfl
      exact ⟨by rw [respond_q1, hq1]; rfl, by rw [respond_q2, hq2]; rfl, hidle⟩
  · rintro w rfl
    rw [step_word hin] at hstep
    obtain ⟨hside, hidle⟩ := takeWord_seqSide hstep
    obtain ⟨hp, hq2, -⟩ := takeWord_consumer hstep (.inl rfl)
    exact ⟨(sameSeq_iff s t).2 hside, hp, by rw [hq2 rfl], hidle⟩
  · rintro w rfl
    rw [step_word hin] at hstep
    obtain ⟨hside, hidle⟩ := takeWord_seqSide hstep
    obtain ⟨hp, -, hq1⟩ := takeWord_consumer hstep (.inr rfl)
    exact ⟨(sameSeq_iff s t).2 hside, hp, by rw [hq1 rfl], hidle⟩
  · rintro (rfl | rfl | rfl)
    · rw [step_lineReq hin] at hstep
      cases hstep
      exact samePortP_of_portSide (takeLineReq_portSide { s with inputs := es })
    · rw [step_seq hin] at hstep
      exact samePortP_of_portSide (seqStep_cases hstep).portSide
    · rw [step_seqByAccess hin] at hstep
      exact samePortP_of_portSide (seqAccessStep_cases hstep).portSide
  · rintro level rfl
    rw [step_txIdle hin] at hstep
    cases hstep
    rfl

theorem bool_absurd {C : Prop} {b : Bool} (h1 : b = true) (h0 : b = false) : C :=
  absurd (h1.symm.trans h0) (by decide)

/-! ### SEQ's position, the handshake, the fault and the active configuration under every step -/

/-- The position of SEQ with the flags and the configuration that move with it. -/
def State.control (s : State) : Seq × Bool × Half × Bool × Bool × Word × Conf :=
  (s.seq, s.vsync, s.ln, s.txRun, s.xgnt, s.fault, s.act)

/-- What a step can do to `State.control`: leave it, one event's or one micro-step's move, or reset it. -/
inductive ControlMove (s t : State) : Prop where
  | still (h : t.control = s.control)
  | overrun (he : s.inputs.head? = some .lineReq) (hr : s.seq = .run) (hb : s.busy = true)
      (h : t.control = (raiseOverrun s).control)
  | blank (hs : s.svc = .blank) (h : t.control = (afterBlank .moe s).control)
  | advance (hs : s.svc = .advance) (h : t.control = (afterActive s).control)
  | enter (hs : s.svc = .enter) (h : t.control = (enterBlanking s).control)
  | latch (hs : s.svc = .latch) (h : t.control = (latch s).control)
  | evaluate (hs : s.svc = .xchk ∨ s.svc = .idle ∧ s.seq ≠ .run) (h : t.control = (evaluate .moe s).control)
  | reset (he : s.inputs.head? = some .reset) (h : t.control = State.reset.control)

theorem control_eq_iff (s t : State) : t.control = s.control ↔
    t.seq = s.seq ∧ t.vsync = s.vsync ∧ t.ln = s.ln ∧ t.txRun = s.txRun ∧ t.xgnt = s.xgnt ∧ t.fault = s.fault ∧
      t.act = s.act := by
  simp only [State.control, Prod.mk.injEq]

theorem control_of_seqSide {s t : State} (h : t.seqSide = s.seqSide) : t.control = s.control := by
  simp only [State.seqSide, Prod.mk.injEq] at h
  obtain ⟨-, -, -, -, -, hseq, hvsync, hln, -, -, htxRun, hxgnt, hfault, -, hact, -⟩ := h
  exact (control_eq_iff s t).2 ⟨hseq, hvsync, hln, htxRun, hxgnt, hfault, hact⟩

/-- The coordinator reads and writes neither the issuer nor the events to come. -/
theorem evaluate_control_frame (P : Params) (s : State) (a : Agent) (es : List Event) :
    (Machine.evaluate P { s with issuer := a, inputs := es }).control = (Machine.evaluate P s).control := by
  cases s
  rename Seq => q
  unfold Machine.evaluate
  cases q <;> dsimp only <;> repeat' split
  all_goals rfl

theorem SeqStep.control {s t : State} {es : List Event} (h : SeqStep { s with inputs := es } t) : ControlMove s t := by
  cases h with
  | poll hs hr => exact .evaluate (.inr ⟨hs, hr⟩) (evaluate_control_frame .moe s .seq es)
  | xchk hs => exact .evaluate (.inl hs) (evaluate_control_frame .moe s .seq es)
  | blank hs =>
    refine .blank hs ?_
    unfold afterBlank
    dsimp only
    split <;> rfl
  | advance hs => exact .advance hs rfl
  | enter hs => exact .enter hs rfl
  | latch hs => exact .latch hs rfl
  | _ => exact .still rfl

/-- What a `LINE_REQ` can do (44 R254; 60_exceptions R283, R284). -/
theorem takeLineReq_cases (s : State) :
    (s.seq = .run ∧ s.busy = true ∧ takeLineReq s = raiseOverrun s) ∨
    (s.seq = .run ∧ s.busy = false ∧ takeLineReq s = enterService s) ∨ (s.seq ≠ .run ∧ takeLineReq s = s) := by
  unfold takeLineReq
  cases hs : s.seq <;> cases hb : s.busy <;> simp

/-- Every step moves `State.control` in one of the ways of `ControlMove`. -/
theorem step_control {s t : State} (h : step s = .next t) : ControlMove s t := by
  rcases step_cases s with ⟨hin, he⟩ | ⟨e, es, hin, he⟩ <;> rw [he] at h
  · exact (seqStep_cases h).control (es := s.inputs)
  · cases e with
    | word pt w => exact .still (control_of_seqSide (takeWord_seqSide h).1)
    | lineReq =>
      simp only [handle, Host.Outcome.next.injEq] at h
      subst h
      rcases takeLineReq_cases { s with inputs := es } with ⟨hr, hb, ht⟩ | ⟨-, -, ht⟩ | ⟨-, ht⟩ <;> rw [ht]
      · exact .overrun (by rw [hin]; rfl) hr hb rfl
      · exact .still rfl
      · exact .still rfl
    | txIdle level => cases h; exact .still rfl
    | reset => cases h; exact .reset (by rw [hin]; rfl) rfl
    | seq => exact (seqStep_cases h).control
    | seqByAccess => exact (seqAccessStep_cases h).control

/-- The coordinator's moves of `seq`: those of the transition table (44 R260). -/
theorem evaluate_seq (P : Params) (s : State) :
    (evaluate P s).seq = s.seq ∨
    (s.seq, (evaluate P s).seq) ∈ [(Seq.stopped, Seq.run), (.stopped, .parked), (.run, .quiesce), (.quiesce, .parked),
      (.quiesce, .stopped), (.quiesce, .run), (.parked, .run), (.parked, .stopped)] := by
  rcases evaluate_cases P s with h | ⟨hs, -, h⟩ | ⟨hs | hs, -, -, h⟩ | ⟨hs, -, -, -, h⟩ | ⟨hs, -, -, -, h⟩ |
    ⟨hs, -, -, h⟩ | ⟨hs, -, -, -, h⟩ | ⟨hs, -, -, -, h⟩ | ⟨hs, -, -, h⟩ <;> rw [h]
  · exact .inl rfl
  all_goals exact .inr (by rw [hs]; simp [grantExclusive, stopSession, resumeRun, sessionStart])

theorem afterBlank_seq (P : Params) (s : State) : (afterBlank P s).seq = s.seq := by unfold afterBlank; split <;> rfl

/-- Settles O53: only the coordinator moves `seq`, and a reset. -/
theorem seqTransitionTable : Obligations.SeqTransitionTable := by
  unfold Obligations.SeqTransitionTable
  intro s t h
  cases step_control h with
  | evaluate _ hc =>
    rw [((control_eq_iff _ _).1 hc).1]
    exact (evaluate_seq .moe s).imp id .inr
  | reset he hc => exact .inr (.inl ⟨he, congrArg (·.1) hc⟩)
  | blank _ hc => exact .inl ((congrArg (·.1) hc).trans (afterBlank_seq .moe s))
  | still hc => exact .inl (congrArg (·.1) hc)
  | overrun _ _ _ hc => exact .inl (congrArg (·.1) hc)
  | advance _ hc => exact .inl (congrArg (·.1) hc)
  | enter _ hc => exact .inl (congrArg (·.1) hc)
  | latch _ hc => exact .inl (congrArg (·.1) hc)

/-- Settles O57: `enter` raises `vsync` at the frame boundary and a session start outside one; `blank` lowers it after the
last blanking line, and whatever stops SEQ. -/
theorem vsyncTogglesAtTheFrameEdges : Obligations.VsyncTogglesAtTheFrameEdges := by
  unfold Obligations.VsyncTogglesAtTheFrameEdges
  intro s t h
  have same : t.vsync = s.vsync → (s.vsync = false → t.vsync = true → s.svc = .enter ∨ (s.seq ≠ .run ∧ t.seq = .run)) ∧
      (s.vsync = true → t.vsync = false → (s.svc = .blank ∧ s.ln.toNat + 1 = 45) ∨ t.seq = .stopped) := by
    intro hv
    rw [hv]
    exact ⟨fun h0 h1 => bool_absurd h1 h0, fun h1 h0 => bool_absurd h1 h0⟩
  cases step_control h with
  | still hc => exact same ((control_eq_iff _ _).1 hc).2.1
  | overrun _ _ _ hc => exact same ((control_eq_iff _ _).1 hc).2.1
  | advance _ hc => exact same ((control_eq_iff _ _).1 hc).2.1
  | latch _ hc => exact same ((control_eq_iff _ _).1 hc).2.1
  | enter hs hc =>
    have hv : t.vsync = true := ((control_eq_iff _ _).1 hc).2.1
    exact ⟨fun _ _ => .inl hs, fun _ h0 => bool_absurd hv h0⟩
  | reset _ hc =>
    obtain ⟨hseq, hv, -⟩ := (control_eq_iff _ _).1 hc
    exact ⟨fun _ h1 => bool_absurd h1 hv, fun _ _ => .inr hseq⟩
  | blank hs hc =>
    obtain ⟨-, hv, -⟩ := (control_eq_iff _ _).1 hc
    unfold afterBlank at hv
    split at hv
    · next hln =>
      exact ⟨fun _ h1 => bool_absurd h1 hv, fun _ _ => .inl ⟨hs, hln⟩⟩
    · exact same hv
  | evaluate _ hc =>
    obtain ⟨hseq, hv, -⟩ := (control_eq_iff _ _).1 hc
    rcases evaluate_cases .moe s with he | ⟨-, -, he⟩ | ⟨-, -, -, he⟩ | ⟨-, -, -, -, he⟩ | ⟨-, -, -, -, he⟩ |
      ⟨-, -, -, he⟩ | ⟨-, -, -, -, he⟩ | ⟨hp, -, -, -, he⟩ | ⟨hp, -, -, he⟩ <;> rw [he] at hseq hv
    · exact same hv
    · exact same hv
    · exact same hv
    · exact ⟨fun _ h1 => bool_absurd h1 hv, fun _ _ => .inr hseq⟩
    · exact same hv
    · exact ⟨fun _ h1 => bool_absurd h1 hv, fun _ _ => .inr hseq⟩
    · exact same hv
    · exact ⟨fun _ _ => .inr ⟨by rw [hp]; decide, hseq⟩, fun _ h0 => bool_absurd hv h0⟩
    · exact ⟨fun _ _ => .inr ⟨by rw [hp]; decide, hseq⟩, fun _ h0 => bool_absurd hv h0⟩

/-- What the coordinator does to the active configuration: nothing, or the latch of a session start (44 R253). -/
theorem evaluate_act (P : Params) (s : State) :
    (evaluate P s).act = s.act ∨
    ((evaluate P s).act = s.pend ∧ s.seq ≠ .run ∧ (evaluate P s).seq = .run ∧ (evaluate P s).vsync = true ∧
      (evaluate P s).ln = 0#16) := by
  rcases evaluate_cases P s with h | ⟨-, -, h⟩ | ⟨-, -, -, h⟩ | ⟨-, -, -, -, h⟩ | ⟨-, -, -, -, h⟩ |
    ⟨-, -, -, h⟩ | ⟨-, -, -, -, h⟩ | ⟨hs, -, -, -, h⟩ | ⟨hs, -, -, h⟩ <;> rw [h]
  case _ => exact .inl rfl
  case _ => exact .inl rfl
  case _ => exact .inl rfl
  case _ => exact .inl rfl
  case _ => exact .inl rfl
  case _ => exact .inl rfl
  case _ => exact .inl rfl
  case _ => exact .inr ⟨rfl, by rw [hs]; decide, rfl, rfl, rfl⟩
  case _ => exact .inr ⟨rfl, by rw [hs]; decide, rfl, rfl, rfl⟩

/-- Settles O58. -/
theorem configurationLatchesAtTheBoundary : Obligations.ConfigurationLatchesAtTheBoundary := by
  unfold Obligations.ConfigurationLatchesAtTheBoundary
  intro s t h hne
  cases step_control h with
  | reset he _ => exact .inr he
  | latch hs hc => exact .inl ⟨((control_eq_iff _ _).1 hc).2.2.2.2.2.2, .inl hs⟩
  | evaluate _ hc =>
    obtain ⟨hseq, hv, hln, -, -, -, hact⟩ := (control_eq_iff _ _).1 hc
    rcases evaluate_act .moe s with he | ⟨he, hrun, hseq', hv', hln'⟩
    · exact absurd (hact.trans he) hne
    · exact .inl ⟨hact.trans he, .inr ⟨hrun, hseq.trans hseq', hv.trans hv', hln.trans hln'⟩⟩
  | blank _ hc =>
    obtain ⟨-, -, -, -, -, -, hact⟩ := (control_eq_iff _ _).1 hc
    exact absurd (hact.trans (by unfold afterBlank; split <;> rfl)) hne
  | still hc => exact absurd ((control_eq_iff _ _).1 hc).2.2.2.2.2.2 hne
  | overrun _ _ _ hc => exact absurd ((control_eq_iff _ _).1 hc).2.2.2.2.2.2 hne
  | advance _ hc => exact absurd ((control_eq_iff _ _).1 hc).2.2.2.2.2.2 hne
  | enter _ hc => exact absurd ((control_eq_iff _ _).1 hc).2.2.2.2.2.2 hne

theorem evaluate_fault (P : Params) (s : State) : (evaluate P s).fault = s.fault := by
  rcases evaluate_cases P s with h | ⟨-, -, h⟩ | ⟨-, -, -, h⟩ | ⟨-, -, -, -, h⟩ | ⟨-, -, -, -, h⟩ | ⟨-, -, -, h⟩ |
    ⟨-, -, -, -, h⟩ | ⟨-, -, -, -, h⟩ | ⟨-, -, -, h⟩ <;> rw [h] <;> rfl

/-- Only a `LINE_REQ` in a running service, or a reset, moves the fault register. -/
theorem ControlMove.fault {s t : State} (h : ControlMove s t) :
    t.fault = s.fault ∨ (s.inputs.head? = some .lineReq ∧ s.seq = .run ∧ s.busy = true ∧ t.fault = s.fault ||| 1#32) ∨
      s.inputs.head? = some .reset := by
  have fault_eq : ∀ {u : State}, t.control = u.control → t.fault = u.fault := fun hc => congrArg (·.2.2.2.2.2.1) hc
  cases h with
  | overrun he hr hb hc => exact .inr (.inl ⟨he, hr, hb, fault_eq hc⟩)
  | reset he _ => exact .inr (.inr he)
  | evaluate _ hc => exact .inl ((fault_eq hc).trans (evaluate_fault .moe s))
  | blank _ hc => exact .inl ((fault_eq hc).trans (by unfold afterBlank; split <;> rfl))
  | still hc => exact .inl ((fault_eq hc).trans rfl)
  | advance _ hc => exact .inl ((fault_eq hc).trans rfl)
  | enter _ hc => exact .inl ((fault_eq hc).trans rfl)
  | latch _ hc => exact .inl ((fault_eq hc).trans rfl)

/-- Settles O59. -/
theorem overrunIsStickyAndOnlyFromLineReq : Obligations.OverrunIsStickyAndOnlyFromLineReq := by
  unfold Obligations.OverrunIsStickyAndOnlyFromLineReq
  intro s t h hnr
  have absorb : ∀ a b : Word, a &&& (a ||| b) = a := fun a b => by
    apply BitVec.eq_of_getLsbD_eq
    intro i _
    rw [BitVec.getLsbD_and, BitVec.getLsbD_or]
    cases a.getLsbD i <;> simp
  rcases (step_control h).fault with hf | ⟨he, hr, hb, hf⟩ | he
  · rw [hf, BitVec.and_self]
    exact ⟨rfl, fun hne => absurd rfl hne⟩
  · exact ⟨by rw [hf]; exact absorb _ _, fun _ => ⟨he, hr, hb, hf⟩⟩
  · exact absurd he hnr

/-! ### The request object -/

/-- A command moves `xreq` only where request and grant agree, away from the grant, and then nothing of SEQ's. -/
theorem Effect.xreq {P : Params} {s t : State} (h : Effect P s t) :
    t.xreq = s.xreq ∨ (s.xreq = s.xgnt ∧ t.xreq = !s.xgnt) := by
  cases h with
  | requested _ b he hb => exact .inr ⟨he, hb⟩
  | written _ sp addr w hw => rw [writeElement_eq P hw]; exact .inl rfl
  | emitted => rcases fetchIsland_cases P _ with ⟨-, h⟩ | ⟨-, _, -, h⟩ | ⟨-, -, h⟩ <;> rw [h] <;> exact .inl rfl
  | evaluated => exact .inl (congrArg (fun p => p.2.2.2.2.2.2.2.1) (evaluate_portSide P s))
  | _ => exact .inl rfl

/-- A step moves `xreq` by a word of a port, which then moves nothing of SEQ's, or by a reset. -/
theorem step_xreq {s t : State} (h : step s = .next t) (hnr : s.inputs.head? ≠ some .reset) :
    t.xreq = s.xreq ∨ (t.control = s.control ∧ s.xreq = s.xgnt ∧ t.xreq = !s.xgnt) := by
  have ofSide : ∀ {u : State}, t.portSide = u.portSide → u.xreq = s.xreq → t.xreq = s.xreq :=
    fun hp hu => (congrArg (fun p => p.2.2.2.2.2.2.2.1) hp).trans hu
  rcases step_cases s with ⟨hin, he⟩ | ⟨e, es, hin, he⟩ <;> rw [he] at h
  · exact .inl (ofSide (seqStep_cases h).portSide rfl)
  · cases e with
    | word pt w =>
      have hctl := control_of_seqSide (takeWord_seqSide h).1
      rcases takeWord_effect h with ⟨ws, rfl, -⟩ | ⟨ws, st, vs, u, heff, rfl, -⟩
      · exact .inl (withRx_xreq _ pt ws)
      · rcases heff.xreq with hx | ⟨heq, hx⟩
        · exact .inl (by rw [respond_xreq, hx]; exact withRx_xreq _ pt ws)
        · simp only [withRx_xreq, withRx_xgnt] at heq hx
          exact .inr ⟨hctl, heq, by rw [respond_xreq, hx]⟩
    | lineReq => cases h; exact .inl (ofSide (takeLineReq_portSide _) rfl)
    | txIdle level => cases h; exact .inl rfl
    | reset => exact absurd (by rw [hin]; rfl) hnr
    | seq => exact .inl (ofSide (seqStep_cases h).portSide rfl)
    | seqByAccess => exact .inl (ofSide (seqAccessStep_cases h).portSide rfl)

/-- What the coordinator does to the grant: gives it to a standing request, or takes it back when the request is gone. -/
theorem evaluate_xgnt (P : Params) (s : State) :
    (evaluate P s).xgnt = s.xgnt ∨
    ((s.seq = .quiesce ∨ s.seq = .stopped) ∧ s.xreq = true ∧ s.txIdle = true ∧ (evaluate P s).xgnt = true ∧
      (evaluate P s).seq = .parked) ∨
    (s.seq = .parked ∧ s.xreq = false ∧ (evaluate P s).xgnt = false) := by
  rcases evaluate_cases P s with h | ⟨-, -, h⟩ | ⟨hs, hx, hi, h⟩ | ⟨-, -, -, -, h⟩ | ⟨-, -, -, -, h⟩ | ⟨hs, hx, -, h⟩ |
    ⟨hs, hx, -, -, h⟩ | ⟨hs, hx, -, -, h⟩ | ⟨-, -, -, h⟩ <;> rw [h]
  case _ => exact .inl rfl
  case _ => exact .inl rfl
  case _ => exact .inr (.inl ⟨hs, hx, hi, rfl, rfl⟩)
  case _ => exact .inl rfl
  case _ => exact .inl rfl
  case _ => exact .inr (.inr ⟨hs, hx, rfl⟩)
  case _ => exact .inr (.inr ⟨hs, hx, rfl⟩)
  case _ => exact .inr (.inr ⟨hs, hx, rfl⟩)
  case _ => exact .inl rfl

/-- Only the coordinator moves the grant, and a reset. -/
theorem ControlMove.xgnt {s t : State} (h : ControlMove s t) :
    t.xgnt = s.xgnt ∨
    ((s.svc = .xchk ∨ s.svc = .idle ∧ s.seq ≠ .run) ∧ t.seq = (Machine.evaluate .moe s).seq ∧
      t.xgnt = (Machine.evaluate .moe s).xgnt) ∨
    (s.inputs.head? = some .reset ∧ t.xgnt = false) := by
  have xgnt_eq : ∀ {u : State}, t.control = u.control → t.xgnt = u.xgnt := fun hc => congrArg (·.2.2.2.2.1) hc
  cases h with
  | reset he hc => exact .inr (.inr ⟨he, xgnt_eq hc⟩)
  | evaluate hs hc => exact .inr (.inl ⟨hs, congrArg (·.1) hc, xgnt_eq hc⟩)
  | blank _ hc => exact .inl ((xgnt_eq hc).trans (by unfold afterBlank; split <;> rfl))
  | still hc => exact .inl ((xgnt_eq hc).trans rfl)
  | overrun _ _ _ hc => exact .inl ((xgnt_eq hc).trans rfl)
  | advance _ hc => exact .inl ((xgnt_eq hc).trans rfl)
  | enter _ hc => exact .inl ((xgnt_eq hc).trans rfl)
  | latch _ hc => exact .inl ((xgnt_eq hc).trans rfl)

/-- Settles O54: a word moves the request, the coordinator the grant. -/
theorem requestCycle : Obligations.RequestCycle := by
  unfold Obligations.RequestCycle
  intro s t h hnr
  have cycle : ∀ x g x' g' : Bool, (x' = x ∧ g' = g) ∨ (x = g ∧ x' = !g ∧ g' = g) ∨ (x = true ∧ x' = x ∧ g' = true) ∨
      (x = false ∧ x' = x ∧ g' = false) →
      requestCode x' g' = requestCode x g ∨ requestCode x' g' = (requestCode x g + 1) % 4 := by decide
  apply cycle
  rcases step_xreq h hnr with hx | ⟨hc, heq, hx⟩
  · rcases (step_control h).xgnt with hg | ⟨-, -, hg⟩ | ⟨he, -⟩
    · exact .inl ⟨hx, hg⟩
    · rcases evaluate_xgnt .moe s with he | ⟨-, hreq, -, he, -⟩ | ⟨-, hreq, he⟩
      · exact .inl ⟨hx, hg.trans he⟩
      · exact .inr (.inr (.inl ⟨hreq, hx, hg.trans he⟩))
      · exact .inr (.inr (.inr ⟨hreq, hx, hg.trans he⟩))
    · exact absurd he hnr
  · exact .inr (.inl ⟨heq, hx, congrArg (·.2.2.2.2.1) hc⟩)

/-- Settles O55: the coordinator grants outside a service, where a sound state is idle. -/
theorem grantRisesAndFallsSafely : Obligations.GrantRisesAndFallsSafely := by
  unfold Obligations.GrantRisesAndFallsSafely
  intro s t hsound h
  have pos := hsound.position
  rcases (step_control h).xgnt with hg | ⟨hsvc, hseq, hg⟩ | ⟨he, hg⟩
  · rw [hg]
    exact ⟨fun h0 h1 => bool_absurd h1 h0, fun h1 h0 => bool_absurd h1 h0⟩
  · rcases evaluate_xgnt .moe s with he | ⟨hs, hreq, hidle, he, hpark⟩ | ⟨hs, hreq, he⟩ <;> rw [he] at hg
    · rw [hg]
      exact ⟨fun h0 h1 => bool_absurd h1 h0, fun h1 h0 => bool_absurd h1 h0⟩
    · refine ⟨fun _ _ => ⟨hreq, hidle, ?_, ?_, hseq.trans hpark, ?_⟩, fun _ h0 => bool_absurd hg h0⟩
      · have hrun : s.seq ≠ .run := by rcases hs with hs | hs <;> rw [hs] <;> decide
        exact Bool.eq_false_iff.2 fun htx => hrun (hsound.handshake.running_iff.1 htx)
      · have hrun : s.seq ≠ .run := by rcases hs with hs | hs <;> rw [hs] <;> decide
        refine Bool.eq_false_iff.2 fun hb => ?_
        rcases hsvc with hsvc | ⟨hsvc, -⟩
        · exact hrun (pos.in_service (by rw [hsvc]; decide) (by rw [hsvc]; decide))
        · exact pos.busy_iff.1 hb hsvc
      · rcases hs with hs | hs
        · obtain ⟨hv, hln⟩ := pos.quiesce hs
          exact .inl ⟨hs, hv, hln⟩
        · exact .inr hs
    · exact ⟨fun _ h1 => bool_absurd h1 hg, fun _ _ => .inl ⟨hs, hreq⟩⟩
  · exact ⟨fun _ h1 => bool_absurd h1 hg, fun _ _ => .inr he⟩

/-- While parked the coordinator does nothing, or takes the grant back (43 R226). -/
theorem evaluate_parked (P : Params) {s : State} (hp : s.seq = .parked) :
    evaluate P s = s ∨ (evaluate P s).xgnt = false := by
  unfold evaluate
  rw [hp]
  dsimp only
  split
  · exact .inl rfl
  · refine .inr ?_
    split <;> [split; skip] <;> rfl

/-- SEQ's step in a state where the grant stands and stays writes nothing of SEQ's: the coordinator finds the request still
there (43 R226, R227). -/
theorem SeqStep.parked {s t : State} (h : SeqStep s t) (hidle : s.svc = .idle) (hp : s.seq = .parked)
    (hg : t.xgnt = true) : t.seqSide = s.seqSide := by
  cases h with
  | wait => rfl
  | poll =>
    rcases evaluate_parked .moe (s := { s with issuer := .seq }) hp with he | he
    · rw [he]; simp only [State.seqSide, hidle]
    · exact bool_absurd hg he
  | _ => simp_all only [reduceCtorEq]

/-- In a sound state with the grant standing no service is in progress. -/
theorem State.Sound.parked {P : Params} {s : State} (h : s.Sound P) (hg : s.xgnt = true) :
    s.seq = .parked ∧ s.svc = .idle := by
  have hp := h.handshake.granted_iff.1 hg
  refine ⟨hp, ?_⟩
  by_contra hne
  by_cases hf : s.svc = .finish
  · rcases h.position.finishing hf with hq | hq <;> rw [hp] at hq <;> cases hq
  · have hq := h.position.in_service hne hf
    rw [hp] at hq
    cases hq

/-- Settles O56: while the grant stands no event writes anything of SEQ's. -/
theorem parkingFreezesTheOutput : Obligations.ParkingFreezesTheOutput := by
  unfold Obligations.ParkingFreezesTheOutput
  intro s t hsound h hg hg'
  obtain ⟨hp, hidle⟩ := hsound.parked hg
  have hside : t.seqSide = s.seqSide := by
    rcases step_cases s with ⟨hin, he⟩ | ⟨e, es, hin, he⟩ <;> rw [he] at h
    · exact (seqStep_cases h).parked hidle hp hg'
    · cases e with
      | word pt w => exact (takeWord_seqSide h).1
      | lineReq =>
        cases h
        rcases takeLineReq_cases { s with inputs := es } with ⟨hr, -⟩ | ⟨hr, -⟩ | ⟨-, ht⟩
        · exact absurd (hp.symm.trans hr) (by decide)
        · exact absurd (hp.symm.trans hr) (by decide)
        · rw [ht]; rfl
      | txIdle level => cases h; rfl
      | reset => cases h; exact bool_absurd hg' rfl
      | seq => exact (seqStep_cases h).parked hidle hp hg'
      | seqByAccess => exact (seqAccessStep_cases h).parked hidle hp hg'
  have hrun : s.txRun = false := Bool.eq_false_iff.2 fun htx =>
    absurd (hp.symm.trans (hsound.handshake.running_iff.1 htx)) (by decide)
  simp only [State.seqSide, Prod.mk.injEq] at hside
  obtain ⟨htail, hacc, hsil, hout, hvalid, -, hv, hln, -, hcnt, htx, -, -, -, hact, hwr, hpub, hseq, hlb, -⟩ := hside
  exact ⟨hlb, hwr, hpub, hseq, hout, hvalid, htail, hacc, hsil, hcnt, hv, hln, hact, htx.trans hrun⟩

end Sys2Proof.Machine

end

section
/-! PROOFS. The invariant of reachable states: the reset state meets it and every step keeps it (10_state R20 to R50,
43_cross_core R228), with reset, the coordinator case by case and the entry to a line service. -/

namespace Sys2Proof.Machine

/-! ### SEQ's position, in two parts -/

/-- The places of a line service at which SEQ may stand, with the flags and the line it then finds (44 R251 to R256). -/
def PlaceSound (P : Params) (seq : Seq) (vsync : Bool) (ln : Half) : Svc → Prop
  | .idle => True
  | .tick => seq = .run
  | .pkt => seq = .run
  | .blank => seq = .run ∧ vsync = true
  | .rend => seq = .run ∧ vsync = false
  | .rendering r => seq = .run ∧ vsync = false ∧ r.x < P.wOut
  | .advance => seq = .run ∧ vsync = false ∧ ln.toNat + 1 < P.vActive
  | .enter => seq = .run
  | .count => seq = .run ∧ vsync = true ∧ ln = 0#16
  | .latch => seq = .run ∧ vsync = true ∧ ln = 0#16
  | .check => seq = .run ∧ vsync = true ∧ ln = 0#16
  | .xchk => seq = .run ∧ vsync = true ∧ ln = 0#16
  | .finish => seq = .run ∨ seq = .quiesce

/-- The lines at which each state of SEQ may stand (10_state R23 to R26, R38). -/
structure LineSound (P : Params) (seq : Seq) (vsync : Bool) (ln : Half) : Prop where
  blank_line : vsync = true → ln.toNat < P.vBlank
  active_line : seq = .run → vsync = false → ln.toNat < P.vActive
  stopped : seq = .stopped → vsync = false
  quiesce : seq = .quiesce → vsync = true ∧ ln = 0#16
  parked : seq = .parked → vsync = true → ln = 0#16

theorem PositionSound.place {P : Params} {s : State} (h : PositionSound P s) :
    PlaceSound P s.seq s.vsync s.ln s.svc := by
  have run : s.svc ≠ .idle → s.svc ≠ .finish → s.seq = .run := h.in_service
  cases hs : s.svc with
  | idle => trivial
  | tick => exact run (by simp [hs]) (by simp [hs])
  | pkt => exact run (by simp [hs]) (by simp [hs])
  | enter => exact run (by simp [hs]) (by simp [hs])
  | blank => exact ⟨run (by simp [hs]) (by simp [hs]), h.at_blank hs⟩
  | rend => exact ⟨run (by simp [hs]) (by simp [hs]), h.at_rend hs⟩
  | rendering r => exact ⟨run (by simp [hs]) (by simp [hs]), h.at_rendering r hs⟩
  | advance => exact ⟨run (by simp [hs]) (by simp [hs]), h.at_advance hs⟩
  | count => exact ⟨run (by simp [hs]) (by simp [hs]), h.at_boundary (by simp [hs])⟩
  | latch => exact ⟨run (by simp [hs]) (by simp [hs]), h.at_boundary (by simp [hs])⟩
  | check => exact ⟨run (by simp [hs]) (by simp [hs]), h.at_boundary (by simp [hs])⟩
  | xchk => exact ⟨run (by simp [hs]) (by simp [hs]), h.at_boundary (by simp [hs])⟩
  | finish => exact h.finishing hs

theorem PositionSound.line {P : Params} {s : State} (h : PositionSound P s) : LineSound P s.seq s.vsync s.ln :=
  { h with }

/-- A position at a sound place and line is sound. -/
theorem PositionSound.of_place {P : Params} {s : State} (hb : s.busy = true ↔ s.svc ≠ .idle)
    (hr : s.busy = false → s.raced = []) (hp : PlaceSound P s.seq s.vsync s.ln s.svc)
    (hl : LineSound P s.seq s.vsync s.ln) : PositionSound P s where
  busy_iff := hb
  no_race := hr
  blank_line := hl.blank_line
  active_line := hl.active_line
  stopped := hl.stopped
  quiesce := hl.quiesce
  parked := hl.parked
  in_service h0 h1 := by
    cases hs : s.svc with
    | idle => exact absurd hs h0
    | finish => exact absurd hs h1
    | tick => rw [hs] at hp; exact hp
    | pkt => rw [hs] at hp; exact hp
    | enter => rw [hs] at hp; exact hp
    | _ => rw [hs] at hp; exact hp.1
  finishing hs := by rw [hs] at hp; exact hp
  at_blank hs := by rw [hs] at hp; exact hp.2
  at_rend hs := by rw [hs] at hp; exact hp.2
  at_rendering r hs := by rw [hs] at hp; exact hp.2
  at_advance hs := by rw [hs] at hp; exact hp.2
  at_boundary hs := by rcases hs with hs | hs | hs | hs <;> rw [hs] at hp <;> exact hp.2

/-- A step of SEQ within a service keeps `busy` and moves to a sound place and line. -/
theorem PositionSound.within {P : Params} {s t : State} (h : PositionSound P s) (hs : s.svc ≠ .idle)
    (ht : t.svc ≠ .idle) (hb : t.busy = s.busy) (hp : PlaceSound P t.seq t.vsync t.ln t.svc)
    (hl : LineSound P t.seq t.vsync t.ln) : PositionSound P t := by
  have busy : t.busy = true := hb.trans (h.busy_iff.2 hs)
  exact .of_place ⟨fun _ => ht, fun _ => busy⟩ (fun h0 => bool_absurd busy h0) hp hl

/-! ### A command of a port keeps the invariant -/

/-- A write of a writable element leaves the state sound: its memory stays sound, and a race is noted only in a service. -/
theorem State.Sound.written {P : Params} {s : State} (h : s.Sound P) {sp : Space} {addr : Nat} (w : Word)
    (hw : spaceWritable sp = true) (ha : addr < spaceSize P sp) : (writeElement P sp addr w s).Sound P := by
  rw [writeElement_eq P hw]
  have race : s.busy = false → (noteRace s sp addr).raced = [] := fun hb => by
    rw [noteRace, if_neg (by simp [hb])]; exact h.position.no_race hb
  cases sp with
  | txt => exact { h with
      txt := h.txt.write w ha, position := { h.position with no_race := race }, handshake := { h.handshake with } }
  | fb => exact { h with
      fb := h.fb.write w ha, position := { h.position with no_race := race }, handshake := { h.handshake with } }
  | ls => exact { h with
      ls := h.ls.write w ha, position := { h.position with no_race := race }, handshake := { h.handshake with } }
  | ovl => exact { h with
      ovl := h.ovl.write w ha, position := { h.position with no_race := race }, handshake := { h.handshake with } }
  | _ => cases hw

/-- The effect of a command of a port leaves a sound state sound. -/
theorem Effect.sound {s t : State} (h : Effect .moe s t) (hs : s.issuer ≠ .seq) (hsound : s.Sound .moe) :
    t.Sound .moe := by
  have pos := hsound.position
  have hand := hsound.handshake
  cases h with
  | nothing => exact hsound
  | drawn => exact { hsound with position := { pos with }, handshake := { hand with } }
  | runRequest => exact { hsound with position := { pos with }, handshake := { hand with } }
  | requested => exact { hsound with position := { pos with }, handshake := { hand with } }
  | settings _ c mark l0 l1 hc =>
    exact { hsound with pend := hc hsound.pend, position := { pos with }, handshake := { hand with } }
  | pushed1 _ hq w r hr => exact { hsound with
      q1 := fun _ => ((hsound.q1 hq).rbPush hr).1, position := { pos with }, handshake := { hand with } }
  | pushed2 _ hq w r hr => exact { hsound with
      q2 := fun _ => ((hsound.q2 hq).rbPush hr).1, position := { pos with }, handshake := { hand with } }
  | popped1 _ hq v r d hr => exact { hsound with
      q1 := fun _ => ((hsound.q1 hq).rbPop hr).1, position := { pos with }, handshake := { hand with } }
  | popped2 _ hq v r d hr => exact { hsound with
      q2 := fun _ => ((hsound.q2 hq).rbPop hr).1, position := { pos with }, handshake := { hand with } }
  | queued _ isl r hr =>
    have hes : (countMod Params.moe.esPeriod s.encEs).toNat < Params.moe.esPeriod := by
      rw [countMod_toNat (by decide) (by decide)]
      exact Nat.mod_lt _ (by decide)
    exact { hsound with
      q0 := (hsound.q0.rbPush hr).1, encEs := hes, position := { pos with }, handshake := { hand with } }
  | written _ sp addr w hw ha => exact hsound.written w hw ha
  | ticked h => exact absurd h hs
  | emitted h => exact absurd h hs
  | notDue h => exact absurd h hs
  | rendered h => exact absurd h hs
  | evaluated h => exact absurd h hs

theorem State.Sound.respond {P : Params} {s : State} (h : s.Sound P) (st : Status) (vs : List Word) :
    (Machine.respond st vs s).Sound P := by
  unfold Machine.respond
  split <;> exact { h with position := { h.position with }, handshake := { h.handshake with } }

theorem State.Sound.rx {P : Params} {s : State} (h : s.Sound P) (pt : Port) : rxWaiting (rxOf s pt) := by
  cases pt
  · exact h.rxP
  · exact h.rxC1
  · exact h.rxC2

theorem State.Sound.withRx {P : Params} {s : State} (h : s.Sound P) (pt : Port) {ws : List Word} (hw : rxWaiting ws) :
    (withRx s pt ws).Sound P := by
  cases pt
  · exact { h with rxP := hw, position := { h.position with }, handshake := { h.handshake with } }
  · exact { h with rxC1 := hw, position := { h.position with }, handshake := { h.handshake with } }
  · exact { h with rxC2 := hw, position := { h.position with }, handshake := { h.handshake with } }

/-- Soundness does not see the issuer. -/
theorem State.Sound.issuer {P : Params} {s : State} (h : s.Sound P) (a : Agent) : { s with issuer := a }.Sound P :=
  { h with position := { h.position with }, handshake := { h.handshake with } }

/-- A word on a port leaves a sound state sound. -/
theorem takeWord_sound {s t : State} {pt : Port} {w : Word} (hsound : s.Sound .moe)
    (h : takeWord exec pt w s = .next t) : t.Sound .moe := by
  rcases takeWord_effect h with ⟨ws, rfl, hw⟩ | ⟨ws, st, vs, u, heff, rfl, hw⟩
  · exact hsound.withRx pt hw
  · exact (heff.sound pt.agent_ne_seq ((hsound.withRx pt (hw (hsound.rx pt))).issuer _)).respond st vs

/-! ### SEQ's steps keep the invariant -/

/-- An evaluation of the coordinator, read as an update of the pieces it may write: the configuration is the old or the
pending one, the line slots stand or lose their values, and handshake and lines stay sound (43 R226). -/
theorem evaluate_update {s : State} (hand : HandshakeSound s) (hl : LineSound .moe s.seq s.vsync s.ln)
    (hrun : s.seq = .run → s.vsync = true ∧ s.ln = 0#16) :
    ∃ tx q g v l c o m d, evaluate .moe s =
      { s with txRun := tx, seq := q, xgnt := g, vsync := v, ln := l, act := c, ovlOk := o, lb := m, diValid := d } ∧
      (c = s.act ∨ c = s.pend) ∧ (m = s.lb ∨ m = []) ∧ (g = true ↔ q = .parked) ∧ (tx = true ↔ q = .run) ∧
      LineSound .moe q v l ∧ (s.seq = .run → q = .run ∨ q = .quiesce) := by
  obtain ⟨hg, ht⟩ := hand
  have tx_false : s.seq ≠ .run → s.txRun = false := fun hne => Bool.eq_false_iff.2 fun h => hne (ht.1 h)
  have gnt_false : s.seq ≠ .parked → s.xgnt = false := fun hne => Bool.eq_false_iff.2 fun h => hne (hg.1 h)
  -- a session runs at line 0 of blanking, whether it starts or goes on
  have running : LineSound .moe .run true 0#16 :=
    ⟨fun _ => by decide, nofun, nofun, nofun, nofun⟩
  have stopped : ∀ l, LineSound .moe .stopped false l := fun l =>
    ⟨nofun, nofun, fun _ => rfl, nofun, nofun⟩
  rcases evaluate_cases .moe s with h | ⟨hs, -, h⟩ | ⟨hs, -, -, h⟩ | ⟨hs, -, -, -, h⟩ | ⟨hs, -, -, -, h⟩ |
    ⟨hs, -, -, h⟩ | ⟨hs, -, -, hv, h⟩ | ⟨hs, -, -, -, h⟩ | ⟨hs, -, -, h⟩
  · exact ⟨_, _, _, _, _, _, _, _, _, h, .inl rfl, .inl rfl, hg, ht, hl, fun hr => .inl hr⟩
  · obtain ⟨hv, hln⟩ := hrun hs
    refine ⟨_, _, _, _, _, _, _, _, _, h, .inl rfl, .inl rfl, ?_, ?_, ?_, fun _ => .inr rfl⟩
    · simp [gnt_false, hs]
    · simp
    · exact { hl with active_line := nofun, stopped := nofun, quiesce := fun _ => ⟨hv, hln⟩, parked := nofun }
  · have hne : s.seq ≠ .run := by rcases hs with hs | hs <;> rw [hs] <;> decide
    refine ⟨_, _, _, _, _, _, _, _, _, h, .inl rfl, .inl rfl, ?_, ?_, ?_, fun hr => absurd hr hne⟩
    · simp
    · simp [tx_false hne]
    · refine { hl with active_line := nofun, stopped := nofun, quiesce := nofun, parked := fun _ hv => ?_ }
      rcases hs with hs | hs
      · exact (hl.quiesce hs).2
      · exact bool_absurd hv (hl.stopped hs)
  · refine ⟨_, _, _, _, _, _, _, _, _, h, .inl rfl, .inl rfl, ?_, ?_, stopped _, fun hr => ?_⟩
    · simp [gnt_false, hs]
    · simp [tx_false, hs]
    · rw [hs] at hr; cases hr
  · obtain ⟨hv, hln⟩ := hl.quiesce hs
    refine ⟨_, _, _, _, _, _, _, _, _, h, .inl rfl, .inl rfl, ?_, ?_, ?_, fun _ => .inl rfl⟩
    · simp [gnt_false, hs]
    · simp
    · rw [hv, hln]; exact running
  · refine ⟨_, _, _, _, _, _, _, _, _, h, .inl rfl, .inl rfl, ?_, ?_, stopped _, fun hr => ?_⟩
    · simp
    · simp [tx_false, hs]
    · rw [hs] at hr; cases hr
  · refine ⟨_, _, _, _, _, _, _, _, _, h, .inl rfl, .inl rfl, ?_, ?_, ?_, fun _ => .inl rfl⟩
    · simp
    · simp
    · rw [hv, hl.parked hs hv]; exact running
  · exact ⟨_, _, _, _, _, _, _, _, _, h, .inr rfl, .inr rfl, ⟨fun hx => bool_absurd hx rfl, nofun⟩, by simp, running,
      fun _ => .inl rfl⟩
  · exact ⟨_, _, _, _, _, _, _, _, _, h, .inr rfl, .inr rfl,
      ⟨fun hx => bool_absurd hx (gnt_false (by rw [hs]; decide)), nofun⟩, by simp, running, fun _ => .inl rfl⟩

/-- An evaluation of the coordinator with its response, after which SEQ stands at `next`, leaves a sound state sound: outside
a service it stays outside, in a service it comes to the service's end. -/
theorem State.Sound.evaluate {s : State} (h : s.Sound .moe) (r : Option Response) {next : Svc}
    (hnext : (s.svc = .idle ∧ s.seq ≠ .run ∧ next = .idle) ∨ (s.svc = .xchk ∧ next = .finish)) :
    ({ Machine.evaluate .moe { s with issuer := .seq } with respS := r, svc := next } : State).Sound .moe := by
  have hrun : s.seq = .run → s.vsync = true ∧ s.ln = 0#16 := fun hr => by
    rcases hnext with ⟨-, hne, -⟩ | ⟨hs, -⟩
    · exact absurd hr hne
    · exact h.position.at_boundary (by simp [hs])
  obtain ⟨tx, q, g, v, l, c, o, m, d, he, hc, hm, hg, htx, hline, hq⟩ :=
    evaluate_update (s := { s with issuer := .seq }) { h.handshake with } h.position.line hrun
  rw [he]
  have hact : ConfSound .moe c := by rcases hc with rfl | rfl <;> [exact h.act; exact h.pend]
  have hlb : MemSound .moe .lb m := by rcases hm with rfl | rfl <;> [exact h.lb; exact memSound_nil]
  refine { h with act := hact, lb := hlb, handshake := ⟨hg, htx⟩, position := .of_place ?_ h.position.no_race ?_ hline }
  · rcases hnext with ⟨hs, -, rfl⟩ | ⟨hs, rfl⟩ <;> simp [h.position.busy_iff, hs]
  · rcases hnext with ⟨-, -, rfl⟩ | ⟨hs, rfl⟩
    · trivial
    · exact hq (h.position.in_service (by simp [hs]) (by simp [hs]))

/-- The advance after a blanking line comes to a sound line. -/
theorem afterBlank_line {s : State} (h : LineSound .moe s.seq s.vsync s.ln) (hr : s.seq = .run) (hv : s.vsync = true) :
    LineSound .moe (afterBlank .moe s).seq (afterBlank .moe s).vsync (afterBlank .moe s).ln := by
  have hln : s.ln.toNat < 45 := h.blank_line hv
  have not_quiesce : s.seq ≠ .quiesce := by rw [hr]; decide
  have not_parked : s.seq ≠ .parked := by rw [hr]; decide
  unfold afterBlank
  split
  · exact ⟨nofun, fun _ _ => (by decide : 0 < 480), fun _ => rfl, fun hq => absurd hq not_quiesce,
      fun hp => absurd hp not_parked⟩
  · next hne =>
    have hne : s.ln.toNat + 1 ≠ 45 := hne
    have hnext : (s.ln + 1#16).toNat < 45 := by
      rw [BitVec.toNat_add]; simp only [BitVec.reduceToNat]; omega
    exact ⟨fun _ => hnext, fun _ h0 => bool_absurd hv h0, h.stopped, fun hq => absurd hq not_quiesce,
      fun hp => absurd hp not_parked⟩

theorem afterRend_ne_idle (s : State) : afterRend .moe s ≠ .idle := by unfold afterRend; split <;> simp

/-- After an active line SEQ comes to the frame boundary or to the advance, as the line says. -/
theorem afterRend_place {s : State} (hr : s.seq = .run) (hv : s.vsync = false) (hln : s.ln.toNat < 480) :
    PlaceSound .moe s.seq s.vsync s.ln (afterRend .moe s) := by
  unfold afterRend
  split
  · exact hr
  · next hne => exact ⟨hr, hv, Nat.lt_of_le_of_ne hln hne⟩

/-- Every step of SEQ leaves a sound state sound. -/
theorem SeqStep.sound {s t : State} (h : SeqStep s t) (hsound : s.Sound .moe) : t.Sound .moe := by
  have pos := hsound.position
  have hand := hsound.handshake
  have place := pos.place
  have line := pos.line
  cases h with
  | wait => exact hsound
  | poll hs hr => exact hsound.evaluate _ (.inl ⟨hs, hr, rfl⟩)
  | xchk hs => exact hsound.evaluate _ (.inr ⟨hs, rfl⟩)
  | tick hs =>
    rw [hs] at place
    exact { hsound with
      position := pos.within (by simp [hs]) (by simp) rfl place line, handshake := { hand with } }
  | pkt hs tail a sil out valid d r hq hsil =>
    rw [hs] at place
    refine { hsound with q0 := hq hsound.q0, silIdx := hsil hsound.silIdx, handshake := { hand with }, position := ?_ }
    cases hv : s.vsync
    · refine pos.within (by simp [hs]) (by simp) rfl ?_ ?_
      · exact ⟨place, rfl⟩
      · rw [hv] at line; exact line
    · refine pos.within (by simp [hs]) (by simp) rfl ?_ ?_
      · exact ⟨place, rfl⟩
      · rw [hv] at line; exact line
  | blank hs =>
    rw [hs] at place
    obtain ⟨hr, hv⟩ := place
    have hline := afterBlank_line line hr hv
    unfold afterBlank at hline ⊢
    split at hline <;> next hln =>
      simp only [hln, if_true, if_false]
      exact { hsound with
        position := pos.within (by simp [hs]) (by simp) rfl (.inl hr) hline, handshake := { hand with } }
  | rend hs =>
    rw [hs] at place
    obtain ⟨hr, hv⟩ := place
    refine { hsound with
      lb := hsound.lb.renderLine (s := { s with issuer := .seq }), handshake := { hand with }, position := ?_ }
    exact pos.within (by simp [hs]) (afterRend_ne_idle s) rfl (afterRend_place hr hv (line.active_line hr hv)) line
  | begin hs =>
    rw [hs] at place
    exact { hsound with
      position := pos.within (by simp [hs]) (by simp [beginRend]) rfl ⟨place.1, place.2, (by decide : 0 < 640)⟩ line
      handshake := { hand with } }
  | read r hs held =>
    rw [hs] at place
    exact { hsound with
      position := pos.within (by simp [hs]) (by simp) rfl place line, handshake := { hand with } }
  | put r hs m hm =>
    rw [hs] at place
    obtain ⟨hr, hv, hx⟩ := place
    have hx' : (r.after .moe).x < Params.moe.wOut := by
      unfold RendPos.after
      split
      · assumption
      · exact (by decide : 0 < 640)
    exact { hsound with
      lb := hm hx hsound.lb
      position := pos.within (by simp [hs]) (by simp) rfl ⟨hr, hv, hx'⟩ line, handshake := { hand with } }
  | publish r hs =>
    rw [hs] at place
    obtain ⟨hr, hv, -⟩ := place
    refine { hsound with handshake := { hand with }, position := ?_ }
    exact pos.within (by simp [hs]) (afterRend_ne_idle s) rfl (afterRend_place hr hv (line.active_line hr hv)) line
  | advance hs =>
    rw [hs] at place
    obtain ⟨hr, hv, hln⟩ := place
    have hln : s.ln.toNat + 1 < 480 := hln
    have hnext : (s.ln + 1#16).toNat < 480 := by
      rw [BitVec.toNat_add]; simp only [BitVec.reduceToNat]; omega
    have hline : LineSound .moe s.seq s.vsync (s.ln + 1#16) :=
      ⟨fun h1 => bool_absurd h1 hv, fun _ _ => hnext, line.stopped, fun hq => absurd (hr.symm.trans hq) (by decide),
        fun hp => absurd (hr.symm.trans hp) (by decide)⟩
    exact { hsound with
      position := pos.within (by simp [hs]) (by simp) rfl (.inl hr) hline, handshake := { hand with } }
  | enter hs =>
    rw [hs] at place
    have place : s.seq = .run := place
    have hline : LineSound .moe s.seq true 0#16 := by
      rw [place]; exact ⟨fun _ => (by decide : 0 < 45), nofun, nofun, nofun, nofun⟩
    exact { hsound with
      position := pos.within (by simp [hs]) (by simp) rfl ⟨place, rfl, rfl⟩ hline, handshake := { hand with } }
  | count hs =>
    rw [hs] at place
    exact { hsound with
      position := pos.within (by simp [hs]) (by simp) rfl place line, handshake := { hand with } }
  | latch hs =>
    rw [hs] at place
    have hlb : MemSound .moe .lb (Machine.latch s).lb := by
      unfold Machine.latch
      dsimp only
      split <;> [exact memSound_nil; exact hsound.lb]
    exact { hsound with
      lb := hlb, act := hsound.pend
      position := pos.within (by simp [hs]) (by simp) rfl place line, handshake := { hand with } }
  | check hs =>
    rw [hs] at place
    exact { hsound with
      position := pos.within (by simp [hs]) (by simp) rfl place line, handshake := { hand with } }
  | finish hs =>
    exact { hsound with
      position := .of_place (by simp [leaveService]) (fun _ => rfl) trivial line, handshake := { hand with } }

/-! ### The step -/

theorem ringSound_reset {α : Type} {n : Nat} (hn : 0 < n) : RingSound n (Ring.reset : Ring α) where
  head_lt := hn
  tail_lt := hn
  wf := rfl
  slots := nofun
  written k hk := by
    have hk : k < (0 + (n - 0)) % n := hk
    rw [Nat.zero_add, Nat.sub_zero, Nat.mod_self] at hk
    exact absurd hk (Nat.not_lt_zero _)

theorem confSound_reset : ConfSound .moe .reset := ⟨rfl, rfl, rfl, by decide⟩

/-- Reset in any state gives a sound state. -/
theorem applyReset_sound (s : State) : (applyReset .moe s).Sound .moe where
  q0 := ringSound_reset (by decide)
  q1 _ := ringSound_reset (by decide)
  q2 _ := ringSound_reset (by decide)
  txt := memSound_nil
  fb := memSound_nil
  ls := memSound_nil
  ovl := memSound_nil
  lb := memSound_nil
  pend := confSound_reset
  act := confSound_reset
  position := .of_place (by simp [applyReset, State.resetAt]) (fun _ => rfl) trivial
    ⟨nofun, nofun, fun _ => rfl, nofun, nofun⟩
  handshake := ⟨⟨nofun, nofun⟩, ⟨nofun, nofun⟩⟩
  encEs := (by decide : 0 < 48)
  silIdx := (by decide : 0 < 48)
  fault := (by decide : 0#32 &&& 1#32 = 0#32)
  rxP := ⟨1, rfl⟩
  rxC1 := ⟨1, rfl⟩
  rxC2 := ⟨1, rfl⟩

/-- Settles O51: reset of the reset state is the reset state. -/
theorem invariantAtReset : Obligations.InvariantAtReset := applyReset_sound State.reset

/-- A `LINE_REQ` leaves a sound state sound: entry leaves the place `idle`, the fault bit is a defined one. -/
theorem takeLineReq_sound {s : State} (h : s.Sound .moe) : (takeLineReq s).Sound .moe := by
  rcases takeLineReq_cases s with ⟨-, -, ht⟩ | ⟨hr, hb, ht⟩ | ⟨-, ht⟩ <;> rw [ht]
  · have hf : (s.fault ||| 1#32) &&& 1#32 = s.fault ||| 1#32 := by
      rw [BitVec.and_comm, BitVec.and_or_distrib_left, BitVec.and_self, BitVec.and_comm, h.fault]
    exact { h with fault := hf, position := { h.position with }, handshake := { h.handshake with } }
  · exact { h with
      position := .of_place (by simp [enterService]) (fun h0 => bool_absurd rfl h0) hr h.position.line
      handshake := { h.handshake with } }
  · exact h

/-- Soundness does not see the events to come. -/
theorem State.Sound.inputs {P : Params} {s : State} (h : s.Sound P) (es : List Event) : { s with inputs := es }.Sound P :=
  { h with position := { h.position with }, handshake := { h.handshake with } }

/-- Settles O52: each kind of event keeps the invariant, SEQ's steps place by place. -/
theorem stepKeepsTheInvariant : Obligations.StepKeepsTheInvariant := by
  unfold Obligations.StepKeepsTheInvariant
  intro s t hsound h
  rcases step_cases s with ⟨-, he⟩ | ⟨e, es, -, he⟩ <;> rw [he] at h
  · exact (seqStep_cases h).sound hsound
  · have hsound := hsound.inputs es
    cases e with
    | word pt w => exact takeWord_sound hsound h
    | lineReq => cases h; exact takeLineReq_sound hsound
    | txIdle level =>
      cases h
      exact { hsound with position := { hsound.position with }, handshake := { hsound.handshake with } }
    | reset => cases h; exact applyReset_sound _
    | seq => exact (seqStep_cases h).sound hsound
    | seqByAccess => exact (seqAccessStep_cases h).sound hsound

/-! ### Reset and the entry to a line service -/

/-- Settles O50. -/
theorem resetLeavesTheResetState : Obligations.ResetLeavesTheResetState := by
  unfold Obligations.ResetLeavesTheResetState
  intro s es hin
  refine ⟨applyReset .moe { s with inputs := es }, step_reset hin, rfl, rfl, rfl, rfl, rfl, rfl, rfl, rfl, rfl, rfl, rfl,
    rfl, fun a => ⟨rfl, rfl, rfl, rfl, rfl⟩, fun pt => ?_, fun a => ?_, rfl⟩
  · cases pt <;> rfl
  · cases a <;> rfl

/-- Settles O46. -/
theorem lineReqEntersOrOverruns : Obligations.LineReqEntersOrOverruns := by
  unfold Obligations.LineReqEntersOrOverruns
  intro s es hin hr
  rw [step_lineReq hin]
  rcases takeLineReq_cases { s with inputs := es } with ⟨-, hb, ht⟩ | ⟨-, hb, ht⟩ | ⟨hne, -⟩
  · exact ⟨fun h0 => bool_absurd hb h0, fun _ => by rw [ht]; rfl⟩
  · exact ⟨fun _ => by rw [ht]; rfl, fun h1 => bool_absurd h1 hb⟩
  · exact absurd hr hne

end Sys2Proof.Machine

end

section
/-! PROOFS. The fields of the configuration registers as numbers, and the coordinator case by case
(10_state R55 to R65, 43_cross_core R226). -/

namespace Sys2Proof.Machine

/-! ### Fields as numbers -/

section Fields
variable (w : Word) (c : Conf)

theorem field_0_0 : field 0 0 w = w.toNat % 2 := by simp [field]
theorem field_1_1 : field 1 1 w = w.toNat / 2 % 2 := by simp [field]
theorem field_15_0 : field 15 0 w = w.toNat % 65536 := by simp [field]

theorem field_31_16 : field 31 16 w = w.toNat / 65536 := by
  have hw := w.isLt
  simp only [field, Nat.reducePow, Nat.reduceSub, Nat.reduceAdd]
  omega

theorem field_31_31 : field 31 31 w = w.toNat / 2147483648 := by
  have hw := w.isLt
  simp only [field, Nat.reducePow, Nat.reduceSub, Nat.reduceAdd]
  omega

theorem aspect_eq : aspect c = decide (c.mode.toNat % 2 = 1) := by rw [aspect, field_0_0]
theorem scan_eq : scan c = decide (c.mode.toNat / 2 % 2 = 1) := by rw [scan, field_1_1]
theorem selRow_eq : selRow c = c.selrow.toNat % 65536 := field_15_0 _
theorem selEn_eq : selEn c = decide (c.selrow.toNat / 2147483648 = 1) := by rw [selEn, field_31_31]
theorem ovlActive_eq : ovlActive c = decide (c.ovlCtrl.toNat % 2 = 1) := by rw [ovlActive, field_0_0]
theorem ovlMoving_eq : ovlMoving c = decide (c.ovlCtrl.toNat / 2 % 2 = 1) := by rw [ovlMoving, field_1_1]
theorem ovlX_eq : ovlX c = c.ovlPos.toNat % 65536 := field_15_0 _
theorem ovlY_eq : ovlY c = c.ovlPos.toNat / 65536 := field_31_16 _
theorem ovlW_eq : ovlW c = c.ovlSize.toNat % 65536 := field_15_0 _
theorem ovlH_eq : ovlH c = c.ovlSize.toNat / 65536 := field_31_16 _

theorem overlayCheck_eq : overlayCheck .moe c = (decide (c.ovlCtrl.toNat % 2 = 1) &&
    decide (c.ovlSize.toNat % 65536 ≤ 256) && decide (c.ovlSize.toNat / 65536 ≤ 240)) := by
  rw [overlayCheck, ovlActive_eq, ovlW_eq, ovlH_eq]; rfl

end Fields

/-! ### The coordinator, one equation for each row of R226 -/

section Evaluate
variable {P : Params} {s : State}

theorem evaluate_run_request (hs : s.seq = .run) (h : s.xreq = true ∨ s.runReq = false) :
    evaluate P s = { s with txRun := false, seq := .quiesce } := by rw [evaluate, hs]; exact if_pos h

theorem evaluate_run (hs : s.seq = .run) (hx : s.xreq = false) (hr : s.runReq = true) : evaluate P s = s := by
  rw [evaluate, hs]; exact if_neg (by simp [hx, hr])

theorem evaluate_quiesce (hs : s.seq = .quiesce) : evaluate P s =
    if s.txIdle then if s.xreq then grantExclusive s else if s.runReq = false then stopSession s else resumeRun s
    else s := by rw [evaluate, hs]

theorem evaluate_parked_eq (hs : s.seq = .parked) : evaluate P s =
    if s.xreq then s
    else if s.runReq then
      if s.vsync = false then sessionStart P { s with xgnt := false } else resumeRun { s with xgnt := false }
    else stopSession { s with xgnt := false } := by rw [evaluate, hs]

theorem evaluate_stopped (hs : s.seq = .stopped) : evaluate P s =
    if s.xreq then if s.txIdle then grantExclusive s else s else if s.runReq then sessionStart P s else s := by
  rw [evaluate, hs]

end Evaluate

/-- The session start with its fields read (44 R253; 41 R166). -/
theorem sessionStart_eq (s : State) : sessionStart .moe s = { s with
    act := s.pend
    ovlOk := decide (s.pend.ovlCtrl.toNat % 2 = 1) && decide (s.pend.ovlSize.toNat % 65536 ≤ 256) &&
      decide (s.pend.ovlSize.toNat / 65536 ≤ 240)
    lb := [], vsync := true, ln := 0#16, diValid := false, txRun := true, seq := .run } := by
  rw [← overlayCheck_eq]; rfl

/-- Settles O45: each row is one branch of the coordinator's evaluation. -/
theorem xchkEvaluatesTheCoordinator : Obligations.XchkEvaluatesTheCoordinator := by
  unfold Obligations.XchkEvaluatesTheCoordinator
  intro s hi ok started
  have key : ∀ u : State, evaluate .moe s = u → exec .xchk s = .next { u with respS := ok } := fun u hu => by
    rw [exec_xchk hi, hu]
  refine ⟨fun hs h => key _ (evaluate_run_request hs h), fun hs hx hr => key _ (evaluate_run hs hx hr),
    fun hs ht => key _ (by simp [evaluate_quiesce hs, ht]),
    fun hs ht hx => key (grantExclusive s) (by simp [evaluate_quiesce hs, ht, hx]),
    fun hs ht hx hr => key (stopSession s) (by simp [evaluate_quiesce hs, ht, hx, hr]),
    fun hs ht hx hr => key (resumeRun s) (by simp [evaluate_quiesce hs, ht, hx, hr]),
    fun hs hx => key _ (by simp [evaluate_parked_eq hs, hx]),
    fun hs hx hr hv => ?_,
    fun hs hx hr hv => key (resumeRun { s with xgnt := false }) (by simp [evaluate_parked_eq hs, hx, hr, hv]),
    fun hs hx hr => key (stopSession { s with xgnt := false }) (by simp [evaluate_parked_eq hs, hx, hr]),
    fun hs hx ht => key (grantExclusive s) (by simp [evaluate_stopped hs, hx, ht]),
    fun hs hx ht => key _ (by simp [evaluate_stopped hs, hx, ht]),
    fun hs hx hr => ?_, fun hs hx hr => key _ (by simp [evaluate_stopped hs, hx, hr])⟩
  · rw [key (sessionStart .moe { s with xgnt := false }) (by simp [evaluate_parked_eq hs, hx, hr, hv]), sessionStart_eq]
  · rw [key (sessionStart .moe s) (by simp [evaluate_stopped hs, hx, hr]), sessionStart_eq]
end Sys2Proof.Machine
end

section
/-! PROOFS. The renderer: the scaling maps, what the pixels of a line are, and `REND` access by access
(41_scanline_renderer R152 to R171, 20_memory R84, R89). -/

namespace Sys2Proof.Machine

/-! ### The scaling maps (R153 to R156) -/

section Maps
variable {out lead trail src : Nat}

theorem extentOf_eq (out lead trail : Nat) : extentOf out lead trail = ⟨lead, trail, out - (lead + trail)⟩ := by
  unfold extentOf
  split
  · rw [Nat.sub_eq_zero_of_le (by assumption)]
  · rfl

/-- The positions outside the margins are the drawn ones from the leading margin on. -/
theorem inMargin_extentOf (i : Nat) :
    inMargin (extentOf out lead trail) out i = false ↔ lead ≤ i ∧ i < lead + (out - (lead + trail)) := by
  simp only [extentOf_eq, inMargin, Bool.or_eq_false_iff, decide_eq_false_iff_not]
  omega

theorem sourceIndex_lt (hsrc : 0 < src) {e : Extent} {i : Nat} (hi : i < e.lead + e.drawn) (hl : e.lead ≤ i) :
    sourceIndex e src i < src := by
  have hd : i - e.lead < e.drawn := by omega
  rw [sourceIndex, Nat.div_lt_iff_lt_mul (by omega), Nat.mul_comm src]
  exact Nat.mul_lt_mul_of_pos_right hd hsrc

theorem sourceIndex_mono (e : Extent) (src : Nat) {i j : Nat} (h : i ≤ j) : sourceIndex e src i ≤ sourceIndex e src j :=
  Nat.div_le_div_right (Nat.mul_le_mul_right _ (by omega))

theorem sourceIndex_lead (e : Extent) (src : Nat) : sourceIndex e src e.lead = 0 := by
  simp [sourceIndex]

/-- A source no longer than the drawn size is shown to its last element. -/
theorem sourceIndex_last (hsrc : 0 < src) {e : Extent} (hle : src ≤ e.drawn) :
    sourceIndex e src (e.lead + e.drawn - 1) = src - 1 := by
  have hpos : e.lead + e.drawn - 1 - e.lead = e.drawn - 1 := by omega
  rw [sourceIndex, hpos, Nat.div_eq_iff (by omega), Nat.sub_mul, Nat.sub_mul, Nat.one_mul, Nat.one_mul,
    Nat.mul_comm src]
  have hmul : e.drawn ≤ e.drawn * src := Nat.le_mul_of_pos_right _ hsrc
  omega

theorem horizontal_extent (P : Params) (c : Conf) : ∃ l t, horizontal P c = extentOf P.wOut l t := by
  unfold horizontal; split <;> exact ⟨_, _, rfl⟩

theorem vertical_extent (P : Params) (c : Conf) : ∃ l t, vertical P c = extentOf P.vActive l t := by
  unfold vertical; split <;> exact ⟨_, _, rfl⟩

end Maps

/-- Settles O34: both directions have an extent of given margins, on which the map is a division by the drawn size. -/
theorem scalingMapsStayInTheSource : Obligations.ScalingMapsStayInTheSource := by
  unfold Obligations.ScalingMapsStayInTheSource
  intro P c hok e out src he
  obtain ⟨hw, -, hh, -⟩ := sizes_of_params_ok hok
  have hext : 0 < src ∧ ∃ l t, e = extentOf out l t := by
    rcases he with ⟨rfl, rfl, rfl⟩ | ⟨rfl, rfl, rfl⟩
    · exact ⟨hw, horizontal_extent P c⟩
    · exact ⟨hh, vertical_extent P c⟩
  obtain ⟨hsrc, l, t, rfl⟩ := hext
  refine ⟨fun x _ hm => ?_, fun x x' hle _ _ _ => sourceIndex_mono _ _ hle, fun _ => ⟨sourceIndex_lead _ _,
    sourceIndex_last hsrc⟩⟩
  rw [inMargin_extentOf] at hm
  refine ⟨hm.1, rfl, sourceIndex_lt hsrc ?_ hm.1⟩
  rw [extentOf_eq]
  exact hm.2

/-- Outside the margins the maps of this hardware stay in the source. -/
theorem sourceIndex_horizontal_lt {c : Conf} {x : Nat} (h : inMargin (horizontal .moe c) 640 x = false) :
    sourceIndex (horizontal .moe c) 256 x < 256 := by
  obtain ⟨l, t, he⟩ := horizontal_extent .moe c
  rw [he] at h ⊢
  have hm := (inMargin_extentOf (out := 640) x).1 h
  exact sourceIndex_lt (by decide) (by rw [extentOf_eq]; exact hm.2) hm.1

theorem sourceIndex_vertical_lt {c : Conf} {y : Nat} (h : inMargin (vertical .moe c) 480 y = false) :
    sourceIndex (vertical .moe c) 240 y < 240 := by
  obtain ⟨l, t, he⟩ := vertical_extent .moe c
  rw [he] at h ⊢
  have hm := (inMargin_extentOf (out := 480) y).1 h
  exact sourceIndex_lt (by decide) (by rw [extentOf_eq]; exact hm.2) hm.1

/-! ### The plan of a pixel, one equation for each kind (R152, R163, R164) -/

section Plans
variable {P : Params} {s : State} {y x : Nat}

theorem drawnPlan_margin
    (h : inMargin (vertical P s.act) P.vActive y = true ∨ inMargin (horizontal P s.act) P.wOut x = true) :
    drawnPlan P s y x = (.margin, .fill P.marginPix) := by
  unfold drawnPlan
  exact if_pos (by simpa only [Bool.or_eq_true] using h)

section Drawn
variable (hv : inMargin (vertical P s.act) P.vActive y = false) (hh : inMargin (horizontal P s.act) P.wOut x = false)
include hv hh

theorem drawnPlan_overlay (hon : overlayOn s = true) (hc : overlayCovers s.act (sourceIndex (vertical P s.act) P.hSrc y)
      (sourceIndex (horizontal P s.act) P.wSrc x) = true) :
    drawnPlan P s y x = (.overlay, .copy .ovl
      ((sourceIndex (vertical P s.act) P.hSrc y - ovlY s.act) * ovlW s.act +
        (sourceIndex (horizontal P s.act) P.wSrc x - ovlX s.act))) := by
  unfold drawnPlan
  simp [hv, hh, hon, hc]

theorem drawnPlan_source (h : overlayOn s = false ∨ overlayCovers s.act (sourceIndex (vertical P s.act) P.hSrc y)
      (sourceIndex (horizontal P s.act) P.wSrc x) = false) :
    drawnPlan P s y x = (.source,
      sourcePlan P s.act (sourceIndex (vertical P s.act) P.hSrc y) (sourceIndex (horizontal P s.act) P.wSrc x)) := by
  unfold drawnPlan
  rcases h with h | h <;> simp [hv, hh, h]

end Drawn

theorem drawnPixel_of_fill {st : RendStage} {p : Word} (h : drawnPlan P s y x = (st, .fill p)) (i : Nat) :
    drawnPixel P s y x i = some p := by rw [drawnPixel, h]; rfl

theorem drawnPixel_of_copy {st : RendStage} {sp : Space} {a : Nat} (h : drawnPlan P s y x = (st, .copy sp a)) (i : Nat) :
    drawnPixel P s y x i = some (rendRead P s sp a i) := by rw [drawnPixel, h]; rfl

theorem drawnPixel_of_glyph {st : RendStage} {cell row gx gy : Nat}
    (h : drawnPlan P s y x = (st, .glyph cell row gx gy)) (i : Nat) :
    drawnPixel P s y x i = some (glyphPixel P s.act row gx gy ((rendRead P s .txt (2 * cell) i).toNat % 256)
      (rendRead P s .txt (2 * cell + 1) (i + 2))) := by rw [drawnPixel, h]; rfl

theorem drawnPixel_of_skip {st : RendStage} (h : drawnPlan P s y x = (st, .skip)) (i : Nat) :
    drawnPixel P s y x i = none := by rw [drawnPixel, h]; rfl

end Plans

theorem overlayOn_of_text {s : State} (h : s.act.src = .text) : overlayOn s = s.ovlOk := by simp [overlayOn, h]

theorem overlayOn_of_not_text {s : State} (h : s.act.src ≠ .text) : overlayOn s = false := by simp [overlayOn, h]

theorem clearsLine_of_not_text {s : State} (h : s.act.src ≠ .text) : clearsLine s = false := by
  rw [clearsLine, overlayOn_of_not_text h, Bool.false_and]

/-! ### What a line rendered holds (R170) -/

/-- The line rendered holds at each of its pixels what the stages leave to be written, else what the slot held. -/
theorem memRead_renderLine {P : Params} {s : State} {x : Nat} (hx : x < P.wOut) :
    memRead (renderLine P s).lb (slotIndex s.lbWr * P.wOut + x) =
      (rendPixel P s x).or (memRead s.lb (slotIndex s.lbWr * P.wOut + x)) := by
  have hrow : (renderLine P s).lb = memWriteRow s.lb (slotIndex s.lbWr * P.wOut) (rendPixel P s) P.wOut := rfl
  rw [hrow, memRead_memWriteRow, if_pos (by omega), Nat.add_sub_cancel_left]
  cases rendPixel P s x <;> rfl

theorem rendPixel_of_drawn {P : Params} {s : State} {x : Nat} {p : Word}
    (h : drawnPixel P s s.ln.toNat x (s.draws + 4 * x) = some p) : rendPixel P s x = some (putValue P s p) := by
  have h' : drawnPixel P s s.ln.toNat x (s.draws + drawsPerPixel * x) = some p := h
  rw [rendPixel, linePixel, h', Option.map_some]

theorem rendPixel_of_undrawn {P : Params} {s : State} {x : Nat}
    (h : drawnPixel P s s.ln.toNat x (s.draws + 4 * x) = none) :
    rendPixel P s x = if clearsLine s then some (putValue P s P.clearPix) else none := by
  have h' : drawnPixel P s s.ln.toNat x (s.draws + drawsPerPixel * x) = none := h
  rw [rendPixel, linePixel, h']
  cases clearsLine s <;> rfl

theorem slotIndex_mul (b : Bool) (n : Nat) : slotIndex b * n = n * b.toNat := by cases b <;> simp [slotIndex]

/-- A pixel as this hardware shows it: darkened on odd lines when `MODE.SCAN` is set, cut to 16 bits (R168, R169). -/
def shownPixel (s : State) (p : Word) : Word :=
  if s.act.mode.toNat / 2 % 2 = 1 ∧ s.ln.toNat % 2 = 1 then (p >>> 1) &&& 0x7BEF#32 else p &&& 0xFFFF#32

theorem putValue_eq_shownPixel (s : State) (p : Word) : putValue .moe s p = shownPixel s p := by
  have hmask : ∀ q : Word, trunc 16 (q &&& 0x7BEF#32) = q &&& 0x7BEF#32 := fun q => by
    rw [trunc_16, BitVec.and_assoc]; rfl
  have hdark : (scan s.act && decide (s.ln.toNat % 2 = 1)) = true ↔
      s.act.mode.toNat / 2 % 2 = 1 ∧ s.ln.toNat % 2 = 1 := by
    rw [scan_eq, Bool.and_eq_true, decide_eq_true_iff, decide_eq_true_iff]
  rw [shownPixel, show putValue .moe s p = trunc 16 (fx .moe s.act s.ln.toNat p) from rfl, fx]
  by_cases h : s.act.mode.toNat / 2 % 2 = 1 ∧ s.ln.toNat % 2 = 1
  · rw [if_pos h, if_pos (hdark.2 h), dark_moe_eq_shift_mask, hmask]
  · rw [if_neg h, if_neg fun hd => h (hdark.1 hd), trunc_16]

/-- A pixel of 16 bits is shown whole. -/
theorem shownPixel_of_lt {s : State} {p : Word} (h : p.toNat < 65536) : shownPixel s p =
    if s.act.mode.toNat / 2 % 2 = 1 ∧ s.ln.toNat % 2 = 1 then (p >>> 1) &&& 0x7BEF#32 else p := by
  have hp : p &&& 0xFFFF#32 = p := by
    rw [← trunc_16, trunc, Nat.mod_eq_of_lt (show p.toNat < 2 ^ 16 from h), BitVec.ofNat_toNat, BitVec.setWidth_eq]
  rw [shownPixel, hp]

/-- A drawn pixel of this hardware stands in its place of the slot filled. -/
theorem memRead_renderLine_of_drawn {s : State} {x : Nat} {p : Word} (hx : x < 640)
    (h : drawnPixel .moe s s.ln.toNat x (s.draws + 4 * x) = some p) :
    memRead (renderLine .moe s).lb (640 * s.lbWr.toNat + x) = some (shownPixel s p) := by
  have hread := memRead_renderLine (P := .moe) (s := s) hx
  rw [slotIndex_mul, rendPixel_of_drawn h, putValue_eq_shownPixel] at hread
  exact hread

/-! ### Margins, frame, line, text and overlay -/

/-- Margins that leave nothing make every position a margin position (R158). -/
theorem inMargin_of_nothing {e : Extent} {out : Nat} (h : e.drawn = 0) (i : Nat) : inMargin e out i = true := by
  simp [inMargin, h]

/-- Settles O35. -/
theorem marginsAreMarginPix : Obligations.MarginsAreMarginPix := by
  unfold Obligations.MarginsAreMarginPix
  have extents : ∀ c : Conf, c.mode.toNat % 2 = 1 →
      horizontal .moe c = ⟨c.marginH.toNat % 65536, c.marginH.toNat / 65536,
        640 - (c.marginH.toNat % 65536 + c.marginH.toNat / 65536)⟩ ∧
      vertical .moe c = ⟨c.marginV.toNat % 65536, c.marginV.toNat / 65536,
        480 - (c.marginV.toNat % 65536 + c.marginV.toNat / 65536)⟩ := fun c hc => by
    have ha : aspect c = true := by rw [aspect_eq, decide_eq_true hc]
    rw [horizontal, vertical, if_pos ha, if_pos ha, extentOf_eq, extentOf_eq, field_15_0, field_31_16, field_15_0,
      field_31_16]
    exact ⟨rfl, rfl⟩
  refine ⟨extents, fun s hi => ⟨_, exec_rend hi, fun x hx => ?_⟩⟩
  have margin : inMargin (vertical .moe s.act) 480 s.ln.toNat = true ∨ inMargin (horizontal .moe s.act) 640 x = true →
      memRead (renderLine .moe s).lb (640 * s.lbWr.toNat + x) = some 0#32 := fun h => by
    rw [memRead_renderLine_of_drawn hx (drawnPixel_of_fill (drawnPlan_margin h) _), shownPixel]
    split <;> rfl
  refine ⟨margin, fun hc hm => margin ?_⟩
  obtain ⟨hh, hv⟩ := extents s.act hc
  rcases hm with hm | hm
  · exact .inr (inMargin_of_nothing (by rw [hh]; exact Nat.sub_eq_zero_of_le hm) x)
  · exact .inl (inMargin_of_nothing (by rw [hv]; exact Nat.sub_eq_zero_of_le hm) s.ln.toNat)

section Shown
variable {s : State} {x : Nat}

theorem racedValues_nil (h : s.raced = []) (sp : Space) (a : Nat) : racedValues s sp a = [] := by
  simp [racedValues, h]

/-- The glyph pixel of this hardware with its fields read (R161, R162). -/
theorem glyphPixel_moe (c : Conf) (row : Nat) (gx gy ch : Nat) (w : Word) :
    glyphPixel .moe c row gx gy ch w =
      (let fg := BitVec.ofNat 32 (w.toNat % 65536)
       let bg := BitVec.ofNat 32 (w.toNat / 65536)
       let lit := (Config.font ch gy).getLsbD (7 - gx)
       let selected := decide (c.selrow.toNat / 2147483648 = 1) && decide (c.selrow.toNat % 65536 = row)
       if selected then (if lit then bg else fg) else (if lit then fg else bg)) := by
  have hw := w.isLt
  have hbg : w.toNat / 65536 % 2 ^ Params.moe.pixw = w.toNat / 65536 :=
    Nat.mod_eq_of_lt (show w.toNat / 65536 < 2 ^ 16 by omega)
  have hlit : (fontRow .moe ch gy).getLsbD (Params.moe.gw - 1 - gx) = (Config.font ch gy).getLsbD (7 - gx) := by
    show (BitVec.ofNat 32 ((Config.font ch gy).toNat % 2 ^ 8)).getLsbD (7 - gx) = _
    rw [BitVec.getLsbD_ofNat, Nat.testBit_mod_two_pow, decide_eq_true (by omega), decide_eq_true (by omega)]
    rfl
  have hrow : decide (row = selRow c) = decide (c.selrow.toNat % 65536 = row) := by
    rw [selRow_eq]; exact decide_eq_decide.2 eq_comm
  simp only [glyphPixel, hbg, hlit, hrow, selEn_eq]
  generalize (decide (c.selrow.toNat / 2147483648 = 1) && decide (c.selrow.toNat % 65536 = row)) = sel
  cases sel <;> cases (Config.font ch gy).getLsbD (7 - gx) <;> rfl

variable (hx : x < 640) (hv : inMargin (vertical .moe s.act) 480 s.ln.toNat = false)
  (hh : inMargin (horizontal .moe s.act) 640 x = false)
include hx hv hh

/-- A drawn pixel of the framebuffer source (R159). -/
theorem frame_shown (hs : s.act.src = .frame) :
    memRead (renderLine .moe s).lb (640 * s.lbWr.toNat + x) =
      some (shownPixel s (rendRead .moe s .fb (s.act.bank * 256 * 240 + sourceIndex (vertical .moe s.act) 240 s.ln.toNat * 256
        + sourceIndex (horizontal .moe s.act) 256 x) (s.draws + 4 * x))) := by
  have hplan := drawnPlan_source (P := .moe) hv hh (.inl (overlayOn_of_not_text (by rw [hs]; decide)))
  rw [sourcePlan, hs] at hplan
  exact memRead_renderLine_of_drawn hx (drawnPixel_of_copy hplan _)

/-- A drawn pixel of the line-stream source (R160). -/
theorem line_shown (hs : s.act.src = .line) :
    memRead (renderLine .moe s).lb (640 * s.lbWr.toNat + x) =
      some (shownPixel s (rendRead .moe s .ls (sourceIndex (vertical .moe s.act) 240 s.ln.toNat % 2 * 256
        + sourceIndex (horizontal .moe s.act) 256 x) (s.draws + 4 * x))) := by
  have hplan := drawnPlan_source (P := .moe) hv hh (.inl (overlayOn_of_not_text (by rw [hs]; decide)))
  rw [sourcePlan, hs] at hplan
  exact memRead_renderLine_of_drawn hx (drawnPixel_of_copy hplan _)

/-- A drawn pixel of the text source under a valid overlay (R163). -/
theorem overlay_shown (hs : s.act.src = .text) (hok : s.ovlOk = true)
    (hc : overlayCovers s.act (sourceIndex (vertical .moe s.act) 240 s.ln.toNat)
      (sourceIndex (horizontal .moe s.act) 256 x) = true) :
    memRead (renderLine .moe s).lb (640 * s.lbWr.toNat + x) =
      some (shownPixel s (rendRead .moe s .ovl
        ((sourceIndex (vertical .moe s.act) 240 s.ln.toNat - s.act.ovlPos.toNat / 65536) * (s.act.ovlSize.toNat % 65536) +
          (sourceIndex (horizontal .moe s.act) 256 x - s.act.ovlPos.toNat % 65536)) (s.draws + 4 * x))) := by
  have hplan := drawnPlan_overlay (P := .moe) hv hh (by rw [overlayOn_of_text hs]; exact hok) hc
  rw [ovlX_eq, ovlY_eq, ovlW_eq] at hplan
  exact memRead_renderLine_of_drawn hx (drawnPixel_of_copy hplan _)

/-- A drawn pixel of the text source outside the overlay (R161, R162). -/
theorem text_shown (hs : s.act.src = .text)
    (hc : s.ovlOk = false ∨ overlayCovers s.act (sourceIndex (vertical .moe s.act) 240 s.ln.toNat)
      (sourceIndex (horizontal .moe s.act) 256 x) = false) :
    let xs := sourceIndex (horizontal .moe s.act) 256 x
    let ys := sourceIndex (vertical .moe s.act) 240 s.ln.toNat
    memRead (renderLine .moe s).lb (640 * s.lbWr.toNat + x) =
      some (shownPixel s (glyphPixel .moe s.act (ys / 8) (xs % 8) (ys % 8)
        ((rendRead .moe s .txt (2 * (ys / 8 * 32 + xs / 8)) (s.draws + 4 * x)).toNat % 256)
        (rendRead .moe s .txt (2 * (ys / 8 * 32 + xs / 8) + 1) (s.draws + 4 * x + 2)))) := by
  intro xs ys
  have hxs : xs < 256 := sourceIndex_horizontal_lt hh
  have hys : ys < 240 := sourceIndex_vertical_lt hv
  have hgrid : ¬(32 ≤ xs / 8 ∨ 30 ≤ ys / 8) := by omega
  have hplan := drawnPlan_source (P := .moe) hv hh (by rw [overlayOn_of_text hs]; exact hc)
  rw [sourcePlan, hs] at hplan
  exact memRead_renderLine_of_drawn hx (drawnPixel_of_glyph (hplan.trans (congrArg _ (if_neg hgrid))) _)

end Shown

theorem rendRead_eq {P : Params} {s : State} {sp : Space} {a i : Nat} {v : Word} (hr : s.raced = [])
    (hv : elementValue P s sp a = some v) : rendRead P s sp a i = v :=
  rendRead_of_value (racedValues_nil hr sp a) hv

/-- Settles O36. -/
theorem rendShowsFrameAndLine : Obligations.RendShowsFrameAndLine := by
  unfold Obligations.RendShowsFrameAndLine
  intro s x p hi hr hx _ hv hh hp xs ys hsrc
  refine ⟨_, exec_rend hi, ?_⟩
  rw [← shownPixel_of_lt hp]
  rcases hsrc with ⟨hs, hm⟩ | ⟨hs, hm⟩
  · exact (frame_shown hx hv hh hs).trans (congrArg (fun v => some (shownPixel s v)) (rendRead_eq (sp := .fb) hr hm))
  · exact (line_shown hx hv hh hs).trans (congrArg (fun v => some (shownPixel s v)) (rendRead_eq (sp := .ls) hr hm))

/-- Settles O37. -/
theorem rendShowsText : Obligations.RendShowsText := by
  unfold Obligations.RendShowsText
  intro s x cw w hi hr hx _ hv hh hs xs ys hc hcw hw fg bg lit selected p
  have hp : p.toNat < 65536 := by
    have hw := w.isLt
    have hfg : fg.toNat < 65536 := by rw [BitVec.toNat_ofNat]; omega
    have hbg : bg.toNat < 65536 := by rw [BitVec.toNat_ofNat]; omega
    show (if selected then (if lit then bg else fg) else (if lit then fg else bg)).toNat < 65536
    split <;> split <;> assumption
  refine ⟨_, exec_rend hi, ?_⟩
  rw [← shownPixel_of_lt hp]
  refine (text_shown hx hv hh hs hc).trans ?_
  rw [rendRead_eq (sp := .txt) hr hcw, rendRead_eq (sp := .txt) hr hw, glyphPixel_moe]

theorem overlayCovers_iff (c : Conf) (ys xs : Nat) : overlayCovers c ys xs = true ↔
    c.ovlPos.toNat % 65536 ≤ xs ∧ xs < c.ovlPos.toNat % 65536 + c.ovlSize.toNat % 65536 ∧
      c.ovlPos.toNat / 65536 ≤ ys ∧ ys < c.ovlPos.toNat / 65536 + c.ovlSize.toNat / 65536 := by
  simp only [overlayCovers, ovlX_eq, ovlY_eq, ovlW_eq, ovlH_eq, Bool.and_eq_true, decide_eq_true_eq, and_assoc]

/-- Settles O38. -/
theorem rendShowsTheOverlay : Obligations.RendShowsTheOverlay := by
  unfold Obligations.RendShowsTheOverlay
  intro s x p hi hr hx _ hv hh hs hok hp xs ys ox oy ow oh hx0 hx1 hy0 hy1 hm
  refine ⟨_, exec_rend hi, ?_⟩
  rw [← shownPixel_of_lt hp]
  exact (overlay_shown hx hv hh hs hok ((overlayCovers_iff _ _ _).2 ⟨hx0, hx1, hy0, hy1⟩)).trans
    (congrArg (fun v => some (shownPixel s v)) (rendRead_eq (sp := .ovl) hr hm))

/-- Each read of `REND` gives one of the element's candidates, where it has a value (20_memory R84, R89). -/
theorem rendRead_candidate (P : Params) (s : State) (sp : Space) (addr i : Nat) :
    ∃ c ∈ elementValue P s sp addr :: racedValues s sp addr, ∀ v, c = some v → rendRead P s sp addr i = v :=
  ⟨_, racedChoice_mem P (elementValue P s sp addr) (racedValues s sp addr) i, fun v hc => by rw [rendRead, hc]⟩

/-- Settles O42. -/
theorem rendReadsOldOrNew : Obligations.RendReadsOldOrNew := by
  unfold Obligations.RendReadsOldOrNew
  refine ⟨rendRead_candidate, ?_⟩
  intro s x hi hx _ hv hh xs ys shown
  refine ⟨_, exec_rend hi, fun hs => ?_, fun hs => ?_, ?_, ?_⟩
  · obtain ⟨c, hc, hval⟩ := rendRead_candidate .moe s .fb (s.act.bank * 256 * 240 + ys * 256 + xs) (s.draws + 4 * x)
    exact ⟨c, hc, _, hval, frame_shown hx hv hh hs⟩
  · obtain ⟨c, hc, hval⟩ := rendRead_candidate .moe s .ls (ys % 2 * 256 + xs) (s.draws + 4 * x)
    exact ⟨c, hc, _, hval, line_shown hx hv hh hs⟩
  · intro hs hok hc a
    obtain ⟨c, hm, hval⟩ := rendRead_candidate .moe s .ovl a (s.draws + 4 * x)
    exact ⟨c, hm, _, hval, overlay_shown hx hv hh hs hok hc⟩
  · intro hs hc a
    obtain ⟨c, hm, hval⟩ := rendRead_candidate .moe s .txt a (s.draws + 4 * x)
    obtain ⟨d, hd, hval'⟩ := rendRead_candidate .moe s .txt (a + 1) (s.draws + 4 * x + 2)
    refine ⟨c, hm, d, hd, _, _, hval, hval', ?_⟩
    exact (text_shown hx hv hh hs hc).trans (congrArg (fun p => some (shownPixel s p)) (glyphPixel_moe ..))

/-! ### Undrawn pixels and the line clear (R165) -/

theorem sourcePlan_skip_iff (P : Params) (c : Conf) (ys xs : Nat) :
    sourcePlan P c ys xs = .skip ↔ c.src = .text ∧ (P.cols ≤ xs / P.gw ∨ P.rows ≤ ys / P.gh) := by
  unfold sourcePlan
  cases c.src with
  | frame => simp
  | line => simp
  | text =>
    dsimp only
    split
    · next hg => exact ⟨fun _ => ⟨rfl, hg⟩, fun _ => rfl⟩
    · next hg => exact ⟨nofun, fun h => absurd h.2 hg⟩

/-- A plan puts a pixel unless it is to skip. -/
theorem drawnPixel_eq_none_iff (P : Params) (s : State) (y x i : Nat) :
    drawnPixel P s y x i = none ↔ (drawnPlan P s y x).2 = .skip := by
  rw [drawnPixel]
  cases (drawnPlan P s y x).2 <;> simp [planPixel, planReads, readAll]

/-- The pixels no stage draws: text pixels past the grid, outside margins and overlay. -/
theorem drawnPlan_skip_iff (P : Params) (s : State) (y x : Nat) :
    (drawnPlan P s y x).2 = .skip ↔
      inMargin (vertical P s.act) P.vActive y = false ∧ inMargin (horizontal P s.act) P.wOut x = false ∧
      ¬(overlayOn s = true ∧ overlayCovers s.act (sourceIndex (vertical P s.act) P.hSrc y)
        (sourceIndex (horizontal P s.act) P.wSrc x) = true) ∧
      sourcePlan P s.act (sourceIndex (vertical P s.act) P.hSrc y) (sourceIndex (horizontal P s.act) P.wSrc x) = .skip := by
  by_cases hm : inMargin (vertical P s.act) P.vActive y = true ∨ inMargin (horizontal P s.act) P.wOut x = true
  · rw [drawnPlan_margin hm]
    rcases hm with hm | hm <;> simp [hm]
  · rw [not_or, Bool.not_eq_true, Bool.not_eq_true] at hm
    obtain ⟨hv, hh⟩ := hm
    by_cases ho : overlayOn s = true ∧ overlayCovers s.act (sourceIndex (vertical P s.act) P.hSrc y)
        (sourceIndex (horizontal P s.act) P.wSrc x) = true
    · rw [drawnPlan_overlay hv hh ho.1 ho.2]
      simp [ho]
    · rw [drawnPlan_source hv hh (by simpa only [not_and_or, Bool.not_eq_true] using ho)]
      exact ⟨fun h => ⟨hv, hh, ho, h⟩, fun h => h.2.2.2⟩

/-- Settles O39. -/
theorem undrawnPixelsAreClearedOrKept : Obligations.UndrawnPixelsAreClearedOrKept := by
  unfold Obligations.UndrawnPixelsAreClearedOrKept
  intro P s x hx xs ys ox oy ow oh undrawn
  have characterised : drawnPixel P s s.ln.toNat x (s.draws + 4 * x) = none ↔ undrawn := by
    rw [drawnPixel_eq_none_iff, drawnPlan_skip_iff, overlayCovers_iff, sourcePlan_skip_iff]
    constructor
    · rintro ⟨hv, hh, ho, hs, hg⟩
      rw [overlayOn_of_text hs] at ho
      exact ⟨hs, hv, hh, ho, hg⟩
    · rintro ⟨hs, hv, hh, ho, hg⟩
      rw [overlayOn_of_text hs]
      exact ⟨hv, hh, ho, hs, hg⟩
  refine ⟨characterised, fun hu => ?_⟩
  have hclear : clearsLine s = true ↔ s.ovlOk = true ∧ s.act.ovlCtrl.toNat / 2 % 2 = 1 := by
    rw [clearsLine, overlayOn_of_text hu.1, ovlMoving_eq, Bool.and_eq_true, decide_eq_true_iff]
  have hslot : (if s.lbWr then P.wOut else 0) = slotIndex s.lbWr * P.wOut := by
    cases s.lbWr <;> simp [slotIndex]
  rw [hslot, memRead_renderLine hx, rendPixel_of_undrawn (characterised.2 hu)]
  by_cases hc : clearsLine s = true
  · rw [if_pos hc, if_pos (hclear.1 hc)]; rfl
  · rw [if_neg hc, if_neg (mt hclear.2 hc)]; rfl

/-! ### Without the text source (R167) -/

/-- The elements read for a plan, where each read gives the same in two states. -/
theorem readAll_congr {P : Params} {s s' : State} : ∀ {l : List (Space × Nat)} {i : Nat},
    (∀ e ∈ l, ∀ j, rendRead P s' e.1 e.2 j = rendRead P s e.1 e.2 j) → readAll P s' l i = readAll P s l i
  | [], _, _ => rfl
  | (sp, a) :: l, i, h => by
    rw [readAll, readAll, h (sp, a) List.mem_cons_self i,
      readAll_congr fun e he => h e (List.mem_cons_of_mem _ he)]

/-- Without the text source no plan reads the overlay. -/
theorem drawnPlan_reads_of_not_text {P : Params} {s : State} (h : s.act.src ≠ .text) (y x : Nat) :
    ∀ e ∈ planReads (drawnPlan P s y x).2, e.1 ≠ .ovl := by
  by_cases hm : inMargin (vertical P s.act) P.vActive y = true ∨ inMargin (horizontal P s.act) P.wOut x = true
  · rw [drawnPlan_margin hm]
    simp [planReads]
  · rw [not_or, Bool.not_eq_true, Bool.not_eq_true] at hm
    rw [drawnPlan_source hm.1 hm.2 (.inl (overlayOn_of_not_text h)), sourcePlan]
    cases hs : s.act.src with
    | text => exact absurd hs h
    | frame => simp [planReads]
    | line => simp [planReads]

/-- `s` with another overlay: its registers, its pixels and its flag. -/
def withOverlay (s : State) (ctrl pos size : Word) (okFlag : Bool) (pixels : Mem Word) : State :=
  { s with act := { s.act with ovlCtrl := ctrl, ovlPos := pos, ovlSize := size }, ovlOk := okFlag, ovl := pixels }

section WithoutText
variable {P : Params} {s : State} (h : s.act.src ≠ .text) (ctrl pos size : Word) (okFlag : Bool) (pixels : Mem Word)
include h

theorem drawnPlan_withOverlay (y x : Nat) :
    drawnPlan P (withOverlay s ctrl pos size okFlag pixels) y x = drawnPlan P s y x := by
  have hoff : overlayOn s = false := overlayOn_of_not_text h
  have hoff' : overlayOn (withOverlay s ctrl pos size okFlag pixels) = false :=
    overlayOn_of_not_text (s := withOverlay s ctrl pos size okFlag pixels) h
  unfold drawnPlan
  rw [hoff, hoff']
  rfl

theorem rendPixel_withOverlay (x : Nat) :
    rendPixel P (withOverlay s ctrl pos size okFlag pixels) x = rendPixel P s x := by
  have hread : ∀ e ∈ planReads (drawnPlan P s s.ln.toNat x).2, ∀ j,
      rendRead P (withOverlay s ctrl pos size okFlag pixels) e.1 e.2 j = rendRead P s e.1 e.2 j := by
    rintro ⟨sp, a⟩ he j
    have hne : sp ≠ .ovl := drawnPlan_reads_of_not_text h _ _ _ he
    cases sp with
    | ovl => exact absurd rfl hne
    | _ => rfl
  have hdrawn : ∀ i, drawnPixel P (withOverlay s ctrl pos size okFlag pixels) s.ln.toNat x i =
      drawnPixel P s s.ln.toNat x i := fun i => by
    rw [drawnPixel, drawnPixel, drawnPlan_withOverlay h, readAll_congr hread]
    cases (drawnPlan P s s.ln.toNat x).2 <;> rfl
  have hclear : clearsLine (withOverlay s ctrl pos size okFlag pixels) = clearsLine s :=
    (clearsLine_of_not_text (s := withOverlay s ctrl pos size okFlag pixels) h).trans (clearsLine_of_not_text h).symm
  have hline : ∀ i, linePixel P (withOverlay s ctrl pos size okFlag pixels) s.ln.toNat x i =
      linePixel P s s.ln.toNat x i := fun i => by rw [linePixel, linePixel, hdrawn, hclear]
  exact congrArg (Option.map (putValue P s)) (hline _)

end WithoutText

/-- Settles O40. -/
theorem overlayIgnoredWithoutText : Obligations.OverlayIgnoredWithoutText := by
  unfold Obligations.OverlayIgnoredWithoutText
  intro s ctrl pos size okFlag pixels hi h
  have hclear := clearsLine_of_not_text h
  refine ⟨hclear, fun x => ?_, _, _, exec_rend hi, exec_rend hi, ?_⟩
  · rw [stagePlan, if_pos rfl, hclear]; rfl
  · exact congrArg (fun f => memWriteRow s.lb (slotIndex s.lbWr * 640) f 640)
      (funext (rendPixel_withOverlay h ctrl pos size okFlag pixels))

end Sys2Proof.Machine

end

section
/-! PROOFS. `REND` taken access by access ends as `REND` taken as one step (44_system_and_memory_ops R251,
41_scanline_renderer R170, R171). -/

namespace Sys2Proof.Machine

/-- A line rendered does not see the issuer. -/
theorem renderLine_lb_issuer (P : Params) (s : State) (a : Agent) :
    (renderLine P { s with issuer := a }).lb = (renderLine P s).lb := by
  have hdrawn : ∀ x i, drawnPixel P { s with issuer := a } s.ln.toNat x i = drawnPixel P s s.ln.toNat x i := fun x i =>
    congrArg (planPixel P s.act (drawnPlan P s s.ln.toNat x).2) (readAll_congr fun _ _ _ => rfl)
  have hline : ∀ x i, linePixel P { s with issuer := a } s.ln.toNat x i = linePixel P s s.ln.toNat x i := fun x i => by
    rw [linePixel, linePixel, hdrawn]; rfl
  exact congrArg (fun f => memWriteRow s.lb (slotIndex s.lbWr * P.wOut) f P.wOut)
    (funext fun x => congrArg (Option.map (putValue P s)) (hline x _))

/-- A line rendered writes no element outside its slot. -/
theorem memRead_renderLine_outside {P : Params} {s : State} {a : Nat}
    (h : ¬(slotIndex s.lbWr * P.wOut ≤ a ∧ a < slotIndex s.lbWr * P.wOut + P.wOut)) :
    memRead (renderLine P s).lb a = memRead s.lb a := by
  have hrow : (renderLine P s).lb = memWriteRow s.lb (slotIndex s.lbWr * P.wOut) (rendPixel P s) P.wOut := rfl
  rw [hrow, memRead_memWriteRow, if_neg h]

/-! ### The events of a `REND` taken access by access -/

/-- The steps of a `REND` in progress do not see the events to come. -/
theorem rendStep_inputs (P : Params) (r : RendPos) (s : State) (es : List Event) :
    rendStep P r { s with inputs := es } = { rendStep P r s with inputs := es } := by
  have hread : nextRead P { s with inputs := es } r = nextRead P s r := rfl
  have hput : putPixel P { s with inputs := es } r = { putPixel P s r with inputs := es } := by
    have hplan : planPixel P s.act (stagePlan P { s with inputs := es } r.stage r.x) r.held =
        planPixel P s.act (stagePlan P s r.stage r.x) r.held := rfl
    unfold putPixel
    rw [hplan]
    cases planPixel P s.act (stagePlan P s r.stage r.x) r.held <;> rfl
  unfold rendStep
  split
  · rfl
  · unfold accessStep
    rw [hread, hput]
    cases nextRead P s r <;> rfl

theorem steps_succ {k : Nat} {s t : State} (h : step s = .next t) : steps (k + 1) s = steps k t := by rw [steps, h]

/-- The publication ends a `REND` taken access by access (R171). -/
theorem rendStep_publish {P : Params} {r : RendPos} {s : State} (h : r.stage = .publish) :
    rendStep P r s =
      { publishSlot { s with issuer := .seq } with respS := some ⟨.ok, []⟩, svc := afterRend P s } := by
  rw [rendStep, if_pos h, respond_of_seq _ _ rfl]

/-- SEQ's turn at a place of a `REND` in progress. -/
theorem step_rendering {u : State} {q : RendPos} (hs : u.svc = .rendering q) (es : List Event) :
    step { u with inputs := .seq :: es } = .next { rendStep .moe q u with inputs := es } := by
  rw [step_seq (es := es) rfl]
  exact (seqStep_at (run := exec) (s := { u with inputs := es }) hs).trans
    (congrArg Host.Outcome.next (rendStep_inputs .moe q u es))

/-- SEQ's turns while a `REND` is in progress are its micro-steps. -/
theorem steps_rendering {u : State} {k : Nat} {r : RendPos} (es : List Event)
    (h : (rendSteps .moe k u).svc = .rendering r) :
    steps k { u with inputs := List.replicate k .seq ++ es } = .next { rendSteps .moe k u with inputs := es } := by
  induction k generalizing u with
  | zero => rfl
  | succ k ih =>
    by_cases hs : ∃ q, u.svc = .rendering q
    · obtain ⟨q, hq⟩ := hs
      have hmove : rendSteps .moe (k + 1) u = rendSteps .moe k (rendStep .moe q u) := by rw [rendSteps, hq]
      rw [hmove] at h ⊢
      exact (steps_succ (step_rendering hq _)).trans (ih h)
    · have hstay : rendSteps .moe (k + 1) u = u := by
        rw [rendSteps]
        split
        · next q hq => exact absurd ⟨q, hq⟩ hs
        · rfl
      rw [hstay] at h
      exact absurd ⟨r, h⟩ hs

theorem steps_add {j k : Nat} {s t : State} (h : steps j s = .next t) : steps (j + k) s = steps k t := by
  induction j generalizing s with
  | zero => cases h; rw [Nat.zero_add]
  | succ j ih =>
    rw [Nat.succ_add]
    cases hs : step s with
    | next u => rw [steps_succ hs] at h ⊢; exact ih h
    | fault f => cases f
    | refused f => rw [steps, hs] at h; cases h

/-! ### All four stages -/

/-- The line slots after the four stages, each a row of the pixels it gives. -/
def stagesRow (P : Params) (s : State) : Mem Word :=
  [RendStage.clear, .margin, .overlay, .source].foldl
    (fun m stage => memWriteRow m (slotIndex s.lbWr * P.wOut) (stagePixel P s stage) P.wOut) s.lb

theorem rendSteps_stages (P : Params) (s : State) (hw : 0 < P.wOut) :
    ∃ k, rendSteps P k (inRend P s s.lb .clear 0 []) = inRend P s (stagesRow P s) .publish 0 [] := by
  obtain ⟨a, ha⟩ := rendSteps_stage P s s.lb .clear (by decide) hw
  obtain ⟨b, hb⟩ := rendSteps_stage P s _ .margin (by decide) hw
  obtain ⟨c, hc⟩ := rendSteps_stage P s _ .overlay (by decide) hw
  obtain ⟨d, hd⟩ := rendSteps_stage P s _ .source (by decide) hw
  refine ⟨a + b + c + d, ?_⟩
  rw [rendSteps_add, rendSteps_add, rendSteps_add, ha]
  exact (congrArg _ ((congrArg _ hb).trans hc)).trans hd

/-- The four stages leave at each element what one step leaves. -/
theorem memRead_stagesRow (P : Params) (s : State) (a : Nat) :
    memRead (stagesRow P s) a = memRead (renderLine P s).lb a := by
  have hrow : (renderLine P s).lb = memWriteRow s.lb (slotIndex s.lbWr * P.wOut) (rendPixel P s) P.wOut := rfl
  rw [hrow]
  simp only [stagesRow, List.foldl_cons, List.foldl_nil, memRead_memWriteRow]
  by_cases ha : slotIndex s.lbWr * P.wOut ≤ a ∧ a < slotIndex s.lbWr * P.wOut + P.wOut
  · simp only [if_pos ha, ← stages_pixel]
    generalize a - slotIndex s.lbWr * P.wOut = x
    cases stagePixel P s .source x <;> cases stagePixel P s .overlay x <;> cases stagePixel P s .margin x <;>
      cases stagePixel P s .clear x <;> rfl
  · simp only [if_neg ha]

/-- Settles O32: the accesses are the micro-steps of the four stages, then the publication. -/
theorem rendFillsAndPublishesOneSlot : Obligations.RendFillsAndPublishesOneSlot := by
  unfold Obligations.RendFillsAndPublishesOneSlot
  refine ⟨fun s hi => ⟨(renderLine .moe s).lb, _, exec_rend hi, fun a ha => ?_⟩, fun s hs => ?_⟩
  · refine memRead_renderLine_outside fun hin => ?_
    rw [slotIndex_mul] at hin
    have hin : 640 * s.lbWr.toNat ≤ a ∧ a < 640 * s.lbWr.toNat + 640 := hin
    omega
  · obtain ⟨k, hk⟩ := rendSteps_stages .moe s (by decide)
    refine ⟨k + 1, _, stagesRow .moe s, exec_rend rfl, fun a => ?_, fun es => ?_⟩
    · exact (memRead_stagesRow .moe s a).trans (congrArg (memRead · a) (renderLine_lb_issuer .moe s .seq).symm)
    · have hbegin : step { s with inputs := .seqByAccess :: (List.replicate (k + 1) .seq ++ es) } =
          .next { inRend .moe s s.lb .clear 0 [] with inputs := List.replicate k .seq ++ (.seq :: es) } := by
        rw [step_seqByAccess (es := List.replicate (k + 1) .seq ++ es) rfl, seqAccessStep, if_pos hs,
          List.replicate_succ']
        simp only [List.append_assoc, List.singleton_append]
        rfl
      have hstages : steps k { inRend .moe s s.lb .clear 0 [] with inputs := List.replicate k .seq ++ (.seq :: es) } =
          .next { inRend .moe s (stagesRow .moe s) .publish 0 [] with inputs := .seq :: es } := by
        rw [steps_rendering (.seq :: es) (r := ⟨.publish, 0, [], s.draws⟩) (by rw [hk]; rfl), hk]
      refine (steps_succ hbegin).trans ((steps_add hstages).trans (steps_succ ?_))
      rw [step_seq (es := es) rfl]
      refine (seqStep_at (v := .rendering ⟨.publish, 0, [], s.draws⟩) rfl).trans ?_
      rw [seqStepAt, rendStep_publish rfl]
      rfl

end Sys2Proof.Machine

end

section
/-! PROOFS. SEQ's own step at each place of the line service (44_system_and_memory_ops R251 to R257). -/

namespace Sys2Proof.Machine

/-! ### The stages of a pixel (R152, R159 to R165) -/

section Stages
variable {P : Params} {s : State} {x : Nat}

/-- Away from the clear a stage puts what the plan of the pixel gives it. -/
theorem stagePlan_of_drawn {st : RendStage} {p : PixelPlan} (h : drawnPlan P s s.ln.toNat x = (st, p))
    (stage : RendStage) (hc : stage ≠ .clear) : stagePlan P s stage x = if st = stage then p else .skip := by
  rw [stagePlan, if_neg hc, h]

/-- The plan of a pixel of this hardware, with the fields read: margin, overlay or source. -/
theorem drawnPlan_moe (s : State) (x : Nat) :
    let xs := sourceIndex (horizontal .moe s.act) 256 x
    let ys := sourceIndex (vertical .moe s.act) 240 s.ln.toNat
    let ox := s.act.ovlPos.toNat % 65536
    let oy := s.act.ovlPos.toNat / 65536
    let ow := s.act.ovlSize.toNat % 65536
    let margin : Prop :=
      inMargin (vertical .moe s.act) 480 s.ln.toNat = true ∨ inMargin (horizontal .moe s.act) 640 x = true
    let covered : Prop := s.act.src = .text ∧ s.ovlOk = true ∧
      ox ≤ xs ∧ xs < ox + ow ∧ oy ≤ ys ∧ ys < oy + s.act.ovlSize.toNat / 65536
    (margin ∧ drawnPlan .moe s s.ln.toNat x = (.margin, .fill 0#32)) ∨
    (¬margin ∧ covered ∧ drawnPlan .moe s s.ln.toNat x = (.overlay, .copy .ovl ((ys - oy) * ow + (xs - ox)))) ∨
    (¬margin ∧ ¬covered ∧ drawnPlan .moe s s.ln.toNat x = (.source, sourcePlan .moe s.act ys xs)) := by
  intro xs ys ox oy ow margin covered
  by_cases hm : margin
  · exact .inl ⟨hm, drawnPlan_margin (P := .moe) hm⟩
  · obtain ⟨hv, hh⟩ := not_or.1 hm
    rw [Bool.not_eq_true] at hv hh
    have hcov : (overlayOn s = true ∧ overlayCovers s.act ys xs = true) ↔ covered := by
      rw [overlayCovers_iff, overlayOn, Bool.and_eq_true, decide_eq_true_iff, and_assoc]
    by_cases hc : covered
    · obtain ⟨hon, hin⟩ := hcov.2 hc
      have hplan := drawnPlan_overlay (P := .moe) hv hh hon hin
      rw [ovlX_eq, ovlY_eq, ovlW_eq] at hplan
      exact .inr (.inl ⟨hm, hc, hplan⟩)
    · have hoff := mt hcov.1 hc
      rw [not_and_or, Bool.not_eq_true, Bool.not_eq_true] at hoff
      exact .inr (.inr ⟨hm, hc, drawnPlan_source (P := .moe) hv hh hoff⟩)

/-- The line clear, with the fields read (R165). -/
theorem clearsLine_iff (s : State) :
    clearsLine s = true ↔ s.act.src = .text ∧ s.ovlOk = true ∧ s.act.ovlCtrl.toNat / 2 % 2 = 1 := by
  rw [clearsLine, overlayOn, ovlMoving_eq, Bool.and_eq_true, Bool.and_eq_true, decide_eq_true_iff, decide_eq_true_iff,
    and_assoc]

end Stages

/-! ### SEQ's turn -/

/-- A turn of SEQ, given by an event or by no event to come, is the step at its place, with a `REND` that is next whole
or begun. -/
theorem seqTurn {s q : State} {e : Event} (he : e = .seq ∨ e = .seqByAccess)
    (hin : s.inputs = [] ∧ e = .seq ∧ q = s ∨ s.inputs = e :: q.inputs ∧ q = { s with inputs := q.inputs }) :
    ∃ es, q = { s with inputs := es } ∧
      (s.svc ≠ .rend ∨ e = .seq → step s = seqStepAt .moe exec s.svc { s with inputs := es }) ∧
      (s.svc = .rend → e = .seqByAccess → step s = .next (beginRend .moe { s with inputs := es })) := by
  rcases hin with ⟨hnil, rfl, rfl⟩ | ⟨hcons, hq⟩
  · exact ⟨q.inputs, rfl, fun _ => (step_none hnil).trans (seqStep_at rfl), fun _ h => nomatch h⟩
  · refine ⟨q.inputs, hq, fun h => ?_, fun hs h => ?_⟩
    · rcases he with rfl | rfl
      · exact (step_seq hcons).trans (seqStep_at rfl)
      · have hs : s.svc ≠ .rend := h.resolve_right (by decide)
        rw [step_seqByAccess hcons, seqAccessStep]
        exact (if_neg hs).trans (seqStep_at rfl)
    · rw [h] at hcons
      rw [step_seqByAccess hcons, seqAccessStep]
      exact if_pos hs

/-- A place at which SEQ issues a command: it runs, and SEQ moves on. -/
theorem seqIssue_runs {o : Host.Outcome State Fault Refusal} {u : State} (i : Instr) (next : State → Svc)
    (h : o = seqIssue exec i next u) :
    ∃ t, exec i { u with issuer := .seq } = .next t ∧ o = .next { t with svc := next t } :=
  ⟨_, exec_shape i _, h.trans (seqIssue_exec i next u)⟩

/-- The put of this hardware: one element of the slot, where the plan gives a pixel. -/
theorem putPixel_lb (s : State) (r : RendPos) :
    (∀ p, planPixel .moe s.act (stagePlan .moe s r.stage r.x) r.held = some p →
      memRead (putPixel .moe s r).lb (640 * s.lbWr.toNat + r.x) = some (putValue .moe s p) ∧
      ∀ a, a ≠ 640 * s.lbWr.toNat + r.x → memRead (putPixel .moe s r).lb a = memRead s.lb a) ∧
    (planPixel .moe s.act (stagePlan .moe s r.stage r.x) r.held = none → (putPixel .moe s r).lb = s.lb) := by
  have hslot : slotIndex s.lbWr * Params.moe.wOut = 640 * s.lbWr.toNat := slotIndex_mul _ _
  unfold putPixel
  cases planPixel .moe s.act (stagePlan .moe s r.stage r.x) r.held with
  | none => exact ⟨nofun, fun _ => rfl⟩
  | some p =>
    refine ⟨fun p' hp => ?_, nofun⟩
    obtain rfl := Option.some.inj hp
    dsimp only
    rw [hslot]
    exact ⟨memRead_memWrite_same .., fun a ha => memRead_memWrite_other _ _ ha⟩

theorem putPixel_eq (P : Params) (s : State) (r : RendPos) : putPixel P s r = { s with lb := (putPixel P s r).lb } := by
  rcases putPixel_cases P s r with h | ⟨p, h⟩ <;> rw [h]

/-- The put and the move to the next pixel or the next stage. -/
theorem accessStep_put {s : State} {r : RendPos} {after : RendStage} (h : nextRead .moe s r = none)
    (ha : r.stage.after = after) :
    accessStep .moe r s = { s with
      lb := (putPixel .moe s r).lb
      svc := .rendering (if r.x + 1 < 640 then ⟨r.stage, r.x + 1, [], r.base⟩ else ⟨after, 0, [], r.base⟩) } := by
  rcases accessStep_cases .moe r s with ⟨sp, a, hr, -⟩ | ⟨-, hs⟩
  · rw [h] at hr; cases hr
  · rw [hs, putPixel_eq, ← ha]; rfl

theorem accessStep_read {P : Params} {s : State} {r : RendPos} {sp : Space} {a : Nat} (h : nextRead P s r = some (sp, a)) :
    accessStep P r s = { s with svc := .rendering { r with
      held := r.held ++ [rendRead P s sp a (r.base + 4 * r.x + 2 * r.held.length)] } } := by
  rw [accessStep, h]; rfl

/-- The element read next, by how many are held. -/
theorem nextRead_eq (s : State) (r : RendPos) :
    (stagePlan .moe s r.stage r.x = .skip → nextRead .moe s r = none) ∧
    (∀ p, stagePlan .moe s r.stage r.x = .fill p → nextRead .moe s r = none) ∧
    (∀ sp a, stagePlan .moe s r.stage r.x = .copy sp a →
      nextRead .moe s r = if r.held.length = 0 then some (sp, a) else none) ∧
    (∀ cell row gx gy, stagePlan .moe s r.stage r.x = .glyph cell row gx gy →
      nextRead .moe s r = if r.held.length = 0 then some (.txt, 2 * cell)
        else if r.held.length = 1 then some (.txt, 2 * cell + 1) else none) := by
  unfold nextRead
  refine ⟨fun h => ?_, fun p h => ?_, fun sp a h => ?_, fun cell row gx gy h => ?_⟩ <;> rw [h]
  · rfl
  · rfl
  · cases r.held.length <;> rfl
  · rcases r.held.length with _ | _ | n <;> rfl

/-- What the stages put at a pixel, by margin and overlay. -/
theorem stagesOfPixel (s : State) (x : Nat) :
    let xs := sourceIndex (horizontal .moe s.act) 256 x
    let ys := sourceIndex (vertical .moe s.act) 240 s.ln.toNat
    let ox := s.act.ovlPos.toNat % 65536
    let oy := s.act.ovlPos.toNat / 65536
    let ow := s.act.ovlSize.toNat % 65536
    let margin : Prop :=
      inMargin (vertical .moe s.act) 480 s.ln.toNat = true ∨ inMargin (horizontal .moe s.act) 640 x = true
    let covered : Prop := s.act.src = .text ∧ s.ovlOk = true ∧
      ox ≤ xs ∧ xs < ox + ow ∧ oy ≤ ys ∧ ys < oy + s.act.ovlSize.toNat / 65536
    (margin → stagePlan .moe s .margin x = .fill 0#32) ∧ (¬margin → stagePlan .moe s .margin x = .skip) ∧
    (¬margin → covered → stagePlan .moe s .overlay x = .copy .ovl ((ys - oy) * ow + (xs - ox))) ∧
    (margin ∨ ¬covered → stagePlan .moe s .overlay x = .skip) ∧
    (¬margin → ¬covered → stagePlan .moe s .source x = sourcePlan .moe s.act ys xs) ∧
    (margin ∨ covered → stagePlan .moe s .source x = .skip) := by
  intro xs ys ox oy ow margin covered
  have given : ∀ {st : RendStage} {p : PixelPlan}, drawnPlan .moe s s.ln.toNat x = (st, p) → st ≠ .clear →
      stagePlan .moe s st x = p := fun h hc => by rw [stagePlan_of_drawn h _ hc, if_pos rfl]
  have skipped : ∀ {st : RendStage} {p : PixelPlan} (stage : RendStage), drawnPlan .moe s s.ln.toNat x = (st, p) →
      stage ≠ .clear → st ≠ stage → stagePlan .moe s stage x = .skip := fun _ h hc hne => by
    rw [stagePlan_of_drawn h _ hc, if_neg hne]
  rcases drawnPlan_moe s x with ⟨hm, h⟩ | ⟨hm, hc, h⟩ | ⟨hm, hc, h⟩
  · exact ⟨fun _ => given h (by decide), fun hn => absurd hm hn, fun hn => absurd hm hn,
      fun _ => skipped _ h (by decide) (by decide), fun hn => absurd hm hn,
      fun _ => skipped _ h (by decide) (by decide)⟩
  · exact ⟨fun hm' => absurd hm' hm, fun _ => skipped _ h (by decide) (by decide), fun _ _ => given h (by decide),
      fun hor => (hor.elim (absurd · hm) (absurd hc ·)), fun _ hn => absurd hc hn,
      fun _ => skipped _ h (by decide) (by decide)⟩
  · exact ⟨fun hm' => absurd hm' hm, fun _ => skipped _ h (by decide) (by decide), fun _ hc' => absurd hc' hc,
      fun _ => skipped _ h (by decide) (by decide), fun _ _ => given h (by decide),
      fun hor => (hor.elim (absurd · hm) (absurd · hc))⟩

/-- Settles O7: the plans of a pixel, its reads and its put, and SEQ's turn place by place. -/
theorem seqStepsThroughTheService : Obligations.SeqStepsThroughTheService := by
  unfold Obligations.SeqStepsThroughTheService
  refine ⟨?_, fun s r => ?_, ?_, ?_⟩
  · intro s x xs ys ox oy ow margin covered clears
    obtain ⟨hmargin, hnot, hover, hskip, hsource, hskip'⟩ := stagesOfPixel s x
    have hclear : stagePlan .moe s .clear x = if clearsLine s then .fill 0#32 else .skip := if_pos rfl
    refine ⟨fun hc => ?_, fun hc => ?_, hmargin, hnot, hover, hskip, fun hm hc => ?_, hskip'⟩
    · rw [hclear, if_pos ((clearsLine_iff s).2 hc)]
    · rw [hclear, if_neg (mt (clearsLine_iff s).1 hc)]
    · rw [hsource hm hc]; rfl
  · obtain ⟨hskip, hfill, hcopy, hglyph⟩ := nextRead_eq s r
    cases h : stagePlan .moe s r.stage r.x with
    | skip => exact hskip h
    | fill p => exact hfill p h
    | copy sp a => rw [hcopy sp a h]; cases r.held.length <;> rfl
    | glyph cell row gx gy => rw [hglyph cell row gx gy h]; rcases r.held.length with _ | _ | n <;> rfl
  · intro c p v w sp a cell row gx gy
    exact ⟨rfl, rfl, rfl, congrArg some (glyphPixel_moe ..)⟩
  · intro s q e he hin
    obtain ⟨es, rfl, hturn, hbegin⟩ := seqTurn he hin
    have turn : ∀ {v : Svc}, s.svc = v → v ≠ .rend ∨ e = .seq →
        step s = seqStepAt .moe exec v { s with inputs := es } :=
      fun {v} hv hne => by rw [← hv] at hne ⊢; exact hturn hne
    refine ⟨fun h => ?_, fun h => ?_, fun h => ?_, fun h he => ?_, fun h he => ?_, fun r sp a h hne hread => ?_,
      fun r after h hread hmem => ?_, fun r h hp => ?_, fun h => ?_, fun h => ?_, fun h => ?_, fun h => ?_, fun h => ?_,
      fun h => ?_, fun h => ?_, fun h hne => ?_, fun h hr => ?_⟩
    · exact seqIssue_runs (u := { s with inputs := es }) .tick (fun _ => .pkt) (turn h (.inl (by decide)))
    · exact seqIssue_runs (u := { s with inputs := es }) .pkt afterPkt (turn h (.inl (by decide)))
    · rw [turn h (.inl (by decide)), seqStepAt, afterBlank]
      by_cases hln : s.ln.toNat + 1 = 45
      · rw [if_pos hln]; rw [if_pos (show _ = Params.moe.vBlank from hln)]
      · rw [if_neg hln]; rw [if_neg (show ¬ _ = Params.moe.vBlank from hln)]
    · exact seqIssue_runs (u := { s with inputs := es }) .rend (afterRend .moe) (turn h (.inr he))
    · rw [hbegin h he]; rfl
    · rw [turn h (.inl (by simp)), seqStepAt, rendStep, if_neg hne]
      exact congrArg _ (accessStep_read hread)
    · have hstage : r.stage ≠ .publish ∧ r.stage.after = after := by
        simp only [List.mem_cons, List.not_mem_nil, or_false, Prod.mk.injEq] at hmem
        rcases hmem with ⟨h, rfl⟩ | ⟨h, rfl⟩ | ⟨h, rfl⟩ | ⟨h, rfl⟩ <;> rw [h] <;> exact ⟨by decide, rfl⟩
      obtain ⟨hval, hnone⟩ := putPixel_lb { s with inputs := es } r
      refine ⟨(putPixel .moe { s with inputs := es } r).lb, ?_, hval, hnone⟩
      rw [turn h (.inl (by simp)), seqStepAt, rendStep, if_neg hstage.1]
      exact congrArg _ (accessStep_put hread hstage.2)
    · rw [turn h (.inl (by simp)), seqStepAt, rendStep_publish hp]; rfl
    · rw [turn h (.inl (by decide))]; rfl
    · rw [turn h (.inl (by decide))]; rfl
    · rw [turn h (.inl (by decide))]; rfl
    · rw [turn h (.inl (by decide))]; rfl
    · rw [turn h (.inl (by decide))]; rfl
    · exact seqIssue_runs (u := { s with inputs := es }) .xchk (fun _ => .finish) (turn h (.inl (by decide)))
    · rw [turn h (.inl (by decide))]; rfl
    · exact seqIssue_runs (u := { s with inputs := es }) .xchk (fun _ => .idle)
        ((turn h (.inl (by decide))).trans (if_neg hne))
    · rw [turn h (.inl (by decide)), seqStepAt]; exact if_pos hr

end Sys2Proof.Machine

end

section
/-! PROOFS. The services of a blanking and of an active line, from the `LINE_REQ` to the end
(44_system_and_memory_ops R251 to R256). -/

namespace Sys2Proof.Machine

section Service
variable {s : State} {es : List Event}

/-- SEQ's turn, at a known place. -/
theorem step_at {v : Svc} (hin : s.inputs = .seq :: es) (hs : s.svc = v) :
    step s = seqStepAt .moe exec v { s with inputs := es } :=
  (step_seq hin).trans (seqStep_at hs)

/-- Every service begins with `TICK` and `PKT`, which touch the Multiplexer's registers and nothing else of SEQ's; then
the line is rendered or passed over, as `vsync` says (44 R251). -/
theorem lineService_begins {n : Nat} (hin : s.inputs = lineEvents (n + 2) ++ es) (hr : s.seq = .run)
    (hb : s.busy = false) :
    ∃ q sil out valid d r, steps 3 s = .next { s with
      q0 := q, acc := accAfterLine s.acc s.act.spl, silIdx := sil, diOut := out, diValid := valid, draws := d, respS := r
      issuer := .seq, busy := true, svc := if s.vsync then .blank else .rend, inputs := List.replicate n .seq ++ es } := by
  have hin : s.inputs = .lineReq :: (.seq :: .seq :: (List.replicate n .seq ++ es)) := hin
  have enter := (lineReqEntersOrOverruns s _ hin hr).1 hb
  have tick : step { s with inputs := .seq :: .seq :: (List.replicate n .seq ++ es), busy := true, svc := .tick } =
      .next { s with
        inputs := .seq :: (List.replicate n .seq ++ es), busy := true, issuer := .seq, acc := s.acc + s.act.spl
        respS := some ⟨.ok, []⟩, svc := .pkt } := by
    rw [step_at rfl rfl, seqStepAt, seqIssue_exec, runCommand_tick rfl]
  obtain ⟨tail, a, sil, out, valid, d, r, hp, -, -, ha⟩ := runCommand_pkt (s := { s with
    inputs := List.replicate n .seq ++ es, busy := true, issuer := .seq, acc := s.acc + s.act.spl
    respS := some ⟨.ok, []⟩, svc := .pkt }) rfl
  have hacc : a = accAfterLine s.acc s.act.spl := ha
  refine ⟨{ s.q0 with tail := tail }, sil, out, valid, d, r,
    (steps_succ enter).trans ((steps_succ tick).trans (steps_succ ?_))⟩
  rw [step_at rfl rfl, seqStepAt, seqIssue_exec, hp, hacc]
  rfl

end Service

/-! ### A blanking line (R255) -/

theorem afterBlank_position {s : State} (hv : s.vsync = true) (hln : s.ln.toNat < 45) :
    ((afterBlank .moe s).vsync, (afterBlank .moe s).ln.toNat) =
      if s.ln.toNat + 1 < 45 then (true, s.ln.toNat + 1) else (false, 0) := by
  rw [afterBlank]
  by_cases h : s.ln.toNat + 1 = 45
  · rw [if_pos (show _ = Params.moe.vBlank from h), if_neg (by omega)]; rfl
  · rw [if_neg (show ¬ _ = Params.moe.vBlank from h), if_pos (by omega)]
    have hnext : (s.ln + 1#16).toNat = s.ln.toNat + 1 := by
      rw [BitVec.toNat_add]; simp only [BitVec.reduceToNat]; omega
    exact Prod.ext hv hnext

theorem afterBlank_eq (P : Params) (s : State) :
    afterBlank P s = { s with vsync := (afterBlank P s).vsync, ln := (afterBlank P s).ln } := by
  unfold afterBlank; split <;> rfl

/-- The service of a blanking line (R255). -/
theorem blankingLine {s : State} {es : List Event} (hin : s.inputs = lineEvents 4 ++ es) (hr : s.seq = .run)
    (hb : s.busy = false) (hv : s.vsync = true) (hln : s.ln.toNat < 45) :
    ∃ t : State, steps 5 s = .next t ∧ t.inputs = es ∧ t.busy = false ∧ t.svc = .idle ∧
      t.seq = .run ∧ (t.vsync, t.ln.toNat) = (if s.ln.toNat + 1 < 45 then (true, s.ln.toNat + 1) else (false, 0)) ∧
      t.acc = accAfterLine s.acc s.act.spl ∧ t.lbSeq = s.lbSeq ∧ t.framecnt = s.framecnt ∧ t.act = s.act := by
  obtain ⟨q, sil, out, valid, d, r, hbegin⟩ := lineService_begins (n := 2) hin hr hb
  rw [hv, if_pos rfl] at hbegin
  have blank : ∀ u : State, u.inputs = [.seq, .seq] ++ es → u.svc = .blank → steps 2 u =
      .next (leaveService { u with
        vsync := (afterBlank .moe u).vsync, ln := (afterBlank .moe u).ln, svc := .finish, inputs := es }) :=
    fun u hu hs => by
      have first : step u = .next { u with
          vsync := (afterBlank .moe u).vsync, ln := (afterBlank .moe u).ln, svc := .finish, inputs := .seq :: es } := by
        rw [step_at hu hs, seqStepAt, afterBlank_eq]
        unfold afterBlank
        dsimp only
        split <;> rfl
      exact (steps_succ first).trans (steps_succ ((step_at rfl rfl).trans rfl))
  exact ⟨_, (steps_add hbegin).trans (blank _ rfl rfl), rfl, rfl, rfl, hr, afterBlank_position rfl hln, rfl, rfl, rfl,
    rfl⟩

/-- From the first blanking line, k services leave blanking line k, or after the last one none (R255). -/
theorem blankingLines {s : State} (hr : s.seq = .run) (hb : s.busy = false) (hv : s.vsync = true) (hln : s.ln = 0#16) :
    ∀ (k : Nat) (es : List Event), k ≤ 45 → s.inputs = (List.replicate k (lineEvents 4)).flatten ++ es →
      ∃ t : State, steps (5 * k) s = .next t ∧ t.inputs = es ∧ t.busy = false ∧ t.seq = .run ∧
        (t.vsync, t.ln.toNat) = if k < 45 then (true, k) else (false, 0)
  | 0, es, _, hin => ⟨s, rfl, hin, hb, hr, by rw [hv, hln]; rfl⟩
  | k + 1, es, hk, hin => by
    have hin : s.inputs = (List.replicate k (lineEvents 4)).flatten ++ (lineEvents 4 ++ es) := by
      rw [hin, List.replicate_succ', List.flatten_append, List.flatten_singleton, List.append_assoc]
    obtain ⟨t, hsteps, htin, htb, htr, hpos⟩ := blankingLines hr hb hv hln k _ (by omega) hin
    rw [if_pos (by omega), Prod.mk.injEq] at hpos
    obtain ⟨htv, htln⟩ := hpos
    obtain ⟨u, husteps, huin, hub, -, hur, hupos, -⟩ := blankingLine htin htr htb htv (by omega)
    rw [htln] at hupos
    exact ⟨u, (steps_add hsteps).trans husteps, huin, hub, hur, hupos⟩

/-- Settles O48. -/
theorem blankingLineService : Obligations.BlankingLineService := by
  unfold Obligations.BlankingLineService
  refine ⟨fun s es hin hr hb hv hln => blankingLine hin hr hb hv hln, fun s k hin hr hb hv hln hk => ?_⟩
  obtain ⟨t, hsteps, htin, -, -, hpos⟩ := blankingLines hr hb hv hln k [] hk (by rw [hin, List.append_nil])
  refine ⟨t, hsteps, htin, ?_⟩
  by_cases h45 : k < 45
  · rw [if_pos h45] at hpos
    rw [decide_eq_true h45]; exact congrArg Prod.fst hpos
  · rw [if_neg h45] at hpos
    rw [decide_eq_false h45]; exact congrArg Prod.fst hpos

/-! ### An active line (R256, R252) -/

theorem step_rend {u : State} {es : List Event} (hin : u.inputs = .seq :: es) (hs : u.svc = .rend) :
    ∃ m d, step u = .next { u with
      lb := m, draws := d, lbPub := u.lbWr, lbSeq := u.lbSeq + 1#16, lbWr := !u.lbWr, respS := some ⟨.ok, []⟩
      issuer := .seq, svc := if u.ln.toNat + 1 = 480 then .enter else .advance, inputs := es } := by
  rw [step_at hin hs, seqStepAt, seqIssue_exec, runCommand_rend rfl]
  exact ⟨_, _, rfl⟩

/-- The active line up to its publication: the slot filled is published, the other is free (R170, R171). -/
theorem activeLine_renders {s : State} {es : List Event} {n : Nat} (hin : s.inputs = lineEvents (n + 3) ++ es)
    (hr : s.seq = .run) (hb : s.busy = false) (hv : s.vsync = false) :
    ∃ q sil out valid d m, steps 4 s = .next { s with
      q0 := q, acc := accAfterLine s.acc s.act.spl, silIdx := sil, diOut := out, diValid := valid, draws := d, lb := m
      lbPub := s.lbWr, lbSeq := s.lbSeq + 1#16, lbWr := !s.lbWr, respS := some ⟨.ok, []⟩, issuer := .seq, busy := true
      vsync := false, svc := if s.ln.toNat + 1 = 480 then .enter else .advance
      inputs := List.replicate n .seq ++ es } := by
  obtain ⟨q, sil, out, valid, d, r, hbegin⟩ := lineService_begins (n := n + 1) hin hr hb
  rw [hv, if_neg (by decide)] at hbegin
  obtain ⟨m, d', hstep⟩ := step_rend (u := { s with
    q0 := q, acc := accAfterLine s.acc s.act.spl, silIdx := sil, diOut := out, diValid := valid, draws := d, respS := r
    issuer := .seq, busy := true, vsync := false, svc := .rend, inputs := .seq :: (List.replicate n .seq ++ es) })
    rfl rfl
  exact ⟨q, sil, out, valid, d', m, (steps_add (k := 1) hbegin).trans (steps_succ hstep)⟩

/-- The coordinator in `RUN`: a request or a stop ends the session's transfers, else nothing (43 R226). -/
theorem evaluate_of_run (P : Params) {s : State} (hs : s.seq = .run) :
    evaluate P s = { s with
      txRun := if s.xreq = true ∨ s.runReq = false then false else s.txRun
      seq := if s.xreq = true ∨ s.runReq = false then .quiesce else .run } := by
  by_cases h : s.xreq = true ∨ s.runReq = false
  · rw [evaluate_run_request hs h, if_pos h, if_pos h]
  · rw [if_neg h, if_neg h]
    rw [not_or, Bool.not_eq_true, Bool.not_eq_false] at h
    rw [evaluate_run hs h.1 h.2, ← hs]

section Places
variable {u : State} {es : List Event} (hin : u.inputs = .seq :: es)
include hin

theorem step_advance (hs : u.svc = .advance) :
    step u = .next { u with ln := u.ln + 1#16, svc := .finish, inputs := es } := step_at hin hs

theorem step_enter (hs : u.svc = .enter) :
    step u = .next { u with vsync := true, ln := 0#16, svc := .count, inputs := es } := step_at hin hs

theorem step_count (hs : u.svc = .count) :
    step u = .next { u with framecnt := u.framecnt + 1#32, svc := .latch, inputs := es } := step_at hin hs

theorem step_latch (hs : u.svc = .latch) :
    step u = .next { u with act := u.pend, lb := if modeChanges u then [] else u.lb, svc := .check, inputs := es } :=
  step_at hin hs

theorem step_check (hs : u.svc = .check) :
    step u = .next { u with ovlOk := overlayCheck .moe u.act, svc := .xchk, inputs := es } := step_at hin hs

theorem step_xchk (hs : u.svc = .xchk) (hr : u.seq = .run) :
    step u = .next { u with
      txRun := if u.xreq = true ∨ u.runReq = false then false else u.txRun
      seq := if u.xreq = true ∨ u.runReq = false then .quiesce else .run, issuer := .seq, respS := some ⟨.ok, []⟩
      svc := .finish, inputs := es } := by
  rw [step_at hin hs, seqStepAt, seqIssue_exec, runCommand_xchk rfl,
    evaluate_of_run .moe (s := { u with inputs := es, issuer := .seq }) hr]

theorem step_finish (hs : u.svc = .finish) :
    step u = .next { u with busy := false, svc := .idle, raced := [], inputs := es } := step_at hin hs

end Places

/-- The frame boundary, its five steps and the service's end (R252). -/
theorem frameBoundary {u : State} {es : List Event}
    (hin : u.inputs = .seq :: .seq :: .seq :: .seq :: .seq :: .seq :: es) (hs : u.svc = .enter) (hr : u.seq = .run) :
    ∃ m, steps 6 u = .next { u with
      vsync := true, ln := 0#16, framecnt := u.framecnt + 1#32, act := u.pend, lb := m
      ovlOk := overlayCheck .moe u.pend, txRun := if u.xreq = true ∨ u.runReq = false then false else u.txRun
      seq := if u.xreq = true ∨ u.runReq = false then .quiesce else .run, issuer := .seq, respS := some ⟨.ok, []⟩
      busy := false, svc := .idle, raced := [], inputs := es } := by
  refine ⟨if modeChanges u then [] else u.lb, ?_⟩
  have count : step { u with
        vsync := true, ln := 0#16, svc := .count, inputs := .seq :: .seq :: .seq :: .seq :: .seq :: es } =
      .next { u with
        vsync := true, ln := 0#16, framecnt := u.framecnt + 1#32, svc := .latch
        inputs := .seq :: .seq :: .seq :: .seq :: es } := step_count rfl rfl
  have latch : step { u with
        vsync := true, ln := 0#16, framecnt := u.framecnt + 1#32, svc := .latch
        inputs := .seq :: .seq :: .seq :: .seq :: es } =
      .next { u with
        vsync := true, ln := 0#16, framecnt := u.framecnt + 1#32, act := u.pend
        lb := if modeChanges u then [] else u.lb, svc := .check, inputs := .seq :: .seq :: .seq :: es } :=
    step_latch rfl rfl
  have check : step { u with
        vsync := true, ln := 0#16, framecnt := u.framecnt + 1#32, act := u.pend
        lb := if modeChanges u then [] else u.lb, svc := .check, inputs := .seq :: .seq :: .seq :: es } =
      .next { u with
        vsync := true, ln := 0#16, framecnt := u.framecnt + 1#32, act := u.pend
        lb := if modeChanges u then [] else u.lb, ovlOk := overlayCheck .moe u.pend, svc := .xchk
        inputs := .seq :: .seq :: es } := step_check rfl rfl
  have ended : ∀ w : State, w.inputs = .seq :: .seq :: es → w.svc = .xchk → w.seq = .run → steps 2 w = .next { w with
      txRun := if w.xreq = true ∨ w.runReq = false then false else w.txRun
      seq := if w.xreq = true ∨ w.runReq = false then .quiesce else .run, issuer := .seq, respS := some ⟨.ok, []⟩
      busy := false, svc := .idle, raced := [], inputs := es } := fun w hw hs hr =>
    (steps_succ (step_xchk hw hs hr)).trans (steps_succ (step_finish rfl rfl))
  exact (steps_succ (step_enter hin hs)).trans ((steps_succ count).trans ((steps_succ latch).trans
    ((steps_succ check).trans (ended _ rfl rfl hr))))

/-- Settles O49: the line is rendered, then the position moves on, or the frame boundary runs step by step. -/
theorem activeLineService : Obligations.ActiveLineService := by
  unfold Obligations.ActiveLineService
  intro s es hr hb hv hln
  refine ⟨fun hnext hin => ?_, fun hlast hin => ?_⟩
  · obtain ⟨q, sil, out, valid, d, m, hrend⟩ := activeLine_renders (n := 2) hin hr hb hv
    rw [if_neg (by omega)] at hrend
    have hadvance : (s.ln + 1#16).toNat = s.ln.toNat + 1 := by
      rw [BitVec.toNat_add]; simp only [BitVec.reduceToNat]; omega
    refine ⟨_,
      (steps_add (k := 2) hrend).trans ((steps_succ (step_advance rfl rfl)).trans (steps_succ (step_finish rfl rfl))),
      rfl, rfl, rfl, hr, rfl, hadvance, rfl, rfl, rfl, rfl, rfl, rfl⟩
  · obtain ⟨q, sil, out, valid, d, m, hrend⟩ := activeLine_renders (n := 6) hin hr hb hv
    rw [if_pos hlast] at hrend
    obtain ⟨m', hboundary⟩ := frameBoundary (u := { s with
      q0 := q, acc := accAfterLine s.acc s.act.spl, silIdx := sil, diOut := out, diValid := valid, draws := d, lb := m
      lbPub := s.lbWr, lbSeq := s.lbSeq + 1#16, lbWr := !s.lbWr, respS := some ⟨.ok, []⟩, issuer := .seq, busy := true
      vsync := false, svc := .enter, inputs := List.replicate 6 .seq ++ es }) rfl rfl hr
    refine ⟨_, (steps_add hrend).trans hboundary, rfl, rfl, rfl, rfl, rfl, rfl, rfl, rfl, rfl, rfl, rfl, rfl, ?_⟩
    by_cases hreq : s.xreq = true ∨ s.runReq = false
    · rw [if_pos hreq]
      show (if s.xreq = true ∨ s.runReq = false then Seq.quiesce else .run) = .quiesce ∧
        (if s.xreq = true ∨ s.runReq = false then false else s.txRun) = false
      exact ⟨if_pos hreq, if_pos hreq⟩
    · rw [if_neg hreq]
      show (if s.xreq = true ∨ s.runReq = false then Seq.quiesce else .run) = .run
      exact if_neg hreq

end Sys2Proof.Machine

end

section
/-! PROOFS. The accumulator of the Multiplexer over serviced lines (42_av_multiplexer R195, R196, R200), the exclusive
request (43_cross_core R221, R222) and a `LINE_REQ` outside `RUN` (60_exceptions R284). -/

namespace Sys2Proof.Machine

/-! ### The accumulator over serviced lines -/

/-- Fetching an island leaves the accumulator and the active configuration. -/
theorem fetchIsland_acc_act (P : Params) (s : State) :
    (fetchIsland P s).acc = s.acc ∧ (fetchIsland P s).act = s.act := by
  rcases fetchIsland_cases P s with ⟨-, h⟩ | ⟨-, _, -, h⟩ | ⟨-, -, h⟩ <;> rw [h] <;> exact ⟨rfl, rfl⟩

/-- One serviced line moves the accumulator on by the active `spl`, and emits an island just when `THRESH` is reached. -/
theorem audioLine_acc (s : State) :
    (audioLine s).acc = accAfterLine s.acc s.act.spl ∧ (audioLine s).act = s.act ∧
      firedBySeq (audioLine s) = decide (thresh ≤ s.acc + s.act.spl) := by
  let u : State := { s with acc := s.acc + s.act.spl, issuer := .seq, respS := some ⟨.ok, []⟩ }
  have hline : audioLine s = nextOr (exec .pkt u) u := by
    rw [audioLine, exec_tick (s := { s with issuer := .seq }) rfl]; rfl
  rw [hline, accAfterLine]
  by_cases hd : thresh ≤ s.acc + s.act.spl
  · obtain ⟨hacc, hact⟩ := fetchIsland_acc_act .moe { u with acc := u.acc - thresh, diValid := true }
    rw [exec_pkt_due (s := u) rfl hd, if_pos hd, decide_eq_true hd]
    exact ⟨hacc, hact, rfl⟩
  · rw [exec_pkt_notDue (s := u) rfl hd, if_neg hd, decide_eq_false hd]
    exact ⟨rfl, rfl, rfl⟩

/-- With a legal `spl` the 32-bit accumulator neither overflows nor reaches `THRESH` twice in a line: the line is one
division by `THRESH`. -/
theorem accAfterLine_toNat {acc spl : Word} (hspl : spl.toNat ≤ 0x40000) (hacc : acc.toNat < 0x40000) :
    (accAfterLine acc spl).toNat = (acc.toNat + spl.toNat) % 0x40000 ∧
      (if thresh ≤ acc + spl then 1 else 0) = (acc.toNat + spl.toNat) / 0x40000 := by
  have hsum : (acc + spl).toNat = acc.toNat + spl.toNat := BitVec.toNat_add_of_lt (by omega)
  unfold accAfterLine
  by_cases hd : thresh ≤ acc + spl
  · have hle := (thresh_le_iff _).1 hd
    rw [if_pos hd, if_pos hd, sub_thresh hle, BitVec.toNat_ofNat, hsum]
    omega
  · have hlt : ¬ 0x40000 ≤ (acc + spl).toNat := fun hle => hd ((thresh_le_iff _).2 hle)
    rw [if_neg hd, if_neg hd, hsum]
    omega

/-- After L lines the islands emitted and the accumulator are quotient and remainder of what went in, by `THRESH`; the
active configuration is the one before. -/
theorem audioLines_div_mod {s : State} (hspl : s.act.spl.toNat ≤ 0x40000) (hacc : s.acc.toNat < 0x40000) (L : Nat) :
    (audioLines L s).2.act = s.act ∧
      (audioLines L s).1 = (s.act.spl.toNat * L + s.acc.toNat) / 0x40000 ∧
      (audioLines L s).2.acc.toNat = (s.act.spl.toNat * L + s.acc.toNat) % 0x40000 := by
  induction L with
  | zero =>
    refine ⟨rfl, ?_, ?_⟩
    · rw [Nat.mul_zero, Nat.zero_add, Nat.div_eq_of_lt hacc]; rfl
    · rw [Nat.mul_zero, Nat.zero_add, Nat.mod_eq_of_lt hacc]; rfl
  | succ L ih =>
    obtain ⟨hact, hcount, hrest⟩ := ih
    obtain ⟨hacc', hact', hfired⟩ := audioLine_acc (audioLines L s).2
    obtain ⟨hmod, hdiv⟩ := accAfterLine_toNat (acc := (audioLines L s).2.acc) hspl
      (hrest ▸ Nat.mod_lt _ (by decide))
    rw [hact] at hacc' hact' hfired
    simp only [audioLines]
    refine ⟨hact', ?_, ?_⟩
    · simp only [hfired, decide_eq_true_eq]
      rw [hdiv, hcount, hrest, Nat.mul_succ]
      omega
    · rw [hacc', hmod, hrest, Nat.mul_succ]
      omega

/-- Settles O27. -/
theorem noAudioDrift : Obligations.NoAudioDrift := by
  unfold Obligations.NoAudioDrift
  exact fun s L hspl hacc => (audioLines_div_mod hspl hacc L).2

/-! ### The exclusive request and the ignored `LINE_REQ` -/

/-- Settles O43. -/
theorem reqxOnlyFromIdle : Obligations.ReqxOnlyFromIdle := by
  unfold Obligations.ReqxOnlyFromIdle
  intro s h
  rw [exec_allowed .reqx (runReqx s) rfl rfl (by simp [h])]
  refine ⟨fun hreq hgnt => ?_, fun hbusy => ?_⟩
  · rw [if_pos ⟨hreq, hgnt⟩]; exact congrArg _ (respond_of_p _ _ h)
  · rw [if_neg (by rcases hbusy with hreq | hgnt <;> simp [*]), respond_of_p _ _ h]

/-- Settles O44. -/
theorem relxOnlyFromGranted : Obligations.RelxOnlyFromGranted := by
  unfold Obligations.RelxOnlyFromGranted
  intro s h
  rw [exec_allowed .relx (runRelx s) rfl rfl (by simp [h])]
  refine ⟨fun hreq hgnt => ?_, fun hnone => ?_⟩
  · rw [if_pos ⟨hreq, hgnt⟩]; exact congrArg _ (respond_of_p _ _ h)
  · rw [if_neg (by rcases hnone with hreq | hgnt <;> simp [*]), respond_of_p _ _ h]

/-- Settles O47: only `RUN` takes a `LINE_REQ`. -/
theorem lineReqIgnoredOutsideRun : Obligations.LineReqIgnoredOutsideRun := by
  unfold Obligations.LineReqIgnoredOutsideRun
  intro s es hin hs
  have hne : s.seq ≠ .run := by rcases hs with hs | hs | hs <;> simp [hs]
  rw [step_lineReq hin]
  rcases takeLineReq_cases { s with inputs := es } with ⟨hr, -⟩ | ⟨hr, -⟩ | ⟨-, ht⟩
  · exact absurd hr hne
  · exact absurd hr hne
  · rw [ht]

end Sys2Proof.Machine

end
